-- ==== Sys2Proof/Word.lean ====
section
/-! DEFINITION. The words of the block: field elements, registers, bus addresses, bytes. -/

namespace Sys2Proof

/-- A byte of memory. -/
abbrev Byte := BitVec 8

/-- A field element of GF(2^16): bit i is the coefficient of x^i (00_scope.md R9). -/
abbrev Elem := BitVec 16

/-- A register of the register port, and a command word (10_state.md R20, 30_encoding.md R100). -/
abbrev Word := BitVec 32

/-- An address register, P_AW of whose bits are implemented (10_state.md R32), or a bus address of the register port:
the spec gives the latter no width, and 64 bits is a DESIGN CHOICE (entry 28; unsafe for a platform with wider ones). -/
abbrev Addr := BitVec 64

end Sys2Proof
end

