-- ==== Sys2Proof/Config.lean ====
section
/-! DEFINITION. What an implementation fixes (the parameters of 00_scope.md R6) and the free values (93_implementation_defined.md, "any value"). -/

namespace Sys2Proof.Config

/-- P_IRQ_ROUTE: how the IRQ output reaches a processor (00_scope.md R6, 60_exceptions.md R306). -/
structure IrqRoute where
  /-- the interrupt controller -/
  controller : Nat
  /-- its input line -/
  line : Nat
  /-- the priority there -/
  priority : Nat
deriving DecidableEq, Repr

/-- The implementation parameters of 00_scope.md R6. They are configuration: no step changes them. -/
structure Params where
  /-- P_BASE, the bus address of the 256-byte register window; that it has 64 bits is a DESIGN CHOICE (entry 28). -/
  base : Addr
  /-- Whether the platform maps that window into the memory port's address space too (20_memory.md R78). That it stands
  there at P_BASE, its address in register space, is a DESIGN CHOICE (entry 29; unsafe for a platform that maps it at
  another address). -/
  windowInMemory : Bool
  /-- P_AW, the width of memory-port addresses. -/
  aw : Nat
  /-- P_POLY, the defining polynomial. -/
  poly : BitVec 17
  /-- P_HAS_SHUF_N. -/
  hasShufN : Bool
  /-- P_HAS_SHUF_W. -/
  hasShufW : Bool
  /-- P_HAS_CLMUL. -/
  hasClmul : Bool
  /-- P_HAS_AFFINE. -/
  hasAffine : Bool
  /-- P_VW_SHUF_N, in bytes. -/
  vwShufN : Nat
  /-- P_VW_SHUF_W, in bytes. -/
  vwShufW : Nat
  /-- P_VW_AFFINE, in bytes. -/
  vwAffine : Nat
  /-- P_VW_CLMUL, in bytes. -/
  vwClmul : Nat
  /-- P_SLOW_SHUF_THRESHOLD, the reset value of THRESH. -/
  slowShufThreshold : Word
  /-- P_SLOW_WIDE, the reset value of CTRL.SLOW_WIDE. -/
  slowWide : Bool
  /-- P_IRQ_ROUTE. -/
  irqRoute : IrqRoute
deriving DecidableEq, Repr

/-- The defaults of 00_scope.md R6. P_BASE and P_IRQ_ROUTE have none there (OPEN): 0, "not mapped into memory" and the
route 0 are a DESIGN CHOICE (entry 2; unsafe for a claim about `State.reset` alone, as entry 1 says). -/
def Params.default : Params :=
  { base := 0, windowInMemory := false, aw := 64, poly := 0x1100B,
    hasShufN := true, hasShufW := true, hasClmul := true, hasAffine := true,
    vwShufN := 16, vwShufW := 64, vwAffine := 64, vwClmul := 16,
    slowShufThreshold := 0, slowWide := false,
    irqRoute := { controller := 0, line := 0, priority := 0 } }

/-- The n-th free 16-bit value: what a read or a product that rests on an unwritten table entry gives
(10_state.md R42, 41_log_table_unit.md R176; entries 6 and 7; safe). No proof can see its value. -/
opaque freeElem : Nat → Elem

/-- The n-th free byte: destination bytes after a race or a reset (20_memory.md R83, 70_reset_and_hazards.md R341;
entries 10 and 12; safe). -/
opaque freeByte : Nat → Byte

/-- The n-th free choice between two outcomes: whether a torn byte is new (60_exceptions.md R304; entry 11; safe). -/
opaque freeBit : Nat → Bool

/-- The n-th free choice among several: which faulting access FAULT reports (60_exceptions.md R304; entry 11; safe). -/
opaque freeIndex : Nat → Nat

end Sys2Proof.Config
end

