-- ==== Sys2Proof/Syntax.lean ====
section
/-! DEFINITION. The commands: one constructor of Instr for each row of opcode_table.json, and the fields of a command word (30_encoding.md). -/

namespace Sys2Proof

/-- GRAN, the lookup granularity of the table-shuffle processor (30_encoding.md R106). -/
inductive Gran where
  | nibble
  | byte
deriving DecidableEq, Repr

/-- MODE (30_encoding.md R103). -/
inductive Mode where
  | assign
  | accumulate
deriving DecidableEq, Repr

/-- The five engines (30_encoding.md R104). -/
inductive Engine where
  | log
  | shufN
  | shufW
  | clmul
  | affine
deriving DecidableEq, Repr

/-- What a command's ENG field says: the dispatcher picks, or one engine is named (30_encoding.md R104). -/
inductive EngSel where
  | auto
  | named (e : Engine)
deriving DecidableEq, Repr

/-- The commands, one constructor per row of opcode_table.json. GRAN is every MULR and MULE command's one
operand: for the engines that ignore it, it is still a bit of the word (30_encoding.md R106). -/
inductive Instr where
  /-- NOP -/
  | nop
  /-- SEL -/
  | sel
  /-- MULR.ASG.AUTO -/
  | mulrAsgAuto (gran : Gran)
  /-- MULR.ASG.LOG -/
  | mulrAsgLog (gran : Gran)
  /-- MULR.ASG.SHUFN -/
  | mulrAsgShufn (gran : Gran)
  /-- MULR.ASG.SHUFW -/
  | mulrAsgShufw (gran : Gran)
  /-- MULR.ASG.CLMUL -/
  | mulrAsgClmul (gran : Gran)
  /-- MULR.ASG.AFFINE -/
  | mulrAsgAffine (gran : Gran)
  /-- MULR.ACC.AUTO -/
  | mulrAccAuto (gran : Gran)
  /-- MULR.ACC.LOG -/
  | mulrAccLog (gran : Gran)
  /-- MULR.ACC.SHUFN -/
  | mulrAccShufn (gran : Gran)
  /-- MULR.ACC.SHUFW -/
  | mulrAccShufw (gran : Gran)
  /-- MULR.ACC.CLMUL -/
  | mulrAccClmul (gran : Gran)
  /-- MULR.ACC.AFFINE -/
  | mulrAccAffine (gran : Gran)
  /-- MULE.ASG.AUTO -/
  | muleAsgAuto (gran : Gran)
  /-- MULE.ASG.LOG -/
  | muleAsgLog (gran : Gran)
  /-- MULE.ASG.SHUFN -/
  | muleAsgShufn (gran : Gran)
  /-- MULE.ASG.SHUFW -/
  | muleAsgShufw (gran : Gran)
  /-- MULE.ASG.CLMUL -/
  | muleAsgClmul (gran : Gran)
  /-- MULE.ASG.AFFINE -/
  | muleAsgAffine (gran : Gran)
  /-- MULE.ACC.AUTO -/
  | muleAccAuto (gran : Gran)
  /-- MULE.ACC.LOG -/
  | muleAccLog (gran : Gran)
  /-- MULE.ACC.SHUFN -/
  | muleAccShufn (gran : Gran)
  /-- MULE.ACC.SHUFW -/
  | muleAccShufw (gran : Gran)
  /-- MULE.ACC.CLMUL -/
  | muleAccClmul (gran : Gran)
  /-- MULE.ACC.AFFINE -/
  | muleAccAffine (gran : Gran)
deriving DecidableEq, Repr

/-- The code of a granularity (30_encoding.md R106). -/
def Gran.code : Gran → BitVec 1
  | .nibble => 0
  | .byte => 1

/-- The code of a mode (30_encoding.md R103). -/
def Mode.code : Mode → BitVec 2
  | .assign => 0
  | .accumulate => 1

/-- The code of an engine, 1 to 5 (30_encoding.md R104). -/
def Engine.code : Engine → BitVec 3
  | .log => 1
  | .shufN => 2
  | .shufW => 3
  | .clmul => 4
  | .affine => 5

/-- The ENG code of a selection (30_encoding.md R104). -/
def EngSel.code : EngSel → BitVec 3
  | .auto => 0
  | .named e => e.code

/-- The fields of a command word that are not must-be-zero bits (30_encoding.md R101). -/
structure CmdFields where
  op : BitVec 4
  mode : BitVec 2
  eng : BitVec 3
  gran : BitVec 1
deriving DecidableEq, Repr

/-- The fields of each command's word (30_encoding.md R102 to R106, and the table of its section 4). -/
def Instr.fields : Instr → CmdFields
  | .nop => ⟨0, 0, 0, 0⟩
  | .sel => ⟨3, 0, 0, 0⟩
  | .mulrAsgAuto g => ⟨1, Mode.code .assign, EngSel.code .auto, g.code⟩
  | .mulrAsgLog g => ⟨1, Mode.code .assign, EngSel.code (.named .log), g.code⟩
  | .mulrAsgShufn g => ⟨1, Mode.code .assign, EngSel.code (.named .shufN), g.code⟩
  | .mulrAsgShufw g => ⟨1, Mode.code .assign, EngSel.code (.named .shufW), g.code⟩
  | .mulrAsgClmul g => ⟨1, Mode.code .assign, EngSel.code (.named .clmul), g.code⟩
  | .mulrAsgAffine g => ⟨1, Mode.code .assign, EngSel.code (.named .affine), g.code⟩
  | .mulrAccAuto g => ⟨1, Mode.code .accumulate, EngSel.code .auto, g.code⟩
  | .mulrAccLog g => ⟨1, Mode.code .accumulate, EngSel.code (.named .log), g.code⟩
  | .mulrAccShufn g => ⟨1, Mode.code .accumulate, EngSel.code (.named .shufN), g.code⟩
  | .mulrAccShufw g => ⟨1, Mode.code .accumulate, EngSel.code (.named .shufW), g.code⟩
  | .mulrAccClmul g => ⟨1, Mode.code .accumulate, EngSel.code (.named .clmul), g.code⟩
  | .mulrAccAffine g => ⟨1, Mode.code .accumulate, EngSel.code (.named .affine), g.code⟩
  | .muleAsgAuto g => ⟨2, Mode.code .assign, EngSel.code .auto, g.code⟩
  | .muleAsgLog g => ⟨2, Mode.code .assign, EngSel.code (.named .log), g.code⟩
  | .muleAsgShufn g => ⟨2, Mode.code .assign, EngSel.code (.named .shufN), g.code⟩
  | .muleAsgShufw g => ⟨2, Mode.code .assign, EngSel.code (.named .shufW), g.code⟩
  | .muleAsgClmul g => ⟨2, Mode.code .assign, EngSel.code (.named .clmul), g.code⟩
  | .muleAsgAffine g => ⟨2, Mode.code .assign, EngSel.code (.named .affine), g.code⟩
  | .muleAccAuto g => ⟨2, Mode.code .accumulate, EngSel.code .auto, g.code⟩
  | .muleAccLog g => ⟨2, Mode.code .accumulate, EngSel.code (.named .log), g.code⟩
  | .muleAccShufn g => ⟨2, Mode.code .accumulate, EngSel.code (.named .shufN), g.code⟩
  | .muleAccShufw g => ⟨2, Mode.code .accumulate, EngSel.code (.named .shufW), g.code⟩
  | .muleAccClmul g => ⟨2, Mode.code .accumulate, EngSel.code (.named .clmul), g.code⟩
  | .muleAccAffine g => ⟨2, Mode.code .accumulate, EngSel.code (.named .affine), g.code⟩

/-- The row of opcode_table.json a command stands for. -/
def Instr.row : Instr → String
  | .nop => "NOP"
  | .sel => "SEL"
  | .mulrAsgAuto _ => "MULR.ASG.AUTO"
  | .mulrAsgLog _ => "MULR.ASG.LOG"
  | .mulrAsgShufn _ => "MULR.ASG.SHUFN"
  | .mulrAsgShufw _ => "MULR.ASG.SHUFW"
  | .mulrAsgClmul _ => "MULR.ASG.CLMUL"
  | .mulrAsgAffine _ => "MULR.ASG.AFFINE"
  | .mulrAccAuto _ => "MULR.ACC.AUTO"
  | .mulrAccLog _ => "MULR.ACC.LOG"
  | .mulrAccShufn _ => "MULR.ACC.SHUFN"
  | .mulrAccShufw _ => "MULR.ACC.SHUFW"
  | .mulrAccClmul _ => "MULR.ACC.CLMUL"
  | .mulrAccAffine _ => "MULR.ACC.AFFINE"
  | .muleAsgAuto _ => "MULE.ASG.AUTO"
  | .muleAsgLog _ => "MULE.ASG.LOG"
  | .muleAsgShufn _ => "MULE.ASG.SHUFN"
  | .muleAsgShufw _ => "MULE.ASG.SHUFW"
  | .muleAsgClmul _ => "MULE.ASG.CLMUL"
  | .muleAsgAffine _ => "MULE.ASG.AFFINE"
  | .muleAccAuto _ => "MULE.ACC.AUTO"
  | .muleAccLog _ => "MULE.ACC.LOG"
  | .muleAccShufn _ => "MULE.ACC.SHUFN"
  | .muleAccShufw _ => "MULE.ACC.SHUFW"
  | .muleAccClmul _ => "MULE.ACC.CLMUL"
  | .muleAccAffine _ => "MULE.ACC.AFFINE"

/-- The GRAN operand of a command; NOP and SEL have none and their bit is 0 (30_encoding.md R107). -/
def Instr.gran : Instr → Gran
  | .nop => .nibble
  | .sel => .nibble
  | .mulrAsgAuto g => g
  | .mulrAsgLog g => g
  | .mulrAsgShufn g => g
  | .mulrAsgShufw g => g
  | .mulrAsgClmul g => g
  | .mulrAsgAffine g => g
  | .mulrAccAuto g => g
  | .mulrAccLog g => g
  | .mulrAccShufn g => g
  | .mulrAccShufw g => g
  | .mulrAccClmul g => g
  | .mulrAccAffine g => g
  | .muleAsgAuto g => g
  | .muleAsgLog g => g
  | .muleAsgShufn g => g
  | .muleAsgShufw g => g
  | .muleAsgClmul g => g
  | .muleAsgAffine g => g
  | .muleAccAuto g => g
  | .muleAccLog g => g
  | .muleAccShufn g => g
  | .muleAccShufw g => g
  | .muleAccClmul g => g
  | .muleAccAffine g => g

end Sys2Proof
end

