-- ==== Sys2Proof/WellFormed.lean ====
section
/-! DEFINITION. Which command fields, spellings and parameter sets are legal (30_encoding.md R107, R109, R110; 00_scope.md R6). -/

namespace Sys2Proof

/-- The fields of a legal command word (30_encoding.md R102 to R107): a known operation; for NOP and SEL no
other field set; for MULR and MULE a legal mode and engine. -/
def CmdFields.wf (f : CmdFields) : Bool :=
  if f.op = 0 ∨ f.op = 3 then f.mode == 0 && f.eng == 0 && f.gran == 0
  else (f.op == 1 || f.op == 2) && f.mode.ult 2 && f.eng.ult 6

/-- A command whose fields are legal. The typed syntax admits no other (`Laws.instr_wf`). -/
def Instr.wf (i : Instr) : Bool := i.fields.wf

/-- Whether a selection uses GRAN: AUTO may resolve to a shuffle engine (30_encoding.md R106, R110). -/
def engUsesGran (eng : BitVec 3) : Bool := eng == 0 || eng == 2 || eng == 3

/-- The commands the assembler syntax can write: byte granularity only where ENG is AUTO, SHUFN or SHUFW
(30_encoding.md R110). The block itself runs the others too, GRAN ignored. -/
def Instr.spellable (i : Instr) : Bool := i.fields.gran == 0 || engUsesGran i.fields.eng

namespace Config

/-- Remainder of a polynomial over GF(2), given as a bit set, by a divisor of degree `deg`, starting at
shift `n`-1. -/
def polyRem (divisor deg : Nat) : Nat → Nat → Nat
  | 0, p => p
  | n + 1, p => polyRem divisor deg n (if p.testBit (n + deg) then p ^^^ (divisor <<< n) else p)

/-- P_POLY has degree 16 (00_scope.md R6: bit 16 must be 1). -/
def Params.polyMonic (c : Params) : Bool := c.poly.getLsbD 16

/-- P_POLY has no factor of degree 1 to 8, so (being of degree 16) it is irreducible over GF(2) (00_scope.md R6). -/
def Params.polyIrreducible (c : Params) : Bool :=
  (List.range 8).all fun t =>
    (List.range (2 ^ (t + 1))).all fun low =>
      polyRem (2 ^ (t + 1) + low) (t + 1) (16 - t) c.poly.toNat != 0

/-- A chunk width that is a power of two between `lo` and 256 (00_scope.md R6). -/
def vwLegal (lo vw : Nat) : Bool := (List.range 9).any fun e => vw == 2 ^ e && lo ≤ vw

/-- P_BASE is aligned to 256 (00_scope.md R6). -/
def Params.baseAligned (c : Params) : Bool := c.base.toNat % 256 == 0

/-- P_AW is 32 to 64 (00_scope.md R6). -/
def Params.awLegal (c : Params) : Bool := 32 ≤ c.aw && c.aw ≤ 64

/-- The chunk widths are legal, and the wide one is at least the narrow one (00_scope.md R6). -/
def Params.widthsLegal (c : Params) : Bool :=
  vwLegal 4 c.vwShufN && vwLegal 4 c.vwShufW && vwLegal 2 c.vwAffine && vwLegal 2 c.vwClmul &&
    c.vwShufN ≤ c.vwShufW

/-- A legal parameter set (00_scope.md R6; a reducible P_POLY is illegal, 44_clmul.md R245). No block with
another set is built; the model does not check it at run time (entry 23). -/
def Params.legal (c : Params) : Bool :=
  c.baseAligned && c.awLegal && c.polyMonic && c.polyIrreducible && c.widthsLegal

end Config

end Sys2Proof
end

