-- ==== Sys2Proof/Decode.lean ====
section
/-! DEFINITION. Decoding a command word, total on every word (30_encoding.md R109), and encoding a command. -/

namespace Sys2Proof

/-- Why a word is no command (30_encoding.md R109). -/
inductive DecodeError where
  /-- OP reserved, or a must-be-zero bit set (R107). -/
  | badOp
  /-- MODE 2 or 3 (R103). -/
  | badMode
  /-- ENG 6 or 7 (R105). -/
  | badEngine
deriving DecidableEq, Repr

/-- The two operations that carry MODE, ENG and GRAN (30_encoding.md R102). -/
inductive MulOp where
  | mulr
  | mule
deriving DecidableEq, Repr

/-- OP, bits 3:0 (30_encoding.md R101). -/
def fieldOp (w : Word) : BitVec 4 := w.extractLsb' 0 4

/-- MODE, bits 5:4 (30_encoding.md R101). -/
def fieldMode (w : Word) : BitVec 2 := w.extractLsb' 4 2

/-- ENG, bits 10:8 (30_encoding.md R101). -/
def fieldEng (w : Word) : BitVec 3 := w.extractLsb' 8 3

/-- GRAN, bit 12 (30_encoding.md R101). -/
def fieldGran (w : Word) : BitVec 1 := w.extractLsb' 12 1

/-- The must-be-zero bits of MULR and MULE are clear: bits 7:6, 11 and 31:13 (30_encoding.md R107). -/
def mulZeroBits (w : Word) : Bool :=
  w.extractLsb' 6 2 == 0 && w.extractLsb' 11 1 == 0 && w.extractLsb' 13 19 == 0

/-- The mode a MODE field names, if it is legal (30_encoding.md R103). -/
def decodeMode (m : BitVec 2) : Option Mode :=
  if m = 0 then some .assign else if m = 1 then some .accumulate else none

/-- The engine an ENG field names, if it is legal (30_encoding.md R104, R105). -/
def decodeEng (e : BitVec 3) : Option EngSel :=
  if e = 0 then some .auto
  else if e = 1 then some (.named .log)
  else if e = 2 then some (.named .shufN)
  else if e = 3 then some (.named .shufW)
  else if e = 4 then some (.named .clmul)
  else if e = 5 then some (.named .affine)
  else none

/-- The granularity a GRAN field names (30_encoding.md R106). -/
def decodeGran (g : BitVec 1) : Gran := if g = 0 then .nibble else .byte

/-- The command of an operation with its mode, engine and granularity (30_encoding.md, table of section 4). -/
def mulInstr : MulOp → Mode → EngSel → Gran → Instr
  | .mulr, .assign, .auto, g => .mulrAsgAuto g
  | .mulr, .assign, .named .log, g => .mulrAsgLog g
  | .mulr, .assign, .named .shufN, g => .mulrAsgShufn g
  | .mulr, .assign, .named .shufW, g => .mulrAsgShufw g
  | .mulr, .assign, .named .clmul, g => .mulrAsgClmul g
  | .mulr, .assign, .named .affine, g => .mulrAsgAffine g
  | .mulr, .accumulate, .auto, g => .mulrAccAuto g
  | .mulr, .accumulate, .named .log, g => .mulrAccLog g
  | .mulr, .accumulate, .named .shufN, g => .mulrAccShufn g
  | .mulr, .accumulate, .named .shufW, g => .mulrAccShufw g
  | .mulr, .accumulate, .named .clmul, g => .mulrAccClmul g
  | .mulr, .accumulate, .named .affine, g => .mulrAccAffine g
  | .mule, .assign, .auto, g => .muleAsgAuto g
  | .mule, .assign, .named .log, g => .muleAsgLog g
  | .mule, .assign, .named .shufN, g => .muleAsgShufn g
  | .mule, .assign, .named .shufW, g => .muleAsgShufw g
  | .mule, .assign, .named .clmul, g => .muleAsgClmul g
  | .mule, .assign, .named .affine, g => .muleAsgAffine g
  | .mule, .accumulate, .auto, g => .muleAccAuto g
  | .mule, .accumulate, .named .log, g => .muleAccLog g
  | .mule, .accumulate, .named .shufN, g => .muleAccShufn g
  | .mule, .accumulate, .named .shufW, g => .muleAccShufw g
  | .mule, .accumulate, .named .clmul, g => .muleAccClmul g
  | .mule, .accumulate, .named .affine, g => .muleAccAffine g

/-- The part of decoding MULR and MULE share, the checks in the order of 30_encoding.md R109. -/
def decodeMul (op : MulOp) (w : Word) : Except DecodeError Instr :=
  if mulZeroBits w = false then .error .badOp
  else
    match decodeMode (fieldMode w) with
    | none => .error .badMode
    | some m =>
      match decodeEng (fieldEng w) with
      | none => .error .badEngine
      | some e => .ok (mulInstr op m e (decodeGran (fieldGran w)))

/-- Decoding, the verdict on every 32-bit word (30_encoding.md R109). -/
def decode (w : Word) : Except DecodeError Instr :=
  if fieldOp w = 0 then (if w = 0 then .ok .nop else .error .badOp)
  else if fieldOp w = 3 then (if w = 3 then .ok .sel else .error .badOp)
  else if fieldOp w = 1 then decodeMul .mulr w
  else if fieldOp w = 2 then decodeMul .mule w
  else .error .badOp

/-- The word with the given fields and every must-be-zero bit clear (30_encoding.md R101). -/
def encodeFields (f : CmdFields) : Word :=
  (0 : BitVec 19) ++ f.gran ++ (0 : BitVec 1) ++ f.eng ++ (0 : BitVec 2) ++ f.mode ++ f.op

/-- The word of a command (30_encoding.md R101, and the table of its section 4). -/
def encode (i : Instr) : Word := encodeFields i.fields

/-- A 32-bit value from its bytes, the lowest address first (10_state.md R20: little-endian on the register
port); none where there are not exactly four bytes, since a command is one 32-bit word (30_encoding.md R112). -/
def wordOfBytes : List Byte → Option Word
  | [b0, b1, b2, b3] => some (b3 ++ b2 ++ b1 ++ b0)
  | _ => none

/-- The four bytes of a 32-bit value, the lowest address first (10_state.md R20). -/
def bytesOfWord (w : Word) : List Byte :=
  [w.extractLsb' 0 8, w.extractLsb' 8 8, w.extractLsb' 16 8, w.extractLsb' 24 8]

/-- Decoding the bytes of a command word; none where they are no 32-bit word. -/
def decodeBytes (bs : List Byte) : Option (Except DecodeError Instr) := (wordOfBytes bs).map decode

/-- The command word that the opcode table's bits stand for: the bits above `nbits` are zero. -/
def tableWord (nbits w : Nat) : Word := BitVec.ofNat 32 (w % 2 ^ nbits)

/-- The command the decoder reads from an opcode-table row's bits: laid out as the four bytes of the word
(30_encoding.md R100); none where the decoder refuses, or where more than one word would be needed (R112). -/
def decodeTableWord (nbits w : Nat) : Option Instr :=
  if w % 2 ^ nbits < 2 ^ 32 then
    match decodeBytes (bytesOfWord (tableWord nbits w)) with
    | some (.ok i) => some i
    | _ => none
  else none

end Sys2Proof
end

