-- ==== Sys2Proof/Machine/State.lean ====
section
/-! DEFINITION. The state of the block and of the agents around it, as plain data, and the state after reset (10_state.md). -/

namespace Sys2Proof.Machine

open Sys2Proof.Config

/-- CTRL (10_state.md R23). -/
structure Ctrl where
  ieDone : Bool
  ieErr : Bool
  slowWide : Bool
deriving DecidableEq, Repr

/-- STATUS (10_state.md R24 to R30). Its reserved bits read 0 and are not stored. -/
structure Status where
  busy : Bool
  done : Bool
  err : Bool
  ovr : Bool
  errCode : BitVec 4
  lastEngine : BitVec 3
deriving DecidableEq, Repr

/-- TBL_ADDR (10_state.md R41): `sel` false selects LOG, true selects EXP. -/
structure TblAddr where
  idx : BitVec 16
  sel : Bool
deriving DecidableEq, Repr

/-- A table memory (10_state.md R40) as a binary tree over the index bits, the highest bit at the root: it
holds the entries written since reset. An entry not in it is unwritten, its value unspecified (R51). -/
inductive Table where
  | empty
  | leaf (v : Elem)
  | node (zero one : Table)
deriving DecidableEq, Repr

/-- The latched command (10_state.md R46). -/
structure Latched where
  src : Addr
  dst : Addr
  len : Word
  scalar : Elem
  mode : Mode
  eng : Engine
  gran : Gran
  vw : Nat
deriving DecidableEq, Repr

/-- The source and destination ranges of a command: `len` bytes from each address (20_memory.md R75, R83). -/
structure Span where
  src : Addr
  dst : Addr
  len : Word
deriving DecidableEq, Repr

/-- A MULR that has ended while no host has observed it; the model's own (entry 26). -/
structure Ended where
  /-- its ranges -/
  span : Span
  /-- its end raised the interrupt, which has been high ever since (20_memory.md R81) -/
  raised : Bool
deriving DecidableEq, Repr

/-- System memory: (address, byte) pairs, addresses strictly rising, no entry equal to what an unlisted
address reads as (entry 3). -/
abbrev Memory := List Host.Cell

/-- What the memory agent answers an access of the unit with (20_memory.md R73; 93 U15, U25): ok, a bus
error, or nothing at all. -/
inductive BusAnswer where
  | ok
  | error
  | silent
deriving DecidableEq, Repr

/-- A range of memory space and the answers there to reads and to writes of the unit (20_memory.md R70, R79). -/
structure Region where
  base : Nat
  size : Nat
  read : BusAnswer
  write : BusAnswer
deriving DecidableEq, Repr

/-- The width of a register-port access (10_state.md R44). The spec names 32 bits only, every other width being a bus
error; that the others are 8, 16 and 64 bits is a DESIGN CHOICE (entry 27; unsafe for a claim about another width). -/
inductive AccessWidth where
  | w8
  | w16
  | w32
  | w64
deriving DecidableEq, Repr

/-- One action of an agent outside the unit (00_scope.md R17; 30_encoding.md R110). -/
inductive Event where
  /-- a host write on the register port (10_state.md R20, R44) -/
  | portWrite (addr : Addr) (width : AccessWidth) (data : Word)
  /-- a host read on the register port -/
  | portRead (addr : Addr) (width : AccessWidth)
  /-- POLL: 32-bit reads until (value & mask) = value (30_encoding.md R110); between two of them only the unit acts
  (entry 20) -/
  | poll (addr : Addr) (mask value : Word)
  /-- a store of another agent to system memory, byte by byte from `addr` -/
  | memStore (addr : Nat) (bytes : List Byte)
  /-- a load of another agent from system memory -/
  | memLoad (addr : Nat) (count : Nat)
  /-- FENCE (30_encoding.md R110; entry 25) -/
  | fence
  /-- a host takes the interrupt (60_exceptions.md R306, 70_reset_and_hazards.md R345) -/
  | irqTaken
  /-- the unit's turn to move (40_commands.md R146) -/
  | unitTurn
  /-- the reset input is asserted (70_reset_and_hazards.md R340) -/
  | resetAssert
  /-- the reset input is released -/
  | resetRelease
  /-- the memory agent's answers change (20_memory.md R70, R79) -/
  | remap (map : List Region)
deriving DecidableEq, Repr

/-- What the latest host access was answered with; the model's own field (entry 15). -/
inductive Reply where
  | none
  | written
  | data (v : Word)
  | bytes (bs : List Byte)
  | busError
deriving DecidableEq, Repr

/-- Why the machine stops with a fault. No command of the block raises one: an error of a command is a next
state (60_exceptions.md R300). -/
inductive Fault where
  /-- A `memStore` or `memLoad` of a host names an address that does not exist: at or beyond 2^P_AW
  (20_memory.md R70). Raised by the host's memory accesses; safe (entry 16). -/
  | noSuchAddress
deriving DecidableEq, Repr

/-- Why the model has no next state. -/
inductive Refusal where
  /-- An instruction with no meaning yet; no arm of `exec` raises it. Safe. -/
  | notModelled (mnemonic : String)
  /-- A register access while the reset input is asserted: the platform's business (70_reset_and_hazards.md R340,
  93 U12 "refuse in a model"). Raised by the register port; safe (entry 13). -/
  | accessDuringReset
  /-- An access of memory that lands on the block's own register window, on a platform that maps it there
  (20_memory.md R78, "a model should refuse it"). Raised by the unit's chunk step and by host accesses to
  memory; safe (entry 14). -/
  | windowInMemory
deriving DecidableEq, Repr

/-- Everything the spec gives the machine. -/
structure State where
  /-- the parameters (00_scope.md R6), which CAP and POLY show (10_state.md R21, R22) -/
  params : Params
  ctrl : Ctrl
  status : Status
  /-- THRESH (10_state.md R31) -/
  thresh : Word
  /-- SRC (10_state.md R32) -/
  src : Addr
  /-- DST (10_state.md R33) -/
  dst : Addr
  /-- LEN (10_state.md R34) -/
  len : Word
  /-- SCALAR[15:0] (10_state.md R35) -/
  scalar : Elem
  /-- OPND[15:0] (10_state.md R36) -/
  opnd : Elem
  /-- RESULT[15:0] (10_state.md R37) -/
  result : Elem
  /-- FAULT (10_state.md R39) -/
  fault : Addr
  tblAddr : TblAddr
  /-- the table memory LOG (10_state.md R40) -/
  logTbl : Table
  /-- the table memory EXP (10_state.md R40) -/
  expTbl : Table
  latched : Latched
  /-- the derived table DT, a list of sub-tables (10_state.md R47) -/
  dt : List (List Elem)
  /-- the columns of the affine matrix AM (10_state.md R48) -/
  am : List Elem
  /-- the progress counter K (10_state.md R49) -/
  k : Nat
  /-- system memory (20_memory.md R70) -/
  mem : Memory
  /-- the memory agent's answers; an address in no region answers ok (entry 4) -/
  busMap : List Region
  /-- the reset input is asserted (70_reset_and_hazards.md R340) -/
  inReset : Bool
  /-- the agents' actions still to come, the next one first (entry 8) -/
  inputs : List Event
  /-- the model's own: the answer to the latest host access (entry 15) -/
  reply : Reply
  /-- the model's own: another agent has raced with the running command (20_memory.md R83; entry 10) -/
  raced : Bool
  /-- the model's own: the MULR commands that have ended and whose end no host has observed yet
  (70_reset_and_hazards.md R346; entry 26) -/
  unobserved : List Ended
  /-- the model's own: how many free values have been drawn (entry 7) -/
  draws : Nat
deriving DecidableEq, Repr

/-- A step's outcome. -/
abbrev Result := Host.Outcome State Fault Refusal

/-- The block with every register at the reset value of 10_state.md R51, the tables unwritten, and nothing
around it. The hidden state's values are unspecified and unread (R51): those here are the model's (entry 5). -/
def blockReset (p : Params) : State :=
  { params := p
    ctrl := { ieDone := false, ieErr := false, slowWide := p.slowWide }
    status := { busy := false, done := false, err := false, ovr := false, errCode := 0, lastEngine := 0 }
    thresh := p.slowShufThreshold
    src := 0, dst := 0, len := 0, scalar := 0, opnd := 0, result := 0, fault := 0
    tblAddr := { idx := 0, sel := false }
    logTbl := .empty, expTbl := .empty
    latched := { src := 0, dst := 0, len := 0, scalar := 0, mode := .assign, eng := .log, gran := .nibble, vw := 2 }
    dt := [], am := [], k := 0
    mem := [], busMap := [], inReset := false, inputs := [], reply := .none, raced := false, unobserved := []
    draws := 0 }

/-- The machine right after reset, built with the default parameters (10_state.md R51; entries 1 to 8). -/
def State.reset : State := blockReset Params.default

end Sys2Proof.Machine
end

