-- ==== Sys2Proof/Machine/Field.lean ====
section
/-! DEFINITION. Field arithmetic (00_scope.md R9 to R16). -/

namespace Sys2Proof.Machine

open Sys2Proof.Config

/-- The carry-less product of two 16-bit values (00_scope.md R11). -/
def clmul16 (a b : Elem) : BitVec 32 :=
  (List.range 16).foldl (fun p j => if b.getLsbD j then p ^^^ (a.setWidth 32 <<< j) else p) 0

/-- One step of the reduction: clears bit i of p by the polynomial (00_scope.md R12). -/
def reduceBit (poly : BitVec 17) (p : BitVec 32) (i : Nat) : BitVec 32 :=
  if p.getLsbD i then p ^^^ (poly.setWidth 32 <<< (i - 16)) else p

/-- Reduction modulo the defining polynomial, bits 31 down to 16 (00_scope.md R12). -/
def polyred (poly : BitVec 17) (p : BitVec 32) : Elem :=
  ((List.range 16).foldl (fun q t => reduceBit poly q (31 - t)) p).setWidth 16

/-- The field product (00_scope.md R13). -/
def gfmul (poly : BitVec 17) (a b : Elem) : Elem := polyred poly (clmul16 a b)

/-- The product by x (00_scope.md R14). -/
def xtime (poly : BitVec 17) (v : Elem) : Elem :=
  ((v.setWidth 17 <<< 1) ^^^ (if v.getLsbD 15 then poly else 0)).setWidth 16

/-- The i-th power of g under the field product, the 0-th being 1 (00_scope.md R16). -/
def gfpow (poly : BitVec 17) (g : Elem) : Nat → Elem
  | 0 => 1
  | n + 1 => gfmul poly (gfpow poly g n) g

/-- Entry `i` of a table tree of depth `n`, read along the bits n-1 down to 0 of the index (10_state.md R40). -/
def Table.lookup : Nat → Table → BitVec 16 → Option Elem
  | 0, .leaf v, _ => some v
  | n + 1, .node z o, i => if i.getLsbD n then Table.lookup n o i else Table.lookup n z i
  | _, _, _ => none

/-- The two halves of a table tree; a tree that is no node holds nothing below. -/
def Table.halves : Table → Table × Table
  | .node z o => (z, o)
  | _ => (.empty, .empty)

/-- Writing entry `i` of a table tree of depth `n` (10_state.md R42). -/
def Table.insert : Nat → Table → BitVec 16 → Elem → Table
  | 0, _, _, v => .leaf v
  | n + 1, t, i, v =>
    if i.getLsbD n then .node t.halves.1 (Table.insert n t.halves.2 i v)
    else .node (Table.insert n t.halves.1 i v) t.halves.2

/-- An entry of a table memory, none while no write has set it since reset (10_state.md R40, R42). -/
def Table.read (t : Table) (i : BitVec 16) : Option Elem := t.lookup 16 i

/-- Setting an entry of a table memory (10_state.md R42). -/
def Table.write (t : Table) (i : BitVec 16) (v : Elem) : Table := t.insert 16 i v

/-- The index of the antilog table: the sum of two logarithms modulo 65535, formed exactly (00_scope.md R15,
41_log_table_unit.md R174). -/
def logIndex (lx la : Elem) : BitVec 16 := BitVec.ofNat 16 ((lx.toNat + la.toNat) % 65535)

/-- The table product (00_scope.md R15). A product that reads an unwritten entry is a free value, drawn afresh
(41_log_table_unit.md R176; entry 6); `d` counts the free values drawn. -/
def logmul (logT expT : Table) (x a : Elem) (d : Nat) : Elem × Nat :=
  if x = 0 ∨ a = 0 then (0, d)
  else
    match logT.read x, logT.read a with
    | some lx, some la =>
      match expT.read (logIndex lx la) with
      | some v => (v, d)
      | none => (freeElem d, d + 1)
    | _, _ => (freeElem d, d + 1)

/-- The tables hold the powers of one element g and their logarithms (00_scope.md R16). The block never checks it. -/
def TablesConsistent (poly : BitVec 17) (logT expT : Table) : Prop :=
  ∃ g : Elem,
    (∀ i < 65535, expT.read (BitVec.ofNat 16 i) = some (gfpow poly g i)) ∧
    (∀ i < 65535, ∀ j < 65535, gfpow poly g i = gfpow poly g j → i = j) ∧
    (∀ i < 65535, logT.read (gfpow poly g i) = some (BitVec.ofNat 16 i))

end Sys2Proof.Machine
end

