-- ==== Sys2Proof/Machine/Flags.lean ====
section
/-! DEFINITION. The status and control words, the interrupt line and the capability word (10_state.md R21 to R30, R45). -/

namespace Sys2Proof.Machine

open Sys2Proof.Config

/-- One bit of a register word. -/
def bitAt (b : Bool) (i : Nat) : Word := (BitVec.ofBool b).setWidth 32 <<< i

/-- STATUS as a word (10_state.md R24). -/
def Status.word (s : Status) : Word :=
  bitAt s.busy 0 ||| bitAt s.done 1 ||| bitAt s.err 2 ||| bitAt s.ovr 3 |||
    (s.errCode.setWidth 32 <<< 8) ||| (s.lastEngine.setWidth 32 <<< 12)

/-- A write of w to STATUS: each of DONE, ERR and OVR that w has at 1 is cleared, nothing else changes
(10_state.md R24). -/
def Status.w1c (s : Status) (w : Word) : Status :=
  { s with
    done := s.done && !w.getLsbD 1
    err := s.err && !w.getLsbD 2
    ovr := s.ovr && !w.getLsbD 3 }

/-- CTRL as a word (10_state.md R23). -/
def Ctrl.word (c : Ctrl) : Word := bitAt c.ieDone 0 ||| bitAt c.ieErr 1 ||| bitAt c.slowWide 2

/-- CTRL after a write of w (10_state.md R23). -/
def Ctrl.ofWord (w : Word) : Ctrl :=
  { ieDone := w.getLsbD 0, ieErr := w.getLsbD 1, slowWide := w.getLsbD 2 }

/-- TBL_ADDR as a word (10_state.md R41). -/
def TblAddr.word (t : TblAddr) : Word := t.idx.setWidth 32 ||| bitAt t.sel 16

/-- TBL_ADDR after a write of w (10_state.md R41). -/
def TblAddr.ofWord (w : Word) : TblAddr := { idx := w.setWidth 16, sel := w.getLsbD 16 }

/-- TBL_ADDR with IDX advanced by one, wrapping at 65536, SEL kept (10_state.md R42). -/
def TblAddr.advance (t : TblAddr) : TblAddr := { t with idx := t.idx + 1 }

/-- The interrupt output, a function of STATUS and CTRL at every instant (10_state.md R45, 60_exceptions.md R306). -/
def State.irq (s : State) : Bool := (s.status.done && s.ctrl.ieDone) || (s.status.err && s.ctrl.ieErr)

/-- The interrupt as the platform routes it to a processor, while IRQ is high (60_exceptions.md R306, P_IRQ_ROUTE). -/
def State.irqRequest (s : State) : Option IrqRoute := if s.irq then some s.params.irqRoute else none

/-- Whether an engine is present: its CAP bit (10_state.md R21). -/
def present (p : Params) : Engine → Bool
  | .log => true
  | .shufN => p.hasShufN
  | .shufW => p.hasShufW
  | .clmul => p.hasClmul
  | .affine => p.hasAffine

/-- CAP as a word (10_state.md R21). -/
def capWord (p : Params) : Word :=
  bitAt (present p .log) 0 ||| bitAt (present p .shufN) 1 ||| bitAt (present p .shufW) 2 |||
    bitAt (present p .clmul) 3 ||| bitAt (present p .affine) 4

/-- POLY as a word (10_state.md R22). -/
def polyWord (p : Params) : Word := p.poly.setWidth 32

end Sys2Proof.Machine
end

