-- ==== Sys2Proof/Machine/Ops.lean ====
section
/-! DEFINITION. The named operations over memory and registers, how a command ends, and how an error is taken and acknowledged. -/

namespace Sys2Proof.Machine

open Sys2Proof.Config

/-! ## Memory (20_memory.md R72, R73) -/

/-- What an address with no entry reads as: the spec gives none, 0 is a DESIGN CHOICE (entry 3; unsafe). -/
def unlistedByte : Byte := 0

/-- Reading one byte. -/
def readByte : Memory → Nat → Byte
  | [], _ => unlistedByte
  | (k, v) :: t, a => if k = a then v else readByte t a

/-- Writing one byte, keeping the canonical form. -/
def writeByte : Memory → Nat → Byte → Memory
  | [], a, b => if b = unlistedByte then [] else [(a, b)]
  | (k, v) :: t, a, b =>
    if a < k then (if b = unlistedByte then (k, v) :: t else (a, b) :: (k, v) :: t)
    else if a = k then (if b = unlistedByte then t else (a, b) :: t)
    else (k, v) :: writeByte t a b

/-- Every address listed is above `a`. -/
def addressesAbove (a : Nat) (m : Memory) : Bool := m.all fun c => a < c.1

/-- The canonical form: addresses strictly rising, no entry equal to what an unlisted address reads as. -/
def Memory.wf : Memory → Bool
  | [] => true
  | (k, v) :: t => v != unlistedByte && addressesAbove k t && Memory.wf t

/-- Reading `n` bytes from an address upward. -/
def readBytes (m : Memory) (a : Nat) : Nat → List Byte
  | 0 => []
  | n + 1 => readByte m a :: readBytes m (a + 1) n

/-- Writing bytes from an address upward. -/
def writeBytes (m : Memory) (a : Nat) : List Byte → Memory
  | [] => m
  | b :: bs => writeBytes (writeByte m a b) (a + 1) bs

/-- The little-endian 16-bit value at an address (20_memory.md R72; "mem16" of 40_commands.md R137). -/
def readElem (m : Memory) (a : Nat) : Elem := readByte m (a + 1) ++ readByte m a

/-- The two bytes of an element, the lower address first (20_memory.md R72). -/
def elemBytes (v : Elem) : List Byte := [v.extractLsb' 0 8, v.extractLsb' 8 8]

/-- Storing an element little-endian (20_memory.md R72, R73). -/
def writeElem (m : Memory) (a : Nat) (v : Elem) : Memory := writeBytes m a (elemBytes v)

/-- Storing elements one after the other from an address upward. -/
def writeElems (m : Memory) (a : Nat) : List Elem → Memory
  | [] => m
  | v :: vs => writeElems (writeElem m a v) (a + 2) vs

/-! ## Free values -/

/-- `n` bytes from an address upward each take any value, drawn afresh (20_memory.md R83, 70_reset_and_hazards.md R341). -/
def drawBytes (m : Memory) (a : Nat) : Nat → Nat → Memory × Nat
  | 0, d => (m, d)
  | n + 1, d => drawBytes (writeByte m a (freeByte d)) (a + 1) n (d + 1)

/-- Each of the given bytes from an address upward is stored or not, each a choice of its own (60_exceptions.md R304). -/
def tearBytes (m : Memory) (a : Nat) : List Byte → Nat → Memory × Nat
  | [], d => (m, d)
  | b :: bs, d => tearBytes (if freeBit d then writeByte m a b else m) (a + 1) bs (d + 1)

/-- Maps a function that may draw free values over a list, in order. -/
def mapDraw {α β : Type} (f : α → Nat → β × Nat) : List α → Nat → List β × Nat
  | [], d => ([], d)
  | x :: xs, d => ((f x d).1 :: (mapDraw f xs (f x d).2).1, (mapDraw f xs (f x d).2).2)

/-! ## Addresses -/

/-- An address register holds P_AW bits; higher bits read 0 and ignore writes (10_state.md R32, R33, R39). -/
def maskAddr (p : Params) (a : Addr) : Addr := a &&& BitVec.ofNat 64 (2 ^ p.aw - 1)

/-- A register write to the low half of an address (10_state.md R32). -/
def setLo (p : Params) (a : Addr) (w : Word) : Addr := maskAddr p (a.extractLsb' 32 32 ++ w)

/-- A register write to the high half of an address (10_state.md R32). -/
def setHi (p : Params) (a : Addr) (w : Word) : Addr := maskAddr p (w ++ a.extractLsb' 0 32)

/-- Bits 31:0 of an address register. -/
def loHalf (a : Addr) : Word := a.extractLsb' 0 32

/-- Bits 63:32 of an address register. -/
def hiHalf (a : Addr) : Word := a.extractLsb' 32 32

/-! ## Table memories (10_state.md R42) -/

/-- The table memory that TBL_ADDR selects. -/
def State.selectedTable (s : State) : Table := if s.tblAddr.sel then s.expTbl else s.logTbl

/-- An accepted write of TBL_DATA: the entry takes w[15:0] and IDX advances (10_state.md R42). -/
def tblDataStore (w : Word) (s : State) : State :=
  if s.tblAddr.sel then
    { s with expTbl := s.expTbl.write s.tblAddr.idx (w.setWidth 16), tblAddr := s.tblAddr.advance }
  else
    { s with logTbl := s.logTbl.write s.tblAddr.idx (w.setWidth 16), tblAddr := s.tblAddr.advance }

/-- A read of TBL_DATA: the entry, zero-extended, and IDX advances (10_state.md R42). An entry not written
since reset gives a free value (R340; entry 6). -/
def tblDataLoad (s : State) : Word × State :=
  match s.selectedTable.read s.tblAddr.idx with
  | some v => (v.setWidth 32, { s with tblAddr := s.tblAddr.advance })
  | none => ((freeElem s.draws).setWidth 32, { s with tblAddr := s.tblAddr.advance, draws := s.draws + 1 })

/-! ## Ranges (20_memory.md R71, R83, R85) -/

/-- Byte address a lies in the n bytes from b. -/
def inRange (b n a : Nat) : Bool := b ≤ a && a < b + n

/-- The ranges of m bytes from a and of n bytes from b share a byte. -/
def rangesMeet (a m b n : Nat) : Bool := 0 < m && 0 < n && a < b + n && b < a + m

/-- The ranges of a latched command (20_memory.md R75). -/
def latchedSpan (l : Latched) : Span := { src := l.src, dst := l.dst, len := l.len }

/-- Every destination byte of a command takes any value (20_memory.md R83). -/
def drawSpan (p : Span) (s : State) : State :=
  { s with
    mem := (drawBytes s.mem p.dst.toNat p.len.toNat s.draws).1
    draws := (drawBytes s.mem p.dst.toNat p.len.toNat s.draws).2 }

/-- Every destination byte of each of the given commands takes any value (20_memory.md R83). -/
def drawSpans : List Span → State → State
  | [], s => s
  | p :: ps, s => drawSpans ps (drawSpan p s)

/-- Every destination byte of the latched command takes any value (20_memory.md R83). -/
def drawDst (s : State) : State := drawSpan (latchedSpan s.latched) s

/-- The end of a command: if another agent raced with it, its destination bytes take any value
(20_memory.md R83; entry 10). -/
def settleRace (s : State) : State :=
  if s.raced then { drawDst s with raced := false } else s

/-! ## How a command ends (40_commands.md R130, R144; 60_exceptions.md R301, R302) -/

/-- The error codes (60_exceptions.md R301). -/
inductive ErrCode where
  | badOp
  | badMode
  | badEngine
  | engineAbsent
  | oddLen
  | range
  | overlap
  | bus
deriving DecidableEq, Repr

/-- The value of an error code in STATUS.ERR_CODE (60_exceptions.md R301). -/
def ErrCode.code : ErrCode → BitVec 4
  | .badOp => 1
  | .badMode => 2
  | .badEngine => 3
  | .engineAbsent => 4
  | .oddLen => 5
  | .range => 6
  | .overlap => 7
  | .bus => 8

/-- The error of a word that is no command (30_encoding.md R109). -/
def ErrCode.ofDecode : DecodeError → ErrCode
  | .badOp => .badOp
  | .badMode => .badMode
  | .badEngine => .badEngine

/-- A command ends without error: DONE is set and ERR_CODE is 0 (40_commands.md R130). -/
def endOk (s : State) : State := { s with status := { s.status with done := true, errCode := 0 } }

/-- TAKING AN ERROR (`raise Error(c)`, 60_exceptions.md R302): the unit becomes idle, ERR and ERR_CODE are set;
DONE, RESULT, FAULT, memory and the tables are not written. -/
def raiseError (c : ErrCode) (s : State) : State :=
  { s with status := { s.status with busy := false, err := true, errCode := c.code } }

/-- RETURN FROM AN ERROR (60_exceptions.md R308): there is no return instruction; the host acknowledges by a
write to STATUS, which clears the W1C bits it names (10_state.md R24). -/
def acknowledge (w : Word) (s : State) : State := { s with status := s.status.w1c w }

/-- A host write is dropped because BUSY = 1 (10_state.md R28, R52). -/
def dropWrite (s : State) : State := { s with status := { s.status with ovr := true } }

/-- LAST_ENGINE at the engine-resolution point (10_state.md R30, 40_commands.md R133). -/
def setLastEngine (e : Engine) (s : State) : State :=
  { s with status := { s.status with lastEngine := e.code } }

/-- The ranges of the commands that have ended unobserved (70_reset_and_hazards.md R346; entry 26). -/
def endedSpans (s : State) : List Span := s.unobserved.map (·.span)

/-- A MULR has ended, and no host has observed its end yet; `raised` says whether the end raised the interrupt
(70_reset_and_hazards.md R346, 20_memory.md R81; entry 26). -/
def leaveUnobserved (raised : Bool) (s : State) : State :=
  { s with unobserved := { span := latchedSpan s.latched, raised := raised } :: s.unobserved }

/-- A host that reads BUSY = 0 observes the end of all that has ended (70_reset_and_hazards.md R345, R349; entry 26). -/
def observeIdle (s : State) : State := { s with unobserved := if s.status.busy then s.unobserved else [] }

/-- A host that takes the interrupt observes, with IE_DONE = IE_ERR = 1, the end of all that has ended
(70_reset_and_hazards.md R345), and else the ends that raised it (20_memory.md R81), whatever BUSY is (entry 26). -/
def observeIrq (s : State) : State :=
  { s with unobserved := if s.ctrl.ieDone && s.ctrl.ieErr then [] else s.unobserved.filter (! ·.raised) }

/-- An interrupt that falls is no longer one that an end raised (10_state.md R45; entry 26). -/
def noteIrq (s : State) : State :=
  { s with unobserved := s.unobserved.map fun p => { p with raised := p.raised && s.irq } }

/-- A MULR ends by completing (40_commands.md R144). The hidden state stays as it is, which the spec leaves open
(10_state.md R49, 93 U10; DESIGN CHOICE, entry 24). -/
def completeCommand (s : State) : State :=
  leaveUnobserved (s.ctrl.ieDone && !s.irq)
    { s with status := { s.status with busy := false, done := true, errCode := 0 } }

/-- A MULR ends by a bus error: FAULT takes the faulting address, then error BUS (60_exceptions.md R304). The hidden
state stays as it is, which the spec leaves open (10_state.md R49, 93 U10; DESIGN CHOICE, entry 24). -/
def busFault (addr : Nat) (s : State) : State :=
  leaveUnobserved (s.ctrl.ieErr && !s.irq)
    (raiseError .bus { s with fault := maskAddr s.params (BitVec.ofNat 64 addr) })

/-- The answer to a host access (entry 15). -/
def withReply (r : Reply) (s : State) : State := { s with reply := r }

/-- The events left to come (entry 8). -/
def withInputs (es : List Event) (s : State) : State := { s with inputs := es }

end Sys2Proof.Machine
end

