-- ==== Sys2Proof/Machine/Engines.lean ====
section
/-! DEFINITION. The engines' derived state and element functions (41 to 44) and the element product (40_commands.md R138). -/

namespace Sys2Proof.Machine

open Sys2Proof.Config

/-- The element function of the log-table unit (41_log_table_unit.md R171); `d` counts the free values drawn. -/
def fLog (s : State) (x a : Elem) (d : Nat) : Elem × Nat := logmul s.logTbl s.expTbl x a d

/-- One sub-table of DT: the table products of n shifted left by `shift`, for n below `count`
(42_table_shuffle.md R191, R192). -/
def subTable (s : State) (a : Elem) (count shift : Nat) (d : Nat) : List Elem × Nat :=
  mapDraw (fun n d => fLog s (BitVec.ofNat 16 (n <<< shift)) a d) (List.range count) d

/-- The shape of DT: how many sub-tables, entries in each, and bits each one covers (42_table_shuffle.md R190). -/
def dtShape : Gran → Nat × Nat × Nat
  | .nibble => (4, 16, 4)
  | .byte => (2, 256, 8)

/-- The derived table for a scalar (42_table_shuffle.md R191 for nibbles, R192 for bytes). -/
def buildDT (s : State) (g : Gran) (a : Elem) (d : Nat) : List (List Elem) × Nat :=
  mapDraw (fun k d => subTable s a (dtShape g).2.1 ((dtShape g).2.2 * k) d) (List.range (dtShape g).1) d

/-- Entry n of sub-table k of DT. Every entry the shuffle function reads exists once DT is built. -/
def dtEntry (dt : List (List Elem)) (k n : Nat) : Elem := (dt.getD k []).getD n 0

/-- The shuffle element function (42_table_shuffle.md R193). -/
def fShuf (g : Gran) (dt : List (List Elem)) (x : Elem) : Elem :=
  match g with
  | .nibble =>
    dtEntry dt 0 (x.extractLsb' 0 4).toNat ^^^ dtEntry dt 1 (x.extractLsb' 4 4).toNat ^^^
      dtEntry dt 2 (x.extractLsb' 8 4).toNat ^^^ dtEntry dt 3 (x.extractLsb' 12 4).toNat
  | .byte => dtEntry dt 0 (x.extractLsb' 0 8).toNat ^^^ dtEntry dt 1 (x.extractLsb' 8 8).toNat

/-- `n` columns, each the previous one times x, the first being a (43_affine.md R221). -/
def affineColumns (poly : BitVec 17) : Nat → Elem → List Elem
  | 0, _ => []
  | n + 1, a => a :: affineColumns poly n (xtime poly a)

/-- The affine matrix of a scalar, as its 16 columns (43_affine.md R221). -/
def buildAM (poly : BitVec 17) (a : Elem) : List Elem := affineColumns poly 16 a

/-- Bit AM[r][j] of the matrix: output bit r, input bit j (43_affine.md R221). -/
def amBit (am : List Elem) (r j : Nat) : Bool := (am.getD j 0).getLsbD r

/-- The affine element function (43_affine.md R222). -/
def fAff (am : List Elem) (x : Elem) : Elem :=
  (List.range 16).foldl (fun r j => if x.getLsbD j then r ^^^ am.getD j 0 else r) 0

/-- The element function of the carry-less multiplier (44_clmul.md R241). -/
def fClmul (poly : BitVec 17) (x a : Elem) : Elem := polyred poly (clmul16 x a)

/-- The scalars 0 and 1 short-circuit in every engine (40_commands.md R140). -/
def shortCircuit (a : Elem) : Bool := a == 0 || a == 1

/-- The element product (40_commands.md R138): `part` says the element lies in a partial chunk. -/
def prod (s : State) (e : Engine) (x a : Elem) (part : Bool) (d : Nat) : Elem × Nat :=
  if a = 0 then (0, d)
  else if a = 1 then (x, d)
  else
    match e with
    | .log => fLog s x a d
    | .shufN => if part then fLog s x a d else (fShuf s.latched.gran s.dt x, d)
    | .shufW => if part then fLog s x a d else (fShuf s.latched.gran s.dt x, d)
    | .affine => (fAff s.am x, d)
    | .clmul => (fClmul s.params.poly x a, d)

/-- Filling DT from the tables as they stand (10_state.md R47). -/
def fillDT (g : Gran) (a : Elem) (s : State) : State :=
  { s with dt := (buildDT s g a s.draws).1, draws := (buildDT s g a s.draws).2 }

/-- Filling AM (10_state.md R48). -/
def fillAM (a : Elem) (s : State) : State := { s with am := buildAM s.params.poly a }

/-- The derived state of a command (40_commands.md R143). What a command does not fill stays as it is, which the spec
leaves open (10_state.md R47, R48, 93 U10; DESIGN CHOICE, entry 24). -/
def buildDerived (e : Engine) (g : Gran) (a : Elem) (s : State) : State :=
  if shortCircuit a then s
  else
    match e with
    | .shufN => fillDT g a s
    | .shufW => fillDT g a s
    | .affine => fillAM a s
    | .log => s
    | .clmul => s

end Sys2Proof.Machine
end

