-- ==== Sys2Proof/Machine/Dispatcher.lean ====
section
/-! DEFINITION. The dispatcher and engine resolution (40_commands.md R131 to R133), and chunk widths (R142). -/

namespace Sys2Proof.Machine

open Sys2Proof.Config

/-- The selection policy (40_commands.md R131): the steps in strict priority order, the comparison with THRESH
unsigned and strict. -/
def select (s : State) (len : Word) : Engine :=
  if s.params.hasAffine then .affine
  else if s.params.hasShufW && s.thresh.ult len && !s.ctrl.slowWide then .shufW
  else if s.params.hasShufN && s.thresh.ult len then .shufN
  else if s.params.hasClmul then .clmul
  else .log

/-- Engine resolution (40_commands.md R133): none where the named engine is absent. The write of LAST_ENGINE is
`setLastEngine`, done by the command. -/
def resolve (s : State) (sel : EngSel) (len : Word) : Option Engine :=
  match sel with
  | .auto => some (select s len)
  | .named e => if present s.params e then some e else none

/-- The chunk width of an engine, in bytes (40_commands.md R142). -/
def chunkWidth (p : Params) : Engine → Nat
  | .log => 2
  | .shufN => p.vwShufN
  | .shufW => p.vwShufW
  | .affine => p.vwAffine
  | .clmul => p.vwClmul

end Sys2Proof.Machine
end

