-- ==== Sys2Proof/Machine/Operands.lean ====
section
/-! DEFINITION. The operands of MULR and MULE: the checks on them and the latched copies (40_commands.md R136, 10_state.md R46). -/

namespace Sys2Proof.Machine

open Sys2Proof.Config

/-- An odd region length (60_exceptions.md R301, ODD_LEN). -/
def oddLength (s : State) : Bool := s.len.getLsbD 0

/-- A region runs past the top of the address space; the sums are exact (20_memory.md R71). -/
def outOfRange (s : State) : Bool :=
  0 < s.len.toNat &&
    (2 ^ s.params.aw < s.src.toNat + s.len.toNat || 2 ^ s.params.aw < s.dst.toNat + s.len.toNat)

/-- The two regions differ and share a byte (20_memory.md R85). -/
def partialOverlap (s : State) : Bool :=
  s.src != s.dst && rangesMeet s.src.toNat s.len.toNat s.dst.toNat s.len.toNat

/-- The first acceptance check that fails after engine resolution, in the order of 60_exceptions.md R303. -/
def operandError (s : State) : Option ErrCode :=
  if oddLength s then some .oddLen
  else if outOfRange s then some .range
  else if partialOverlap s then some .overlap
  else none

/-- Latching the operands of an accepted command (10_state.md R46). -/
def latch (mode : Mode) (e : Engine) (g : Gran) (s : State) : State :=
  { s with
    latched :=
      { src := s.src, dst := s.dst, len := s.len, scalar := s.scalar, mode := mode, eng := e, gran := g,
        vw := chunkWidth s.params e } }

end Sys2Proof.Machine
end

