-- ==== Sys2Proof/Machine/Control.lean ====
section
/-! DEFINITION. The meanings of NOP and SEL (40_commands.md R134, R135). -/

namespace Sys2Proof.Machine

/-- NOP (40_commands.md R134). -/
def execNop (s : State) : Result := .next (endOk s)

/-- SEL (40_commands.md R135): the dispatcher's choice for LEN goes to LAST_ENGINE; LEN's parity is not checked. -/
def execSel (s : State) : Result := .next (endOk (setLastEngine (select s s.len) s))

end Sys2Proof.Machine
end

