-- ==== Sys2Proof/Machine/Mule.lean ====
section
/-! DEFINITION. The meanings of the MULE commands: the single-element multiply (40_commands.md R141). -/

namespace Sys2Proof.Machine

/-- The value MULE writes to RESULT from the product p (40_commands.md R141). -/
def muleResult (mode : Mode) (old p : Elem) : Elem :=
  match mode with
  | .assign => p
  | .accumulate => old ^^^ p

/-- Running one element through an engine whose derived state is built, on the full-chunk path (40_commands.md R141). -/
def muleRun (mode : Mode) (e : Engine) (s : State) : State :=
  { s with
    result := muleResult mode s.result (prod s e s.opnd s.scalar false s.draws).1
    draws := (prod s e s.opnd s.scalar false s.draws).2 }

/-- MULE (40_commands.md R141): AUTO resolves as for a 2-byte region; the operands are latched (10_state.md R46;
entry 17). -/
def mule (mode : Mode) (sel : EngSel) (g : Gran) (s : State) : Result :=
  match resolve s sel 2 with
  | none => .next (raiseError .engineAbsent s)
  | some e => .next (endOk (muleRun mode e (buildDerived e g s.scalar (latch mode e g (setLastEngine e s)))))

/-- MULE.ASG.AUTO (40_commands.md R141). -/
def execMuleAsgAuto (g : Gran) (s : State) : Result := mule .assign .auto g s

/-- MULE.ASG.LOG (41_log_table_unit.md R173). -/
def execMuleAsgLog (g : Gran) (s : State) : Result := mule .assign (.named .log) g s

/-- MULE.ASG.SHUFN (42_table_shuffle.md R197). -/
def execMuleAsgShufn (g : Gran) (s : State) : Result := mule .assign (.named .shufN) g s

/-- MULE.ASG.SHUFW (42_table_shuffle.md R197). -/
def execMuleAsgShufw (g : Gran) (s : State) : Result := mule .assign (.named .shufW) g s

/-- MULE.ASG.CLMUL (44_clmul.md R244). -/
def execMuleAsgClmul (g : Gran) (s : State) : Result := mule .assign (.named .clmul) g s

/-- MULE.ASG.AFFINE (43_affine.md R225). -/
def execMuleAsgAffine (g : Gran) (s : State) : Result := mule .assign (.named .affine) g s

/-- MULE.ACC.AUTO (40_commands.md R141). -/
def execMuleAccAuto (g : Gran) (s : State) : Result := mule .accumulate .auto g s

/-- MULE.ACC.LOG (41_log_table_unit.md R173). -/
def execMuleAccLog (g : Gran) (s : State) : Result := mule .accumulate (.named .log) g s

/-- MULE.ACC.SHUFN (42_table_shuffle.md R197). -/
def execMuleAccShufn (g : Gran) (s : State) : Result := mule .accumulate (.named .shufN) g s

/-- MULE.ACC.SHUFW (42_table_shuffle.md R197). -/
def execMuleAccShufw (g : Gran) (s : State) : Result := mule .accumulate (.named .shufW) g s

/-- MULE.ACC.CLMUL (44_clmul.md R244). -/
def execMuleAccClmul (g : Gran) (s : State) : Result := mule .accumulate (.named .clmul) g s

/-- MULE.ACC.AFFINE (43_affine.md R225). -/
def execMuleAccAffine (g : Gran) (s : State) : Result := mule .accumulate (.named .affine) g s

end Sys2Proof.Machine
end

