-- ==== Sys2Proof/Machine/Mulr.lean ====
section
/-! DEFINITION. The meanings of the MULR commands: acceptance of a region multiply (40_commands.md R136). -/

namespace Sys2Proof.Machine

/-- A MULR whose checks pass: the operands are latched, the derived state is built, K starts at 0 and the unit
becomes busy (40_commands.md R136). DONE and ERR are not touched. -/
def accept (mode : Mode) (e : Engine) (g : Gran) (s : State) : State :=
  let s1 := buildDerived e g s.scalar (latch mode e g s)
  { s1 with k := 0, raced := false, status := { s1.status with busy := true } }

/-- MULR acceptance (40_commands.md R136): engine resolution, the operand checks in order, then acceptance. -/
def mulrAccept (mode : Mode) (sel : EngSel) (g : Gran) (s : State) : Result :=
  match resolve s sel s.len with
  | none => .next (raiseError .engineAbsent s)
  | some e =>
    match operandError s with
    | some c => .next (raiseError c (setLastEngine e s))
    | none => .next (accept mode e g (setLastEngine e s))

/-- MULR.ASG.AUTO (40_commands.md R136). -/
def execMulrAsgAuto (g : Gran) (s : State) : Result := mulrAccept .assign .auto g s

/-- MULR.ASG.LOG (41_log_table_unit.md R172). -/
def execMulrAsgLog (g : Gran) (s : State) : Result := mulrAccept .assign (.named .log) g s

/-- MULR.ASG.SHUFN (42_table_shuffle.md R195). -/
def execMulrAsgShufn (g : Gran) (s : State) : Result := mulrAccept .assign (.named .shufN) g s

/-- MULR.ASG.SHUFW (42_table_shuffle.md R196). -/
def execMulrAsgShufw (g : Gran) (s : State) : Result := mulrAccept .assign (.named .shufW) g s

/-- MULR.ASG.CLMUL (44_clmul.md R243). -/
def execMulrAsgClmul (g : Gran) (s : State) : Result := mulrAccept .assign (.named .clmul) g s

/-- MULR.ASG.AFFINE (43_affine.md R224). -/
def execMulrAsgAffine (g : Gran) (s : State) : Result := mulrAccept .assign (.named .affine) g s

/-- MULR.ACC.AUTO (40_commands.md R136). -/
def execMulrAccAuto (g : Gran) (s : State) : Result := mulrAccept .accumulate .auto g s

/-- MULR.ACC.LOG (41_log_table_unit.md R172). -/
def execMulrAccLog (g : Gran) (s : State) : Result := mulrAccept .accumulate (.named .log) g s

/-- MULR.ACC.SHUFN (42_table_shuffle.md R195). -/
def execMulrAccShufn (g : Gran) (s : State) : Result := mulrAccept .accumulate (.named .shufN) g s

/-- MULR.ACC.SHUFW (42_table_shuffle.md R196). -/
def execMulrAccShufw (g : Gran) (s : State) : Result := mulrAccept .accumulate (.named .shufW) g s

/-- MULR.ACC.CLMUL (44_clmul.md R243). -/
def execMulrAccClmul (g : Gran) (s : State) : Result := mulrAccept .accumulate (.named .clmul) g s

/-- MULR.ACC.AFFINE (43_affine.md R224). -/
def execMulrAccAffine (g : Gran) (s : State) : Result := mulrAccept .accumulate (.named .affine) g s

end Sys2Proof.Machine
end

