-- ==== Sys2Proof/Machine/Dispatch.lean ====
section
/-! DEFINITION. Which meaning each command has: one arm per constructor of Instr. -/

namespace Sys2Proof.Machine

/-- A decoded command at a CMD write that finds the unit idle (40_commands.md R130). -/
def exec (i : Instr) (s : State) : Host.Outcome State Fault Refusal :=
  match i with
  | .nop => Sys2Proof.Machine.execNop s
  | .sel => Sys2Proof.Machine.execSel s
  | .mulrAsgAuto g => Sys2Proof.Machine.execMulrAsgAuto g s
  | .mulrAsgLog g => Sys2Proof.Machine.execMulrAsgLog g s
  | .mulrAsgShufn g => Sys2Proof.Machine.execMulrAsgShufn g s
  | .mulrAsgShufw g => Sys2Proof.Machine.execMulrAsgShufw g s
  | .mulrAsgClmul g => Sys2Proof.Machine.execMulrAsgClmul g s
  | .mulrAsgAffine g => Sys2Proof.Machine.execMulrAsgAffine g s
  | .mulrAccAuto g => Sys2Proof.Machine.execMulrAccAuto g s
  | .mulrAccLog g => Sys2Proof.Machine.execMulrAccLog g s
  | .mulrAccShufn g => Sys2Proof.Machine.execMulrAccShufn g s
  | .mulrAccShufw g => Sys2Proof.Machine.execMulrAccShufw g s
  | .mulrAccClmul g => Sys2Proof.Machine.execMulrAccClmul g s
  | .mulrAccAffine g => Sys2Proof.Machine.execMulrAccAffine g s
  | .muleAsgAuto g => Sys2Proof.Machine.execMuleAsgAuto g s
  | .muleAsgLog g => Sys2Proof.Machine.execMuleAsgLog g s
  | .muleAsgShufn g => Sys2Proof.Machine.execMuleAsgShufn g s
  | .muleAsgShufw g => Sys2Proof.Machine.execMuleAsgShufw g s
  | .muleAsgClmul g => Sys2Proof.Machine.execMuleAsgClmul g s
  | .muleAsgAffine g => Sys2Proof.Machine.execMuleAsgAffine g s
  | .muleAccAuto g => Sys2Proof.Machine.execMuleAccAuto g s
  | .muleAccLog g => Sys2Proof.Machine.execMuleAccLog g s
  | .muleAccShufn g => Sys2Proof.Machine.execMuleAccShufn g s
  | .muleAccShufw g => Sys2Proof.Machine.execMuleAccShufw g s
  | .muleAccClmul g => Sys2Proof.Machine.execMuleAccClmul g s
  | .muleAccAffine g => Sys2Proof.Machine.execMuleAccAffine g s

end Sys2Proof.Machine
end

