-- ==== Sys2Proof/Machine/Races.lean ====
section
/-! DEFINITION. Races with a MULR from its acceptance until its end is observed: which accesses race, and what a racing read returns (20_memory.md R83, 70_reset_and_hazards.md R346). -/

namespace Sys2Proof.Machine

open Sys2Proof.Config

/-! ## Which accesses race (20_memory.md R83) -/

/-- A store to n bytes from a writes a byte of the source or of the destination range of a command. -/
def storeMeets (p : Span) (a n : Nat) : Bool :=
  rangesMeet a n p.src.toNat p.len.toNat || rangesMeet a n p.dst.toNat p.len.toNat

/-- A load of n bytes from a reads a byte of the destination range of a command. -/
def loadMeets (p : Span) (a n : Nat) : Bool := rangesMeet a n p.dst.toNat p.len.toNat

/-- A store races with the running command. -/
def storeRaces (s : State) (a n : Nat) : Bool := s.status.busy && storeMeets (latchedSpan s.latched) a n

/-- A load races with the running command. -/
def loadRaces (s : State) (a n : Nat) : Bool := s.status.busy && loadMeets (latchedSpan s.latched) a n

/-- The ended commands with which a store races, their end being unobserved (70_reset_and_hazards.md R346). -/
def lateStores (s : State) (a n : Nat) : List Span := (endedSpans s).filter fun p => storeMeets p a n

/-- The ended commands with which a load races, their end being unobserved (70_reset_and_hazards.md R346). -/
def lateLoads (s : State) (a n : Nat) : List Span := (endedSpans s).filter fun p => loadMeets p a n

/-! ## What a racing read returns (20_memory.md R83) -/

/-- A byte is a destination byte of a command whose end is unobserved. -/
def lateByte (s : State) (a : Nat) : Bool := (endedSpans s).any fun p => loadMeets p a 1

/-- A load of one byte by another agent returns any value: it races with the running command or with an ended one. -/
def readsFree (s : State) (a : Nat) : Bool := loadRaces s a 1 || lateByte s a

/-- The bytes an agent loads: a racing read of a destination byte returns any value. -/
def loadBytes (s : State) (a : Nat) : Nat → Nat → List Byte × Nat
  | 0, d => ([], d)
  | n + 1, d =>
    if readsFree s a then (freeByte d :: (loadBytes s (a + 1) n (d + 1)).1, (loadBytes s (a + 1) n (d + 1)).2)
    else (readByte s.mem a :: (loadBytes s (a + 1) n d).1, (loadBytes s (a + 1) n d).2)

/-- The byte that the unit reads: any value where the read races with an ended command (70_reset_and_hazards.md R346,
"other commands'"). -/
def unitByte (s : State) (a : Nat) (d : Nat) : Byte × Nat :=
  if lateByte s a then (freeByte d, d + 1) else (readByte s.mem a, d)

/-- The element that the unit reads, little-endian (20_memory.md R72). -/
def unitElem (s : State) (a : Nat) (d : Nat) : Elem × Nat :=
  let lo := unitByte s a d
  let hi := unitByte s (a + 1) lo.2
  (hi.1 ++ lo.1, hi.2)

end Sys2Proof.Machine
end

