-- ==== Sys2Proof/Machine/Unit.lean ====
section
/-! DEFINITION. The unit's steps of a running MULR: the chunk step, its bus errors, and completion (40_commands.md R142 to R146, 60_exceptions.md R304). -/

namespace Sys2Proof.Machine

open Sys2Proof.Config

/-! ## What memory answers -/

/-- The answer to a read (`wr` false) or write (`wr` true) of one byte: an address at or beyond 2^P_AW does not
exist and is answered with an error; else the first region that holds it decides; an address in no region
answers ok (20_memory.md R70, R73; entry 4). -/
def byteAnswer (s : State) (wr : Bool) (a : Nat) : BusAnswer :=
  if 2 ^ s.params.aw ≤ a then .error
  else
    match s.busMap.find? (fun r => inRange r.base r.size a) with
    | some r => if wr then r.write else r.read
    | none => .ok

/-- A 2-byte element access meets a bus error on one of its bytes (20_memory.md R76). -/
def elemFaults (s : State) (wr : Bool) (a : Nat) : Bool :=
  byteAnswer s wr a == .error || byteAnswer s wr (a + 1) == .error

/-- A 2-byte element access is never answered on one of its bytes (93 U25). -/
def elemSilent (s : State) (wr : Bool) (a : Nat) : Bool :=
  byteAnswer s wr a == .silent || byteAnswer s wr (a + 1) == .silent

/-- An access of n bytes lands on the register window, where the platform maps it into memory (20_memory.md R78). R78
leaves open at which address of memory space the window then stands; that it is P_BASE is a DESIGN CHOICE (entry 29;
unsafe for a platform that maps it at another address). -/
def touchesWindow (s : State) (a n : Nat) : Bool :=
  s.params.windowInMemory && rangesMeet a n s.params.base.toNat 256

/-- How a phase of a chunk (its reads, or its writes) ends. -/
inductive Phase where
  | done
  | waiting
  | faulted (addr : Nat)
deriving DecidableEq, Repr

/-- The outcome of issuing one phase's accesses in any order: a bus error at one of the faulting addresses,
which one a free choice (60_exceptions.md R304); no progress where an access is never answered (93 U25); and,
where both can happen, either (entry 21). -/
def phase (s : State) (wr : Bool) (addrs : List Nat) (d : Nat) : Phase :=
  match addrs.filter (elemFaults s wr), addrs.any (elemSilent s wr) with
  | [], false => .done
  | [], true => .waiting
  | b :: bs, mute =>
    if mute && freeBit d then .waiting
    else .faulted ((b :: bs).getD (freeIndex d % (b :: bs).length) b)

/-! ## The chunk (40_commands.md R142, R146) -/

/-- The length of the chunk at K. -/
def chunkLen (s : State) : Nat := min s.latched.vw (s.latched.len.toNat - s.k)

/-- The chunk at K is partial. -/
def chunkPartial (s : State) : Bool := chunkLen s < s.latched.vw

/-- The byte offsets in the region of the elements of the chunk at K. -/
def chunkOffsets (s : State) : List Nat := (List.range (chunkLen s / 2)).map fun j => s.k + 2 * j

/-- The chunk reads its source elements unless the scalar is 0 (40_commands.md R140, R146). -/
def readsSource (l : Latched) : Bool := l.scalar != 0

/-- The chunk reads its destination elements in ACCUMULATE unless the scalar is 0 (40_commands.md R140, R146). -/
def readsDest (l : Latched) : Bool := l.mode == .accumulate && l.scalar != 0

/-- The chunk writes its destination elements unless the scalar is 0 in ACCUMULATE (40_commands.md R140, R146). -/
def writesDest (l : Latched) : Bool := !(l.scalar == 0 && l.mode == .accumulate)

/-- The addresses of the chunk's element reads (20_memory.md R75). -/
def chunkReads (s : State) : List Nat :=
  (if readsSource s.latched then (chunkOffsets s).map (s.latched.src.toNat + ·) else []) ++
    (if readsDest s.latched then (chunkOffsets s).map (s.latched.dst.toNat + ·) else [])

/-- The addresses of the chunk's element writes (20_memory.md R75). -/
def chunkWrites (s : State) : List Nat :=
  if writesDest s.latched then (chunkOffsets s).map (s.latched.dst.toNat + ·) else []

/-- The value written for the element at byte offset o of the region (40_commands.md R137, R146): the source and the
destination element where the chunk reads them, then the product. -/
def elemValue (s : State) (o : Nat) (d : Nat) : Elem × Nat :=
  let x := if readsSource s.latched then unitElem s (s.latched.src.toNat + o) d else (0, d)
  let y := if readsDest s.latched then unitElem s (s.latched.dst.toNat + o) x.2 else (0, x.2)
  let p := prod s s.latched.eng x.1 s.latched.scalar (chunkPartial s) y.2
  (y.1 ^^^ p.1, p.2)

/-- The values of the whole chunk, all computed from memory as it stands before the chunk's writes
(20_memory.md R82), and the free values drawn. -/
def chunkValues (s : State) : List Elem × Nat := mapDraw (elemValue s) (chunkOffsets s) s.draws

/-- The chunk's writes all succeed, and K moves on (40_commands.md R146). -/
def storeChunk (s : State) : State :=
  { s with
    mem := if writesDest s.latched then writeElems s.mem (s.latched.dst.toNat + s.k) (chunkValues s).1 else s.mem
    draws := (chunkValues s).2
    k := s.k + chunkLen s }

/-- The chunk's writes meet a bus error: each of its destination bytes holds its old or its new value
(60_exceptions.md R304). -/
def tearChunk (s : State) : State :=
  let t := tearBytes s.mem (s.latched.dst.toNat + s.k) ((chunkValues s).1.flatMap elemBytes) ((chunkValues s).2 + 1)
  { s with mem := t.1, draws := t.2 }

/-- The ended commands with which a read of the chunk races (70_reset_and_hazards.md R346). -/
def lateReads (s : State) : List Span := (endedSpans s).filter fun p => (chunkReads s).any (loadMeets p · 2)

/-- The ended commands with which a read or a write of the chunk races (70_reset_and_hazards.md R346). -/
def lateAccesses (s : State) : List Span :=
  (endedSpans s).filter fun p => (chunkReads s).any (loadMeets p · 2) || (chunkWrites s).any (storeMeets p · 2)

/-- The chunk step (40_commands.md R146): reads, then values, then writes. Where its accesses race with ended commands,
the destination bytes of those take any value (20_memory.md R83, 70_reset_and_hazards.md R346; entry 26). -/
def chunkStep (s : State) : Result :=
  if (chunkReads s ++ chunkWrites s).any (touchesWindow s · 2) then .refused .windowInMemory
  else
    match phase s false (chunkReads s) s.draws with
    | .waiting => .next (drawSpans (lateReads s) s)
    | .faulted a => .next (settleRace (busFault a (drawSpans (lateReads s) { s with draws := s.draws + 1 })))
    | .done =>
      match phase s true (chunkWrites s) (chunkValues s).2 with
      | .waiting => .next (drawSpans (lateAccesses s) s)
      | .faulted a => .next (settleRace (busFault a (drawSpans (lateAccesses s) (tearChunk s))))
      | .done => .next (drawSpans (lateAccesses s) (storeChunk s))

/-- The unit's step while BUSY = 1 (40_commands.md R146): completion where K has reached the length (R144), else
a chunk. -/
def unitStep (s : State) : Result :=
  if s.k = s.latched.len.toNat then .next (settleRace (completeCommand s)) else chunkStep s

/-- The unit's turn: it moves while BUSY = 1 and reset is not asserted (40_commands.md R146, 70_reset_and_hazards.md
R340); idle, it does nothing (60_exceptions.md R315). -/
def unitMove (s : State) : Result := if s.status.busy && !s.inReset then unitStep s else .next s

end Sys2Proof.Machine
end

