-- ==== Sys2Proof/Machine/Port.lean ====
section
/-! DEFINITION. The register port: the register map, the CMD write, and accesses to the window (10_state.md R20 to R44, R52; 40_commands.md R130). -/

namespace Sys2Proof.Machine

open Sys2Proof.Config

/-- The registers of the window (10_state.md R20). -/
inductive Reg where
  | cap
  | poly
  | ctrl
  | status
  | thresh
  | srcLo
  | srcHi
  | dstLo
  | dstHi
  | len
  | scalar
  | opnd
  | result
  | cmd
  | faultLo
  | faultHi
  | tblAddr
  | tblData
  | reserved
deriving DecidableEq, Repr

/-- The registers in the order of their offsets, from 0x000 (10_state.md R20). -/
def regList : List Reg :=
  [.cap, .poly, .ctrl, .status, .thresh, .srcLo, .srcHi, .dstLo, .dstHi, .len, .scalar, .opnd, .result, .cmd,
    .faultLo, .faultHi, .tblAddr, .tblData]

/-- The register at a 4-byte-aligned offset; 0x048 to 0x0FC are reserved (10_state.md R20, R43). -/
def regAt (off : Nat) : Reg := regList.getD (off / 4) .reserved

/-- The offset of a register (10_state.md R20); for the reserved ones, that of the first. -/
def Reg.offset (r : Reg) : Nat := 4 * regList.idxOf r

/-- The CMD write (40_commands.md R130): dropped while BUSY = 1; else the word is decoded, and a command runs or
the word's error is taken. -/
def cmdWrite (w : Word) (s : State) : Result :=
  if s.status.busy then .next (dropWrite s)
  else
    match decode w with
    | .error e => .next (raiseError (.ofDecode e) s)
    | .ok i => exec i s

/-- A write of TBL_DATA (10_state.md R42): dropped while BUSY = 1. -/
def tblDataWrite (w : Word) (s : State) : State := if s.status.busy then dropWrite s else tblDataStore w s

/-- A 32-bit write to a register (10_state.md R20 to R43, R52). Every register but CMD and TBL_DATA takes its
write whether or not BUSY is set; read-only and reserved ones ignore it. -/
def writeReg (r : Reg) (w : Word) (s : State) : Result :=
  match r with
  | .ctrl => .next (noteIrq { s with ctrl := .ofWord w })
  | .status => .next (noteIrq (acknowledge w s))
  | .thresh => .next { s with thresh := w }
  | .srcLo => .next { s with src := setLo s.params s.src w }
  | .srcHi => .next { s with src := setHi s.params s.src w }
  | .dstLo => .next { s with dst := setLo s.params s.dst w }
  | .dstHi => .next { s with dst := setHi s.params s.dst w }
  | .len => .next { s with len := w }
  | .scalar => .next { s with scalar := w.setWidth 16 }
  | .opnd => .next { s with opnd := w.setWidth 16 }
  | .cmd => cmdWrite w s
  | .tblAddr => .next { s with tblAddr := .ofWord w }
  | .tblData => .next (tblDataWrite w s)
  | .cap => .next s
  | .poly => .next s
  | .result => .next s
  | .faultLo => .next s
  | .faultHi => .next s
  | .reserved => .next s

/-- A 32-bit read of a register: its value, and the state after (10_state.md R20 to R43). Only TBL_DATA's read has
a side effect (20_memory.md R77); CMD and the reserved offsets read 0. -/
def readReg (r : Reg) (s : State) : Word × State :=
  match r with
  | .cap => (capWord s.params, s)
  | .poly => (polyWord s.params, s)
  | .ctrl => (s.ctrl.word, s)
  | .status => (s.status.word, s)
  | .thresh => (s.thresh, s)
  | .srcLo => (loHalf s.src, s)
  | .srcHi => (hiHalf s.src, s)
  | .dstLo => (loHalf s.dst, s)
  | .dstHi => (hiHalf s.dst, s)
  | .len => (s.len, s)
  | .scalar => (s.scalar.setWidth 32, s)
  | .opnd => (s.opnd.setWidth 32, s)
  | .result => (s.result.setWidth 32, s)
  | .cmd => (0, s)
  | .faultLo => (loHalf s.fault, s)
  | .faultHi => (hiHalf s.fault, s)
  | .tblAddr => (s.tblAddr.word, s)
  | .tblData => tblDataLoad s
  | .reserved => (0, s)

/-- The offset of a bus address from P_BASE (10_state.md R20), modulo 2^64 (DESIGN CHOICE, entry 28). -/
def portOffset (s : State) (addr : Addr) : Nat := (addr - s.params.base).toNat

/-- The bus address of a register (10_state.md R20). -/
def regAddr (p : Params) (r : Reg) : Addr := p.base + BitVec.ofNat 64 r.offset

/-- What the block makes of a register-port access. -/
inductive PortAccess where
  /-- not in the window: another device's (entry 19) -/
  | elsewhere
  /-- not an aligned 32-bit access (10_state.md R44) -/
  | bad
  | reg (r : Reg)
deriving DecidableEq, Repr

/-- Decoding an access: only aligned 32-bit accesses reach a register (10_state.md R20, R44). An access that starts
below P_BASE and reaches into the window is taken as not the block's, which the spec leaves open (DESIGN CHOICE,
entry 19; unsafe for a claim about such an access). -/
def portAccess (s : State) (addr : Addr) (width : AccessWidth) : PortAccess :=
  if 256 ≤ portOffset s addr then .elsewhere
  else if width = .w32 ∧ portOffset s addr % 4 = 0 then .reg (regAt (portOffset s addr))
  else .bad

/-- A host that reads STATUS with BUSY = 0 observes the end of the commands (70_reset_and_hazards.md R345). -/
def learn (r : Reg) (s : State) : State := if r = .status then observeIdle s else s

/-- A host write on the register port. -/
def portWrite (addr : Addr) (width : AccessWidth) (w : Word) (s : State) : Result :=
  match portAccess s addr width with
  | .elsewhere => .next s
  | .bad => if s.inReset then .refused .accessDuringReset else .next (withReply .busError s)
  | .reg r => if s.inReset then .refused .accessDuringReset else writeReg r w (withReply .written s)

/-- A host read on the register port. -/
def portRead (addr : Addr) (width : AccessWidth) (s : State) : Result :=
  match portAccess s addr width with
  | .elsewhere => .next s
  | .bad => if s.inReset then .refused .accessDuringReset else .next (withReply .busError s)
  | .reg r =>
    if s.inReset then .refused .accessDuringReset
    else .next (withReply (.data (readReg r s).1) (learn r (readReg r s).2))

/-- One read of a POLL (30_encoding.md R110). Where the value does not match, the unit gets one turn and the POLL reads
again, ahead of every other event: R110 leaves open what happens between two reads, and that the unit moves once there
and no other agent acts is a DESIGN CHOICE (entry 20; unsafe for a claim about another agent's action there). A POLL of
no register ends. -/
def pollOnce (addr : Addr) (mask value : Word) (s : State) : Result :=
  match portAccess s addr .w32 with
  | .elsewhere => .next s
  | .bad => if s.inReset then .refused .accessDuringReset else .next (withReply .busError s)
  | .reg r =>
    if s.inReset then .refused .accessDuringReset
    else
      let t := withReply (.data (readReg r s).1) (learn r (readReg r s).2)
      if (readReg r s).1 &&& mask = value then .next t
      else .next (withInputs (.unitTurn :: .poll addr mask value :: t.inputs) t)

end Sys2Proof.Machine
end

