-- ==== Sys2Proof/Machine/World.lean ====
section
/-! DEFINITION. What the other agents do: stores and loads of system memory and their races with commands (20_memory.md R83), taking the interrupt, and the reset input (70_reset_and_hazards.md R340, R341). -/

namespace Sys2Proof.Machine

open Sys2Proof.Config

/-- Another agent stores bytes to memory (20_memory.md R80, R83; entries 10 and 16). The store takes effect before the
next event, FENCE or none, which the spec leaves to the host's memory model (R80, 70_reset_and_hazards.md R348;
DESIGN CHOICE, entry 25; unsafe for a host that puts no FENCE before its CMD write). -/
def memStore (a : Nat) (bs : List Byte) (s : State) : Result :=
  if 2 ^ s.params.aw < a + bs.length then .fault .noSuchAddress
  else if touchesWindow s a bs.length then .refused .windowInMemory
  else
    .next (drawSpans (lateStores s a bs.length)
      { s with
        mem := writeBytes s.mem a bs
        raced := s.raced || storeRaces s a bs.length
        reply := .written })

/-- Another agent loads bytes from memory (20_memory.md R81, R83; entries 10 and 16). -/
def memLoad (a n : Nat) (s : State) : Result :=
  if 2 ^ s.params.aw < a + n then .fault .noSuchAddress
  else if touchesWindow s a n then .refused .windowInMemory
  else
    .next (drawSpans (lateLoads s a n)
      { s with
        reply := .bytes (loadBytes s a n s.draws).1
        draws := (loadBytes s a n s.draws).2
        raced := s.raced || loadRaces s a n })

/-- Memory when reset abandons a running command (70_reset_and_hazards.md R341): the bytes of chunks not yet
completed take any value, and after a race (20_memory.md R83) all of the destination does. -/
def abandonCommand (s : State) : State :=
  if s.status.busy then
    if s.raced then drawDst s
    else
      { s with
        mem := (drawBytes s.mem (s.latched.dst.toNat + s.k) (s.latched.len.toNat - s.k) s.draws).1
        draws := (drawBytes s.mem (s.latched.dst.toNat + s.k) (s.latched.len.toNat - s.k) s.draws).2 }
  else s

/-- The reset event (70_reset_and_hazards.md R340, 10_state.md R51): every register takes its reset value at once
and the tables become unwritten; memory, its agent and the host are not the block's. The host that resets knows that no
command runs (entry 26). -/
def resetEvent (s : State) : State :=
  { blockReset s.params with
    mem := (abandonCommand s).mem
    draws := (abandonCommand s).draws
    busMap := s.busMap
    inputs := s.inputs
    reply := s.reply
    inReset := true }

/-- A host takes the interrupt, if there is one, and observes ends by it (20_memory.md R81, 70_reset_and_hazards.md
R345, R349; entry 26). -/
def takeIrq (s : State) : State := if s.irq then observeIrq s else s

/-- One action of an agent, its event already taken off the list. FENCE changes nothing, since a store has taken effect
before the next event (DESIGN CHOICE, entry 25). -/
def event (e : Event) (s : State) : Result :=
  match e with
  | .portWrite addr width w => portWrite addr width w s
  | .portRead addr width => portRead addr width s
  | .poll addr mask value => pollOnce addr mask value s
  | .memStore a bs => memStore a bs s
  | .memLoad a n => memLoad a n s
  | .fence => .next s
  | .irqTaken => .next (takeIrq s)
  | .unitTurn => unitMove s
  | .resetAssert => .next (resetEvent s)
  | .resetRelease => .next { s with inReset := false }
  | .remap map => .next { s with busMap := map }

/-- One step of the machine: the next agent's action, or, where none is waiting, the unit's (entry 8). -/
def stepOnce (s : State) : Result :=
  match s.inputs with
  | [] => unitMove s
  | e :: es => event e (withInputs es s)

/-- The state with a command word about to be written to CMD and the block ready to take it: idle, reset
released (entry 18). -/
def presentCommand (w : Word) (s : State) : State :=
  { s with
    status := { s.status with busy := false }
    inReset := false
    inputs := .portWrite (regAddr s.params .cmd) .w32 w :: s.inputs }

end Sys2Proof.Machine
end

