-- ==== Sys2Proof/Machine/Step.lean ====
section
/-! DEFINITION. The machine's one step, and where the host places a command word. -/

namespace Sys2Proof.Machine

/-- One step (entry 8): the next action of an agent, or the unit's own. -/
def step : State → Host.Outcome State Fault Refusal := fun s => stepOnce s

/-- The state whose very next step writes the opcode-table word to CMD and runs it (entry 18). -/
def State.withFetchWord (s : State) (nbits w : Nat) : State := presentCommand (tableWord nbits w) s

end Sys2Proof.Machine
end

