-- ==== Sys2Proof/Machine/Pseudo.lean ====
section
/-! DEFINITION. The assembler's spellings, the host statements and the pseudo-instructions, as events (30_encoding.md R110, R111; 70_reset_and_hazards.md R343). -/

namespace Sys2Proof.Machine

open Sys2Proof.Config

/-- Whether a command has an ENG part that admits a GRAN part (30_encoding.md R110). -/
def takesGran (i : Instr) : Bool := i != .nop && i != .sel && engUsesGran i.fields.eng

/-- The spellings of a command, `OP[.MODE.ENG[.GRAN]]`: GRAN is N4, the default, or B8, and may be written only
when ENG is AUTO, SHUFN or SHUFW (30_encoding.md R110). -/
def spellings (i : Instr) : List String :=
  match i.gran, takesGran i with
  | .nibble, true => [i.row, i.row ++ ".N4"]
  | .nibble, false => [i.row]
  | .byte, true => [i.row ++ ".B8"]
  | .byte, false => []

/-- Every command: the 50 legal words of 30_encoding.md R109. -/
def allInstrs : List Instr :=
  [.nop, .sel] ++
    [MulOp.mulr, MulOp.mule].flatMap fun op =>
      [Mode.assign, Mode.accumulate].flatMap fun m =>
        [EngSel.auto, .named .log, .named .shufN, .named .shufW, .named .clmul, .named .affine].flatMap fun e =>
          [mulInstr op m e .nibble, mulInstr op m e .byte]

/-- The command of a spelling (30_encoding.md R110). -/
def assemble (text : String) : Option Instr := allInstrs.find? fun i => (spellings i).contains text

/-- `WR reg, v` (30_encoding.md R110). -/
def wr (p : Params) (r : Reg) (v : Word) : Event := .portWrite (regAddr p r) .w32 v

/-- `RD reg`; the value is in `State.reply` after it (30_encoding.md R110). -/
def rd (p : Params) (r : Reg) : Event := .portRead (regAddr p r) .w32

/-- `POLL reg, mask, v` (30_encoding.md R110). -/
def pollReg (p : Params) (r : Reg) (mask v : Word) : Event := .poll (regAddr p r) mask v

/-- `MW16 addr, v` (30_encoding.md R110). -/
def mw16 (a : Nat) (v : Elem) : Event := .memStore a (elemBytes v)

/-- `MR16 addr`; the bytes are in `State.reply` after it (30_encoding.md R110). -/
def mr16 (a : Nat) : Event := .memLoad a 2

/-- `CMD m` (30_encoding.md R111). -/
def cmd (p : Params) (i : Instr) : List Event := [wr p .cmd (encode i)]

/-- `WAIT` (30_encoding.md R111). -/
def wait (p : Params) : List Event := [pollReg p .status 1 0]

/-- `CLRST` (30_encoding.md R111). -/
def clrst (p : Params) : List Event := [wr p .status 0xE]

/-- `REGION s, d, n, a` (30_encoding.md R111). -/
def region (p : Params) (s d : Addr) (n a : Word) : List Event :=
  [wr p .srcLo (loHalf s), wr p .srcHi (hiHalf s), wr p .dstLo (loHalf d), wr p .dstHi (hiHalf d), wr p .len n,
    wr p .scalar a]

/-- `GFMULR m, s, d, n, a` (30_encoding.md R111). -/
def gfmulr (p : Params) (i : Instr) (s d : Addr) (n a : Word) : List Event :=
  clrst p ++ region p s d n a ++ [.fence] ++ cmd p i ++ wait p

/-- `GFMULE m, x, a` (30_encoding.md R111). -/
def gfmule (p : Params) (i : Instr) (x a : Word) : List Event :=
  [wr p .opnd x, wr p .scalar a] ++ cmd p i ++ [rd p .result]

/-- `LOADTBL sel, V` (30_encoding.md R111). -/
def loadtbl (p : Params) (sel : Word) (vs : List Elem) : List Event :=
  wr p .tblAddr (sel <<< 16) :: vs.map fun v => wr p .tblData (v.setWidth 32)

/-- The boot sequence (70_reset_and_hazards.md R343). -/
def boot (p : Params) (vLog vExp : List Elem) (thresh ctrl : Word) : List Event :=
  loadtbl p 0 vLog ++ loadtbl p 1 vExp ++ [wr p .thresh thresh, wr p .ctrl ctrl] ++ clrst p

end Sys2Proof.Machine
end

