-- ==== Sys2Proof/Safety.lean ====
section
/-! DEFINITION. The terms claims are stated in: the invariant of the machine, legal running commands, frames, and what memory and the tables are assumed to answer. -/

namespace Sys2Proof.Machine

open Sys2Proof.Config

/-- The form of a table tree of depth n: leaves only at the bottom, and no node with nothing below it. -/
def Table.wf : Nat → Table → Bool
  | _, .empty => true
  | 0, .leaf _ => true
  | n + 1, .node z o => Table.wf n z && Table.wf n o && !(z == .empty && o == .empty)
  | _, _ => false

/-- DT has the shape of its granularity (42_table_shuffle.md R190). -/
def dtShaped (g : Gran) (dt : List (List Elem)) : Bool :=
  dt.length == (dtShape g).1 && dt.all fun sub => sub.length == (dtShape g).2.1

/-- The derived state the latched engine reads is built (40_commands.md R143). -/
def derivedReady (s : State) : Bool :=
  shortCircuit s.latched.scalar ||
    match s.latched.eng with
    | .affine => s.am == buildAM s.params.poly s.latched.scalar
    | .shufN => dtShaped s.latched.gran s.dt
    | .shufW => dtShaped s.latched.gran s.dt
    | .log => true
    | .clmul => true

/-- The latched operands passed the acceptance checks (40_commands.md R136). -/
def latchedLegal (s : State) : Bool :=
  s.latched.len.toNat % 2 == 0 &&
    (s.latched.len.toNat == 0 ||
      (s.latched.src.toNat + s.latched.len.toNat ≤ 2 ^ s.params.aw &&
        s.latched.dst.toNat + s.latched.len.toNat ≤ 2 ^ s.params.aw)) &&
    (s.latched.src == s.latched.dst ||
      !rangesMeet s.latched.src.toNat s.latched.len.toNat s.latched.dst.toNat s.latched.len.toNat) &&
    present s.params s.latched.eng && s.latched.vw == chunkWidth s.params s.latched.eng

/-- K is at a chunk boundary of the region (10_state.md R49, R50; 40_commands.md R142). -/
def progressLegal (s : State) : Bool :=
  s.k ≤ s.latched.len.toNat && (s.k % s.latched.vw == 0 || s.k == s.latched.len.toNat)

/-- A running command is one that acceptance starts: its operands are legal, its derived state is built, K is at
a chunk boundary, LAST_ENGINE names its engine, and reset is not asserted. -/
def runningLegal (s : State) : Bool :=
  latchedLegal s && derivedReady s && progressLegal s && s.status.lastEngine == s.latched.eng.code && !s.inReset

/-- The invariant of the machine. -/
structure Inv (s : State) : Prop where
  /-- the parameters are legal (00_scope.md R6) -/
  legal : s.params.legal = true
  /-- memory is in its canonical form -/
  memory : s.mem.wf = true
  /-- the table memory LOG is in its form -/
  logTable : s.logTbl.wf 16 = true
  /-- the table memory EXP is in its form -/
  expTable : s.expTbl.wf 16 = true
  /-- SRC holds P_AW bits (10_state.md R32) -/
  src : s.src.toNat < 2 ^ s.params.aw
  /-- DST holds P_AW bits (10_state.md R33) -/
  dst : s.dst.toNat < 2 ^ s.params.aw
  /-- FAULT holds P_AW bits (10_state.md R39) -/
  fault : s.fault.toNat < 2 ^ s.params.aw
  /-- ERR_CODE values 9 to 15 are never produced (60_exceptions.md R301) -/
  errCode : s.status.errCode.toNat ≤ 8
  /-- LAST_ENGINE is 0 or an engine's code (10_state.md R30) -/
  lastEngine : s.status.lastEngine.toNat ≤ 5
  /-- only a running command can be raced with (20_memory.md R83) -/
  raced : s.raced = true → s.status.busy = true
  /-- the running command is legal -/
  running : s.status.busy = true → runningLegal s = true

/-- The unit is idle and reset is not asserted: a CMD write is decoded (40_commands.md R130). -/
def Ready (s : State) : Prop := s.status.busy = false ∧ s.inReset = false

/-- The next event is an aligned 32-bit write of w to register r. -/
def WritesReg (s : State) (r : Reg) (w : Word) : Prop :=
  ∃ addr es, s.inputs = .portWrite addr .w32 w :: es ∧ portAccess s addr .w32 = .reg r

/-- The next event asserts reset. -/
def AssertsReset (s : State) : Prop := ∃ es, s.inputs = .resetAssert :: es

/-- The next step is the unit's. -/
def UnitMoves (s : State) : Prop := s.inputs = [] ∨ ∃ es, s.inputs = .unitTurn :: es

/-- Every entry an engine can read is written (10_state.md R40: LOG[1..65535] and EXP[0..65534]). -/
def TablesLoaded (s : State) : Prop :=
  (∀ i : BitVec 16, i ≠ 0 → s.logTbl.read i ≠ none) ∧ (∀ i : BitVec 16, i ≠ 65535 → s.expTbl.read i ≠ none)

/-- The element at byte offset o of the latched region lies in a partial chunk (40_commands.md R138, R142). -/
def partialAt (s : State) (o : Nat) : Bool := s.latched.len.toNat / s.latched.vw * s.latched.vw ≤ o

/-- No element product still to come of the running command draws a free value: every table entry it reads is
written (41_log_table_unit.md R176). So it is for a scalar that short-circuits (40_commands.md R140), for AFFINE and
CLMUL, for the full chunks of the shuffle engines, and on loaded tables; `Laws` has a lemma for each. -/
def NoFreeProducts (s : State) : Prop :=
  ∀ o, s.k ≤ o → o < s.latched.len.toNat → o % 2 = 0 →
    (prod s s.latched.eng (readElem s.mem (s.latched.src.toNat + o)) s.latched.scalar (partialAt s o) 0).2 = 0

/-- The tables are consistent where the products by a on engine e read them: LOG and the shuffle engines read them, for
every scalar but 0 and 1 (40_commands.md R139, R140; 70_reset_and_hazards.md R344). -/
def ConsistentWhereRead (s : State) (e : Engine) (a : Elem) : Prop :=
  e = .log ∨ e = .shufN ∨ e = .shufW → a ≠ 0 → a ≠ 1 → TablesConsistent s.params.poly s.logTbl s.expTbl

/-- The table product of loaded tables (00_scope.md R15); no free value is drawn there. -/
def tableProduct (s : State) (x a : Elem) : Elem := (logmul s.logTbl s.expTbl x a 0).1

/-- The element product of the latched command (40_commands.md R138) where no free value is drawn. -/
def latchedProduct (s : State) (x : Elem) (part : Bool) : Elem :=
  (prod s s.latched.eng x s.latched.scalar part 0).1

/-- What the latched command leaves in an element whose source was x and destination d (40_commands.md R137). -/
def latchedResult (s : State) (x d : Elem) (part : Bool) : Elem :=
  match s.latched.mode with
  | .assign => latchedProduct s x part
  | .accumulate => d ^^^ latchedProduct s x part

/-- Nothing outside the command's own outputs changes: the operand registers, CTRL, THRESH, FAULT, TBL_ADDR, the
tables, every byte of memory, and the agents around the block. -/
structure Untouched (s t : State) : Prop where
  params : t.params = s.params
  ctrl : t.ctrl = s.ctrl
  thresh : t.thresh = s.thresh
  src : t.src = s.src
  dst : t.dst = s.dst
  len : t.len = s.len
  scalar : t.scalar = s.scalar
  opnd : t.opnd = s.opnd
  fault : t.fault = s.fault
  tblAddr : t.tblAddr = s.tblAddr
  logTbl : t.logTbl = s.logTbl
  expTbl : t.expTbl = s.expTbl
  busMap : t.busMap = s.busMap
  inReset : t.inReset = s.inReset
  inputs : t.inputs = s.inputs
  reply : t.reply = s.reply
  unobserved : t.unobserved = s.unobserved
  memory : ∀ a, readByte t.mem a = readByte s.mem a

/-- The status after a MULE that completes on engine e (40_commands.md R141). -/
def muleStatus (s : State) (e : Engine) : Status :=
  { s.status with done := true, errCode := 0, lastEngine := e.code }

/-- The status after an accepted MULR on engine e (40_commands.md R136). -/
def acceptStatus (s : State) (e : Engine) : Status := { s.status with busy := true, lastEngine := e.code }

/-- Byte address a lies in the destination range of a command (20_memory.md R75). -/
def InDst (p : Span) (a : Nat) : Prop := p.dst.toNat ≤ a ∧ a < p.dst.toNat + p.len.toNat

/-- Byte address a lies in the source range of a command (20_memory.md R75). -/
def InSrc (p : Span) (a : Nat) : Prop := p.src.toNat ≤ a ∧ a < p.src.toNat + p.len.toNat

/-- A store to n bytes from a touches a command's source or destination range (20_memory.md R83). -/
def StoreTouches (p : Span) (a n : Nat) : Prop := ∃ x, a ≤ x ∧ x < a + n ∧ (InSrc p x ∨ InDst p x)

/-- A load of n bytes from a touches a command's destination range (20_memory.md R83). -/
def LoadTouches (p : Span) (a n : Nat) : Prop := ∃ x, a ≤ x ∧ x < a + n ∧ InDst p x

/-- A command writes memory: all but the scalar 0 in ACCUMULATE do (40_commands.md R140). -/
def WritesMemory (l : Latched) : Prop := ¬ (l.scalar = 0 ∧ l.mode = .accumulate)

/-- The reads of a command's source, or its writes, touch the ranges of an earlier one (20_memory.md R75, R83). -/
def CommandTouches (p : Span) (l : Latched) : Prop :=
  (l.scalar ≠ 0 ∧ ∃ x, InSrc (latchedSpan l) x ∧ InDst p x) ∨
    (WritesMemory l ∧ ∃ x, InDst (latchedSpan l) x ∧ (InSrc p x ∨ InDst p x))

/-- A read of the chunk at K touches the destination range of an earlier command (20_memory.md R83). -/
def ChunkReadTouches (p : Span) (s : State) : Prop := ∃ a ∈ chunkReads s, LoadTouches p a 2

/-- A read or a write of the chunk at K touches the ranges of an earlier command (20_memory.md R83). -/
def ChunkTouches (p : Span) (s : State) : Prop := ChunkReadTouches p s ∨ ∃ a ∈ chunkWrites s, StoreTouches p a 2

/-- The bytes that a command reads (`wr` false) and writes (`wr` true) from offset k of its region on (20_memory.md R75,
40_commands.md R140): with the scalar 0 it reads none, and in ACCUMULATE writes none. -/
def CommandAccesses (l : Latched) (k : Nat) : Bool → Nat → Prop
  | false, x =>
    l.scalar ≠ 0 ∧
      ((l.src.toNat + k ≤ x ∧ InSrc (latchedSpan l) x) ∨
        (l.mode = .accumulate ∧ l.dst.toNat + k ≤ x ∧ InDst (latchedSpan l) x))
  | true, x => WritesMemory l ∧ l.dst.toNat + k ≤ x ∧ InDst (latchedSpan l) x

/-- The bytes that the chunk at K reads (`wr` false) and writes (`wr` true). -/
def ChunkAccesses (s : State) : Bool → Nat → Prop
  | false, x => ∃ a ∈ chunkReads s, a ≤ x ∧ x < a + 2
  | true, x => ∃ a ∈ chunkWrites s, a ≤ x ∧ x < a + 2

/-- Every one of the given accesses is answered with ok; what other addresses are backed with does not matter
(20_memory.md R70, R73). -/
def AllAnswered (s : State) (accesses : Bool → Nat → Prop) : Prop := ∀ wr x, accesses wr x → byteAnswer s wr x = .ok

/-- None of the given accesses stays unanswered (93 U25). -/
def NoneSilent (s : State) (accesses : Bool → Nat → Prop) : Prop := ∀ wr x, accesses wr x → byteAnswer s wr x ≠ .silent

/-- Byte x of memory lies on the register window, the platform mapping the window into memory (20_memory.md R78), at
P_BASE (DESIGN CHOICE, entry 29). -/
def InWindow (s : State) (x : Nat) : Prop :=
  s.params.windowInMemory = true ∧ s.params.base.toNat ≤ x ∧ x < s.params.base.toNat + 256

/-- None of the given accesses is on the register window (20_memory.md R78). -/
def OffWindow (s : State) (accesses : Bool → Nat → Prop) : Prop := ∀ wr x, accesses wr x → ¬ InWindow s x

/-- No byte of the n from a lies on the register window (20_memory.md R78). -/
def RangeOffWindow (s : State) (a n : Nat) : Prop := ∀ x, a ≤ x → x < a + n → ¬ InWindow s x

/-- A command with these latched operands cannot race with one whose end is unobserved (70_reset_and_hazards.md R346). -/
def NoLateRace (s : State) (l : Latched) : Prop := ∀ p ∈ endedSpans s, ¬ CommandTouches p l

/-- What the unit reads of a byte: its value in memory, and a value drawn from count d up to e where the byte is a
destination byte of a command whose end is unobserved (20_memory.md R83, 70_reset_and_hazards.md R346). -/
def UnitReads (s : State) (d e a : Nat) (b : Byte) : Prop :=
  ((∃ p ∈ endedSpans s, InDst p a) → ∃ j, d ≤ j ∧ j < e ∧ b = freeByte j) ∧
    ((∀ p ∈ endedSpans s, ¬ InDst p a) → b = readByte s.mem a)

/-- A MULE ended on engine e with r in RESULT: the latched copies are made (10_state.md R46), STATUS is as
40_commands.md R141 says, and apart from the derived state and the free values nothing else changes. -/
structure MuleEnds (s t : State) (m : Mode) (e : Engine) (g : Gran) (r : Elem) : Prop where
  status : t.status = muleStatus s e
  result : t.result = r
  latched : t.latched = ⟨s.src, s.dst, s.len, s.scalar, m, e, g, chunkWidth s.params e⟩
  k : t.k = s.k
  raced : t.raced = s.raced
  untouched : Untouched s t

/-- A MULR accepted on engine e: BUSY is set, the operands are latched, K is 0 (40_commands.md R136); apart from
the derived state and the free values nothing else changes. -/
structure MulrStarts (s t : State) (m : Mode) (e : Engine) (g : Gran) : Prop where
  status : t.status = acceptStatus s e
  result : t.result = s.result
  latched : t.latched = ⟨s.src, s.dst, s.len, s.scalar, m, e, g, chunkWidth s.params e⟩
  k : t.k = 0
  raced : t.raced = false
  untouched : Untouched s t

/-- LEN is even (40_commands.md R136). -/
def LenEven (s : State) : Prop := s.len.toNat % 2 = 0

/-- Neither region runs past 2^P_AW; a region of length 0 never does (20_memory.md R71). -/
def InAddressSpace (s : State) : Prop :=
  s.len.toNat = 0 ∨ (s.src.toNat + s.len.toNat ≤ 2 ^ s.params.aw ∧ s.dst.toNat + s.len.toNat ≤ 2 ^ s.params.aw)

/-- The regions are one and the same, or share no byte (20_memory.md R84, R85). -/
def NoPartialOverlap (s : State) : Prop :=
  s.src = s.dst ∨ s.dst.toNat + s.len.toNat ≤ s.src.toNat ∨ s.src.toNat + s.len.toNat ≤ s.dst.toNat ∨ s.len.toNat = 0

/-- The number of chunks of the latched region (40_commands.md R142). -/
def chunkCount (s : State) : Nat := (s.latched.len.toNat + s.latched.vw - 1) / s.latched.vw

/-- XOR of the polynomial shifted by the bits of q: the product of q and the polynomial (00_scope.md R12). -/
def polyMultiple (poly : BitVec 17) (q : Elem) : BitVec 32 :=
  (List.range 16).foldl (fun p j => if q.getLsbD j then p ^^^ (poly.setWidth 32 <<< j) else p) 0

/-- The bits of a writable register that are implemented (10_state.md R23, R31 to R36, R41). -/
def implementedBits (p : Params) : Reg → Option Word
  | .ctrl => some 0x7
  | .thresh => some 0xFFFFFFFF
  | .srcLo => some 0xFFFFFFFF
  | .srcHi => some (BitVec.ofNat 32 (2 ^ (p.aw - 32) - 1))
  | .dstLo => some 0xFFFFFFFF
  | .dstHi => some (BitVec.ofNat 32 (2 ^ (p.aw - 32) - 1))
  | .len => some 0xFFFFFFFF
  | .scalar => some 0xFFFF
  | .opnd => some 0xFFFF
  | .tblAddr => some 0x1FFFF
  | _ => none

end Sys2Proof.Machine
end

