-- ==== Sys2Proof/Certificates/Slice0/Obligations.lean ====
section
/-! DEFINITION. The statements about the model, each from the rules of spec/ that its docstring names. -/

open Sys2Proof Sys2Proof.Machine Sys2Proof.Config

/-! ## Encoding (30_encoding.md) -/

/-- Every command's word decodes to the command, as a word and as its four bytes (30_encoding.md R101 to R106, R109). -/
def Obligations.EncodedCommandDecodesToItself : Prop :=
  ∀ i : Instr, decode (encode i) = .ok i ∧ decodeBytes (bytesOfWord (encode i)) = some (.ok i)

/-- A word that decodes is the word of the command it decodes to: no bit of it is dropped (30_encoding.md R107, R109).
-/
def Obligations.DecodedWordIsTheCommandsOnlyWord : Prop :=
  ∀ (w : Word) (i : Instr), decode w = .ok i → encode i = w

/-- The verdict on every word by the fields of R101, the checks in the order of R109: the operation, the must-be-zero
bits, the mode, the engine; and which command a word is that passes them all, by its OP, MODE, ENG and GRAN
(30_encoding.md R101 to R107, R109; 60_exceptions.md R303, points 1 to 4). -/
def Obligations.DecodeVerdictFollowsTheFieldChecks : Prop :=
  ∀ w : Word,
    let n := w.toNat
    let op := n % 16
    let mode := n / 16 % 4
    let eng := n / 256 % 8
    let zero := n / 64 % 4 = 0 ∧ n / 2048 % 2 = 0 ∧ n / 8192 = 0
    (4 ≤ op → decode w = .error .badOp) ∧
    (op = 0 → n / 16 ≠ 0 → decode w = .error .badOp) ∧
    (op = 0 → n / 16 = 0 → decode w = .ok .nop) ∧
    (op = 3 → n / 16 ≠ 0 → decode w = .error .badOp) ∧
    (op = 3 → n / 16 = 0 → decode w = .ok .sel) ∧
    (op = 1 ∨ op = 2 → ¬ zero → decode w = .error .badOp) ∧
    (op = 1 ∨ op = 2 → zero → 2 ≤ mode → decode w = .error .badMode) ∧
    (op = 1 ∨ op = 2 → zero → mode < 2 → 6 ≤ eng → decode w = .error .badEngine) ∧
    (op = 1 ∨ op = 2 → zero → mode < 2 → eng < 6 →
      decode w = .ok (mulInstr (if op = 1 then .mulr else .mule) (if mode = 0 then .assign else .accumulate)
        (match eng with
          | 0 => .auto
          | 1 => .named .log
          | 2 => .named .shufN
          | 3 => .named .shufW
          | 4 => .named .clmul
          | _ => .named .affine)
        (if n / 4096 % 2 = 0 then .nibble else .byte)))

/-- Exactly 50 words are commands (30_encoding.md R109). -/
def Obligations.ExactlyFiftyWordsAreCommands : Prop :=
  (allInstrs.map encode).Nodup ∧ allInstrs.length = 50 ∧
    ∀ w : Word, (∃ i, decode w = .ok i) ↔ w ∈ allInstrs.map encode

/-- Words written out from 30_encoding.md R101 and the table of its section 4 decode to their commands, one of each
kind (95_test_vectors.md section 6.1). -/
def Obligations.SampleWordsDecodeToTheirCommands : Prop :=
  decode 0x00000000 = .ok .nop ∧ decode 0x00000003 = .ok .sel ∧
    decode 0x00001001 = .ok (.mulrAsgAuto .byte) ∧ decode 0x00001101 = .ok (.mulrAsgLog .byte) ∧
    decode 0x00001311 = .ok (.mulrAccShufw .byte) ∧ decode 0x00000202 = .ok (.muleAsgShufn .nibble) ∧
    decode 0x00000402 = .ok (.muleAsgClmul .nibble) ∧ decode 0x00000512 = .ok (.muleAccAffine .nibble) ∧
    decode 0x00000441 = .error .badOp ∧ decode 0x00000631 = .error .badMode ∧ decode 0x00000712 = .error .badEngine

/-! ## The CMD write (40_commands.md R130) -/

/-- A word written to CMD while the block is idle and decoding to a command runs that command: the step takes the
write off the list of events, answers it, and is exec of the command (40_commands.md R130). The event list and `reply`
are the model's (entries 8 and 15). -/
def Obligations.StepRunsTheDecodedCommand : Prop :=
  ∀ (s : State) (w : Word) (i : Instr) (es : List Event), Ready s →
    s.inputs = .portWrite (regAddr s.params .cmd) .w32 w :: es → decode w = .ok i →
    step s = exec i { s with inputs := es, reply := .written }

/-- A word written to CMD while the block is idle that is no command takes its error: ERR and ERR_CODE are set and
nothing else of the block changes (40_commands.md R130, 60_exceptions.md R301, R302). The event list and `reply` are
the model's (entries 8 and 15). -/
def Obligations.IllegalWordTakesItsError : Prop :=
  ∀ (s : State) (w : Word) (e : DecodeError) (es : List Event), Ready s →
    s.inputs = .portWrite (regAddr s.params .cmd) .w32 w :: es → decode w = .error e →
    step s = .next { s with
      inputs := es, reply := .written
      status := { s.status with
        err := true
        errCode := match e with
          | .badOp => 1
          | .badMode => 2
          | .badEngine => 3 } }

/-- While BUSY = 1, a write to CMD or to TBL_DATA is dropped: OVR is set and nothing else of the block changes
(10_state.md R28, R52; 40_commands.md R130). The event list and `reply` are the model's (entries 8 and 15). -/
def Obligations.BusyBlockDropsCommandAndTableWrites : Prop :=
  ∀ (s : State) (r : Reg) (w : Word) (es : List Event), s.status.busy = true → s.inReset = false →
    r = .cmd ∨ r = .tblData → s.inputs = .portWrite (regAddr s.params r) .w32 w :: es →
    step s = .next { s with inputs := es, reply := .written, status := { s.status with ovr := true } }

/-- A write to any register but CMD and TBL_DATA leaves the running command alone: its latched copies, derived state,
progress and memory, the tables and BUSY stay (10_state.md R46, R52; 70_reset_and_hazards.md R352). -/
def Obligations.OtherWritesLeaveTheRunningCommandAlone : Prop :=
  ∀ (s : State) (r : Reg) (w : Word), r ≠ .cmd → r ≠ .tblData →
    ∃ t, writeReg r w s = .next t ∧ t.latched = s.latched ∧ t.dt = s.dt ∧ t.am = s.am ∧ t.k = s.k ∧ t.mem = s.mem ∧
      t.logTbl = s.logTbl ∧ t.expTbl = s.expTbl ∧ t.status.busy = s.status.busy

/-! ## NOP and SEL (40_commands.md R134, R135) -/

/-- NOP completes in every state: DONE is set, ERR_CODE is 0, nothing else changes (40_commands.md R134). -/
def Obligations.NopOnlySetsDone : Prop :=
  ∀ s : State, ∃ t, exec .nop s = .next t ∧ t = { s with status := { s.status with done := true, errCode := 0 } }

/-- SEL completes in every state, whatever LEN's parity: LAST_ENGINE is the dispatcher's choice for LEN, DONE is set,
ERR_CODE is 0, nothing else changes (40_commands.md R135). -/
def Obligations.SelReportsTheDispatchersChoice : Prop :=
  ∀ s : State, ∃ t, exec .sel s = .next t ∧
    t.status = { s.status with done := true, errCode := 0, lastEngine := (select s s.len).code } ∧
    t.result = s.result ∧ t.latched = s.latched ∧ t.dt = s.dt ∧ t.am = s.am ∧ t.k = s.k ∧ t.raced = s.raced ∧
    Untouched s t

/-! ## The dispatcher (40_commands.md R131 to R133) -/

/-- The policy's five steps in strict priority order, the comparison with THRESH unsigned and strict (40_commands.md
R131). -/
def Obligations.SelectionFollowsThePriorityOrder : Prop :=
  ∀ (s : State) (len : Word),
    let p := s.params
    let long := s.thresh.toNat < len.toNat
    (p.hasAffine = true → select s len = .affine) ∧
    (p.hasAffine = false → p.hasShufW = true ∧ long ∧ s.ctrl.slowWide = false → select s len = .shufW) ∧
    (p.hasAffine = false → ¬ (p.hasShufW = true ∧ long ∧ s.ctrl.slowWide = false) → p.hasShufN = true ∧ long →
      select s len = .shufN) ∧
    (p.hasAffine = false → ¬ (p.hasShufW = true ∧ long ∧ s.ctrl.slowWide = false) → ¬ (p.hasShufN = true ∧ long) →
      p.hasClmul = true → select s len = .clmul) ∧
    (p.hasAffine = false → ¬ (p.hasShufW = true ∧ long ∧ s.ctrl.slowWide = false) → ¬ (p.hasShufN = true ∧ long) →
      p.hasClmul = false → select s len = .log)

/-- The choice is a present engine, and it depends only on the length, CAP's engines, THRESH and CTRL.SLOW_WIDE
(40_commands.md R132). -/
def Obligations.SelectionIsAPresentEngineOfItsInputs : Prop :=
  (∀ (s : State) (len : Word), present s.params (select s len) = true) ∧
  (∀ (s t : State) (len : Word), (∀ e, present t.params e = present s.params e) → t.thresh = s.thresh →
    t.ctrl.slowWide = s.ctrl.slowWide → select t len = select s len)

/-- A command that names an absent engine ends with ENGINE_ABSENT, whatever its other operands: only ERR and ERR_CODE
are written, LAST_ENGINE stays (40_commands.md R133; 60_exceptions.md R302, R303). -/
def Obligations.NamedAbsentEngineIsAnError : Prop :=
  ∀ (op : MulOp) (m : Mode) (e : Engine) (g : Gran) (s : State), present s.params e = false →
    exec (mulInstr op m (.named e) g) s =
      .next { s with status := { s.status with busy := false, err := true, errCode := 4 } }

/-! ## MULE (40_commands.md R141) -/

/-- MULE.ASG.CLMUL and MULE.ACC.CLMUL complete wherever the engine is present, and RESULT takes the field product, or
is XORed with it, whatever the tables hold (44_clmul.md R241, R244). That a MULE makes the latched copies is read from
R46 (entry 17); that the rest of the hidden state stays is the model's choice (entry 24). -/
def Obligations.MuleClmulGivesTheFieldProduct : Prop :=
  ∀ (g : Gran) (s : State), s.params.hasClmul = true →
    (∃ t, exec (.muleAsgClmul g) s = .next t ∧
      MuleEnds s t .assign .clmul g (gfmul s.params.poly s.opnd s.scalar) ∧ t.dt = s.dt ∧ t.am = s.am ∧
      t.draws = s.draws) ∧
    (∃ t, exec (.muleAccClmul g) s = .next t ∧
      MuleEnds s t .accumulate .clmul g (s.result ^^^ gfmul s.params.poly s.opnd s.scalar) ∧ t.dt = s.dt ∧
      t.am = s.am ∧ t.draws = s.draws)

/-- MULE.ASG.AFFINE and MULE.ACC.AFFINE complete wherever the engine is present, and RESULT takes the field product,
or is XORed with it, whatever the tables hold (43_affine.md R225, R226). That a MULE makes the latched copies is read
from R46 (entry 17); that the rest of the hidden state stays is the model's choice (entry 24). -/
def Obligations.MuleAffineGivesTheFieldProduct : Prop :=
  ∀ (g : Gran) (s : State), s.params.hasAffine = true → s.params.polyMonic = true →
    (∃ t, exec (.muleAsgAffine g) s = .next t ∧
      MuleEnds s t .assign .affine g (gfmul s.params.poly s.opnd s.scalar) ∧ t.dt = s.dt ∧ t.draws = s.draws) ∧
    (∃ t, exec (.muleAccAffine g) s = .next t ∧
      MuleEnds s t .accumulate .affine g (s.result ^^^ gfmul s.params.poly s.opnd s.scalar) ∧ t.dt = s.dt ∧
      t.draws = s.draws)

/-- MULE.ASG.LOG and MULE.ACC.LOG complete in every state: the product is 0 where an operand is 0, the operand where
the scalar is 1, the antilog of the sum of the logarithms modulo 65535 where the entries read are written, and a free
value where one of them is not (41_log_table_unit.md R171, R173, R174, R176; the free value is entry 6). That a MULE
makes the latched copies is read from R46 (entry 17); that the rest of the hidden state stays is the model's choice
(entry 24). -/
def Obligations.MuleLogReadsTheTablesAsTheyStand : Prop :=
  ∀ (g : Gran) (s : State), ∃ (p : Elem) (ta tc : State),
    exec (.muleAsgLog g) s = .next ta ∧ MuleEnds s ta .assign .log g p ∧
    exec (.muleAccLog g) s = .next tc ∧ MuleEnds s tc .accumulate .log g (s.result ^^^ p) ∧
    ta.dt = s.dt ∧ ta.am = s.am ∧ tc.dt = s.dt ∧ tc.am = s.am ∧
    (s.scalar = 0 → p = 0) ∧
    (s.scalar = 1 → p = s.opnd) ∧
    (s.scalar ≠ 0 → s.scalar ≠ 1 → s.opnd = 0 → p = 0) ∧
    (s.scalar ≠ 0 → s.scalar ≠ 1 → s.opnd ≠ 0 →
      (∀ lx la v, s.logTbl.read s.opnd = some lx → s.logTbl.read s.scalar = some la →
        s.expTbl.read (BitVec.ofNat 16 ((lx.toNat + la.toNat) % 65535)) = some v →
        p = v ∧ ta.draws = s.draws ∧ tc.draws = s.draws) ∧
      ((s.logTbl.read s.opnd = none ∨ s.logTbl.read s.scalar = none ∨
        (∃ lx la, s.logTbl.read s.opnd = some lx ∧ s.logTbl.read s.scalar = some la ∧
          s.expTbl.read (BitVec.ofNat 16 ((lx.toNat + la.toNat) % 65535)) = none)) →
        p = freeElem s.draws ∧ ta.draws = s.draws + 1 ∧ tc.draws = s.draws + 1))

/-- The shuffle MULE commands complete wherever their engine is present, and both widths write the same product: 0 for
the scalar 0, the operand for the scalar 1, and else, on loaded tables, the XOR of the table products of the operand's
nibbles, or bytes, each in its place, never the remainder path (42_table_shuffle.md R191 to R193, R197). It is about
MULE.ASG.SHUFN, MULE.ACC.SHUFN, MULE.ASG.SHUFW and MULE.ACC.SHUFW. That a MULE makes the latched copies is read from
R46 (entry 17); that the rest of the hidden state stays is the model's choice (entry 24). -/
def Obligations.MuleShuffleCombinesPartialProducts : Prop :=
  ∀ (e : Engine) (g : Gran) (s : State), e = .shufN ∨ e = .shufW → present s.params e = true →
    ∃ (p : Elem) (ta tc : State),
      exec (mulInstr .mule .assign (.named e) g) s = .next ta ∧ MuleEnds s ta .assign e g p ∧
      exec (mulInstr .mule .accumulate (.named e) g) s = .next tc ∧
      MuleEnds s tc .accumulate e g (s.result ^^^ p) ∧ ta.am = s.am ∧ tc.am = s.am ∧
      (s.scalar = 0 → p = 0) ∧
      (s.scalar = 1 → p = s.opnd) ∧
      (s.scalar ≠ 0 → s.scalar ≠ 1 → TablesLoaded s →
        ta.draws = s.draws ∧ tc.draws = s.draws ∧
        (g = .nibble → p = tableProduct s (s.opnd &&& 0x000F) s.scalar ^^^ tableProduct s (s.opnd &&& 0x00F0) s.scalar ^^^
          tableProduct s (s.opnd &&& 0x0F00) s.scalar ^^^ tableProduct s (s.opnd &&& 0xF000) s.scalar) ∧
        (g = .byte → p = tableProduct s (s.opnd &&& 0x00FF) s.scalar ^^^ tableProduct s (s.opnd &&& 0xFF00) s.scalar))

/-- MULE.ASG.AUTO and MULE.ACC.AUTO complete in every state, as the command that names the engine the dispatcher picks
for a 2-byte region (40_commands.md R133, R141). That a MULE makes the latched copies is read from R46 (entry 17);
that the rest of the hidden state stays is the model's choice (entry 24). -/
def Obligations.MuleAutoRunsTheSelectedEngine : Prop :=
  ∀ (g : Gran) (s : State),
    (∃ t r, exec (.muleAsgAuto g) s = .next t ∧ exec (mulInstr .mule .assign (.named (select s 2)) g) s = .next t ∧
      MuleEnds s t .assign (select s 2) g r) ∧
    (∃ t r, exec (.muleAccAuto g) s = .next t ∧ exec (mulInstr .mule .accumulate (.named (select s 2)) g) s = .next t ∧
      MuleEnds s t .accumulate (select s 2) g r)

/-! ## MULR acceptance (40_commands.md R136) -/

/-- A MULR that names a present engine is accepted where its checks pass: LEN is even, neither region leaves the address
space, and the regions do not partially overlap. BUSY is set, DONE and ERR stay, the operands are latched, K is 0, and
no byte of memory changes (40_commands.md R136, 10_state.md R46). It is about MULR.ASG and MULR.ACC with each of LOG,
SHUFN, SHUFW, CLMUL and AFFINE. The chunk width is 2 bytes for LOG and the engine's parameter for each other (R142). The
field `raced` is the model's (entry 10). -/
def Obligations.MulrWithLegalOperandsIsAccepted : Prop :=
  ∀ (m : Mode) (e : Engine) (g : Gran) (s : State), present s.params e = true → LenEven s → InAddressSpace s →
    NoPartialOverlap s →
    ∃ t, exec (mulInstr .mulr m (.named e) g) s = .next t ∧ MulrStarts s t m e g ∧
      (e = .log → t.latched.vw = 2) ∧
      (e = .shufN → t.latched.vw = s.params.vwShufN) ∧
      (e = .shufW → t.latched.vw = s.params.vwShufW) ∧
      (e = .affine → t.latched.vw = s.params.vwAffine) ∧
      (e = .clmul → t.latched.vw = s.params.vwClmul)

/-- MULR.ASG.AUTO and MULR.ACC.AUTO are accepted on the engine the dispatcher picks for LEN, as the command that names
it (40_commands.md R131, R133, R136). The field `raced` is the model's (entry 10). -/
def Obligations.MulrAutoIsAcceptedOnTheSelectedEngine : Prop :=
  ∀ (g : Gran) (s : State), LenEven s → InAddressSpace s → NoPartialOverlap s →
    (∃ t, exec (.mulrAsgAuto g) s = .next t ∧ exec (mulInstr .mulr .assign (.named (select s s.len)) g) s = .next t ∧
      MulrStarts s t .assign (select s s.len) g) ∧
    (∃ t, exec (.mulrAccAuto g) s = .next t ∧ exec (mulInstr .mulr .accumulate (.named (select s s.len)) g) s = .next t ∧
      MulrStarts s t .accumulate (select s s.len) g)

/-- Acceptance builds the derived state of its engine: for the scalars 0 and 1 nothing; for AFFINE the 16 columns a,
ax, ax^2, ...; for the shuffle engines, on loaded tables, every entry of DT the table product of its index in its
place; for the others nothing (40_commands.md R143, 42_table_shuffle.md R191, R192, 43_affine.md R221). That DT and AM
stay where the command does not fill them is the model's choice (entry 24). -/
def Obligations.AcceptanceBuildsTheDerivedState : Prop :=
  ∀ (m : Mode) (e : Engine) (g : Gran) (s : State), present s.params e = true → LenEven s → InAddressSpace s →
    NoPartialOverlap s →
    ∃ t, exec (mulInstr .mulr m (.named e) g) s = .next t ∧
      (s.scalar = 0 ∨ s.scalar = 1 ∨ e = .log ∨ e = .clmul → t.dt = s.dt ∧ t.am = s.am) ∧
      (s.scalar ≠ 0 → s.scalar ≠ 1 → e = .affine →
        t.dt = s.dt ∧ t.am.length = 16 ∧ t.am.getD 0 0 = s.scalar ∧
        ∀ j < 15, t.am.getD (j + 1) 0 = xtime s.params.poly (t.am.getD j 0)) ∧
      (s.scalar ≠ 0 → s.scalar ≠ 1 → e = .shufN ∨ e = .shufW → TablesLoaded s →
        t.am = s.am ∧ t.draws = s.draws ∧
        (g = .nibble → ∀ k < 4, ∀ n < 16, dtEntry t.dt k n = tableProduct s (BitVec.ofNat 16 (n <<< (4 * k))) s.scalar) ∧
        (g = .byte → ∀ k < 2, ∀ n < 256, dtEntry t.dt k n = tableProduct s (BitVec.ofNat 16 (n <<< (8 * k))) s.scalar))

/-- A MULR whose engine selection resolves, AUTO to the dispatcher's choice or a name to its present engine, but whose
operands fail a check is rejected with the first failing check of ODD_LEN, RANGE, OVERLAP: only ERR, ERR_CODE and
LAST_ENGINE, the resolved engine, are written (40_commands.md R133, R136; 60_exceptions.md R302, R303; 20_memory.md
R71, R85). -/
def Obligations.MulrWithIllegalOperandsIsRejectedInOrder : Prop :=
  ∀ (m : Mode) (sel : EngSel) (e : Engine) (g : Gran) (s : State),
    (sel = .auto ∧ e = select s s.len) ∨ (sel = .named e ∧ present s.params e = true) →
    let rejected := fun c : BitVec 4 =>
      { s with status := { s.status with busy := false, err := true, errCode := c, lastEngine := e.code } }
    (¬ LenEven s → exec (mulInstr .mulr m sel g) s = .next (rejected 5)) ∧
    (LenEven s → ¬ InAddressSpace s → exec (mulInstr .mulr m sel g) s = .next (rejected 6)) ∧
    (LenEven s → InAddressSpace s → ¬ NoPartialOverlap s → exec (mulInstr .mulr m sel g) s = .next (rejected 7))

/-! ## Field arithmetic and the engines (00_scope.md R11 to R16; 41 to 44) -/

/-- The carry-less product is commutative and its bit 31 is 0 (00_scope.md R11). -/
def Obligations.CarrylessProductCommutesWithinThirtyOneBits : Prop :=
  ∀ a b : Elem, clmul16 a b = clmul16 b a ∧ (clmul16 a b).getLsbD 31 = false

/-- The reduction gives the unique remainder below degree 16, for every polynomial of degree 16 (00_scope.md R12). -/
def Obligations.ReductionIsTheUniqueRemainder : Prop :=
  ∀ (poly : BitVec 17) (p : BitVec 32), poly.getLsbD 16 = true →
    (∃ q : Elem, p = polyMultiple poly q ^^^ (polyred poly p).setWidth 32) ∧
    (∀ q r : Elem, p = polyMultiple poly q ^^^ r.setWidth 32 → r = polyred poly p)

/-- The laws of the field product, for every polynomial of degree 16 (00_scope.md R13). -/
def Obligations.FieldProductLaws : Prop :=
  ∀ (poly : BitVec 17), poly.getLsbD 16 = true →
    (∀ a b, gfmul poly a b = polyred poly (clmul16 a b)) ∧
    (∀ a b, gfmul poly a b = gfmul poly b a) ∧
    (∀ a b c, gfmul poly (gfmul poly a b) c = gfmul poly a (gfmul poly b c)) ∧
    (∀ a b c, gfmul poly a (b ^^^ c) = gfmul poly a b ^^^ gfmul poly a c) ∧
    (∀ a, gfmul poly a 0 = 0) ∧ (∀ a, gfmul poly a 1 = a)

/-- The affine engine's matrix multiplies by its scalar: its columns are the products by the powers of x, and its
element function is the field product, as the carry-less engine's is, for every table content (43_affine.md R221,
R222, R226; 44_clmul.md R245). -/
def Obligations.AffineMatrixGivesTheFieldProduct : Prop :=
  ∀ (poly : BitVec 17) (a : Elem), poly.getLsbD 16 = true →
    (∀ j < 16, (buildAM poly a).getD j 0 = gfmul poly a (BitVec.twoPow 16 j)) ∧
    (∀ s, fAff (buildAM poly a) s = gfmul poly s a ∧ fClmul poly s a = gfmul poly s a)

/-- On consistent tables the table product is the field product, for every pair of elements (41_log_table_unit.md
R175). That P_POLY has degree 16 is part of every legal parameter set (00_scope.md R6). -/
def Obligations.ConsistentTablesGiveTheFieldProduct : Prop :=
  ∀ (poly : BitVec 17) (logT expT : Table), poly.getLsbD 16 = true → TablesConsistent poly logT expT →
    ∀ (x a : Elem) (d : Nat), logmul logT expT x a d = (gfmul poly x a, d)

/-- On consistent tables every entry of DT is the field product of its index in its place, so the shuffle element
function is the field product, in both granularities (42_table_shuffle.md R198). -/
def Obligations.ShuffleOnConsistentTablesGivesTheFieldProduct : Prop :=
  ∀ (s : State) (g : Gran) (a : Elem) (d : Nat), s.params.polyMonic = true →
    TablesConsistent s.params.poly s.logTbl s.expTbl →
    (buildDT s g a d).2 = d ∧
    (g = .nibble → ∀ k < 4, ∀ n < 16,
      dtEntry (buildDT s g a d).1 k n = gfmul s.params.poly (BitVec.ofNat 16 (n <<< (4 * k))) a) ∧
    (g = .byte → ∀ k < 2, ∀ n < 256,
      dtEntry (buildDT s g a d).1 k n = gfmul s.params.poly (BitVec.ofNat 16 (n <<< (8 * k))) a) ∧
    ∀ x, fShuf g (buildDT s g a d).1 x = gfmul s.params.poly x a

/-- The element product. On every table content: for the scalar 0 it is 0, for the scalar 1 the element; else for LOG,
and for a shuffle engine in a partial chunk, the table product of the stored entries, and for a shuffle engine in a full
chunk the XOR of the entries of DT that the element's nibbles, or bytes, name (40_commands.md R138, R140;
41_log_table_unit.md R171; 42_table_shuffle.md R193, R194). The central contract: with the derived state its command
builds it is the field product, in a full and in a partial chunk, on every engine where the tables it reads are
consistent, and so on AFFINE and CLMUL, and for the scalars 0 and 1, on every table content (40_commands.md R139;
43_affine.md R220, R226; 44_clmul.md R240, R245; 00_scope.md R4). The count of free values drawn is the model's (entry
7). -/
def Obligations.EveryEngineGivesTheFieldProduct : Prop :=
  ∀ (s : State) (e : Engine) (a x : Elem) (part : Bool) (d : Nat),
    (a = 0 → prod s e x a part d = (0, d)) ∧
    (a = 1 → prod s e x a part d = (x, d)) ∧
    (a ≠ 0 → a ≠ 1 → e = .log ∨ ((e = .shufN ∨ e = .shufW) ∧ part = true) →
      prod s e x a part d = logmul s.logTbl s.expTbl x a d) ∧
    (a ≠ 0 → a ≠ 1 → e = .shufN ∨ e = .shufW → part = false →
      let n := x.toNat
      let entry := dtEntry s.dt
      (s.latched.gran = .nibble → prod s e x a part d =
        (entry 0 (n % 16) ^^^ entry 1 (n / 16 % 16) ^^^ entry 2 (n / 256 % 16) ^^^ entry 3 (n / 4096), d)) ∧
      (s.latched.gran = .byte → prod s e x a part d = (entry 0 (n % 256) ^^^ entry 1 (n / 256), d))) ∧
    (s.params.polyMonic = true → ConsistentWhereRead s e a →
      prod (buildDerived e s.latched.gran a s) e x a part d = (gfmul s.params.poly x a, d))

/-- On every engine that is present a MULE leaves the field product in RESULT, in every mode and granularity, where the
tables it reads are consistent (40_commands.md R139, R141). -/
def Obligations.MuleIsTheSameOnEveryEngine : Prop :=
  ∀ (s : State) (m : Mode) (e : Engine) (g : Gran), s.params.polyMonic = true →
    ConsistentWhereRead s e s.scalar → present s.params e = true →
    ∃ t, exec (mulInstr .mule m (.named e) g) s = .next t ∧
      t.result = match m with
        | .assign => gfmul s.params.poly s.opnd s.scalar
        | .accumulate => s.result ^^^ gfmul s.params.poly s.opnd s.scalar

/-! ## The unit's steps (40_commands.md R142 to R146; 60_exceptions.md R304) -/

/-- A chunk whose accesses are all answered with ok, whatever memory answers elsewhere, and race with no ended command:
every element of the chunk holds its result, every byte outside the chunk of the destination is unchanged, K moves past
the chunk, and nothing else changes (40_commands.md R137, R142, R146; 20_memory.md R72, R82, R84). That a whole chunk is
one step is entry 9. R137 gives the result where no agent has raced with the command; that memory holds it at this step
also where one has, the free values of 20_memory.md R83 coming at the command's end, is the model's choice (entry 10).
What a race with an ended command leaves is `RacingAccessesAreMarkedAndReadFreeBytes` (entry 26). -/
def Obligations.ChunkStepWritesEveryResult : Prop :=
  ∀ s : State, Inv s → s.status.busy = true → s.k < s.latched.len.toNat →
    OffWindow s (ChunkAccesses s) → AllAnswered s (ChunkAccesses s) → NoFreeProducts s → NoLateRace s s.latched →
    ∃ t, unitStep s = .next t ∧ t = { s with mem := t.mem, k := t.k } ∧
      t.k = s.k + min s.latched.vw (s.latched.len.toNat - s.k) ∧
      (∀ o, s.k ≤ o → o < t.k → o % 2 = 0 →
        readElem t.mem (s.latched.dst.toNat + o) =
          latchedResult s (readElem s.mem (s.latched.src.toNat + o)) (readElem s.mem (s.latched.dst.toNat + o))
            (partialAt s o)) ∧
      (∀ a, a < s.latched.dst.toNat + s.k ∨ s.latched.dst.toNat + t.k ≤ a → readByte t.mem a = readByte s.mem a)

/-- The accesses of a chunk: for the scalar 0 in ACCUMULATE none; for the scalar 0 in ASSIGN no read and one write of
each destination element; else one read of each source element, in ACCUMULATE one of each destination element too, and
one write of each destination element. Each lies in its region (20_memory.md R75, 40_commands.md R140). -/
def Obligations.ChunkAccessesStayInTheirRegions : Prop :=
  ∀ s : State, Inv s → s.status.busy = true →
    let offsets := (List.range (min s.latched.vw (s.latched.len.toNat - s.k) / 2)).map fun j => s.k + 2 * j
    let fromSrc := offsets.map fun o => s.latched.src.toNat + o
    let atDst := offsets.map fun o => s.latched.dst.toNat + o
    (s.latched.scalar = 0 → s.latched.mode = .accumulate → chunkReads s = [] ∧ chunkWrites s = []) ∧
    (s.latched.scalar = 0 → s.latched.mode = .assign → chunkReads s = [] ∧ chunkWrites s = atDst) ∧
    (s.latched.scalar ≠ 0 → s.latched.mode = .assign → chunkReads s = fromSrc ∧ chunkWrites s = atDst) ∧
    (s.latched.scalar ≠ 0 → s.latched.mode = .accumulate → chunkReads s = fromSrc ++ atDst ∧ chunkWrites s = atDst) ∧
    (∀ o ∈ offsets, o + 2 ≤ s.latched.len.toNat) ∧ offsets.Nodup

/-- The unit step that finds K at the length completes the command: BUSY is cleared, DONE is set, ERR_CODE is 0, and
nothing else of the block changes (40_commands.md R144). The end raises the interrupt where it was low and IE_DONE is 1
(10_state.md R45, 20_memory.md R81). That the hidden state stays, and the list of unobserved ends, are the model's
(entries 24 and 26). -/
def Obligations.CompletionSetsDone : Prop :=
  ∀ s : State, s.k = s.latched.len.toNat → s.raced = false →
    unitStep s = .next { s with
      status := { s.status with busy := false, done := true, errCode := 0 }
      unobserved := { span := latchedSpan s.latched, raised := s.ctrl.ieDone && !s.irq } :: s.unobserved }

/-- A read of the chunk that is answered with a bus error ends the command with BUS: FAULT holds the address of one
faulting read of the chunk, which one is left open, and no byte of memory changes but those of an ended command that the
chunk's reads race with (60_exceptions.md R302, R304; 70_reset_and_hazards.md R346). The choice is free (entry 11); that
the hidden state stays, and the list of unobserved ends, are the model's (entries 24 and 26). -/
def Obligations.FaultingReadEndsTheCommand : Prop :=
  ∀ s : State, Inv s → s.status.busy = true → s.k < s.latched.len.toNat → s.raced = false →
    OffWindow s (ChunkAccesses s) → (∀ x, ChunkAccesses s false x → byteAnswer s false x ≠ .silent) →
    (∃ a ∈ chunkReads s, elemFaults s false a = true) →
    ∃ t a, unitStep s = .next t ∧ a ∈ chunkReads s ∧ elemFaults s false a = true ∧ t.fault.toNat = a ∧
      t.status = { s.status with busy := false, err := true, errCode := 8 } ∧
      t = { s with
        status := t.status, fault := t.fault, draws := t.draws, mem := t.mem, unobserved := t.unobserved } ∧
      (∀ x, readByte t.mem x ≠ readByte s.mem x → ∃ p ∈ endedSpans s, ChunkReadTouches p s ∧ InDst p x) ∧
      (NoLateRace s s.latched → t.mem = s.mem)

/-- A write of the chunk that is answered with a bus error, its reads being answered and no access racing with an ended
command, ends the command with BUS: FAULT holds the address of one faulting write; each destination byte of the chunk
holds its old value or the byte of its result; every other byte of memory is unchanged (60_exceptions.md R302, R304).
Which write, and which bytes, are free choices (entry 11); that the hidden state stays, and the list of unobserved ends,
are the model's (entries 24 and 26). -/
def Obligations.FaultingWriteTearsOnlyItsChunk : Prop :=
  ∀ s : State, Inv s → s.status.busy = true → s.k < s.latched.len.toNat → s.raced = false →
    OffWindow s (ChunkAccesses s) → NoneSilent s (ChunkAccesses s) → NoFreeProducts s → NoLateRace s s.latched →
    (∀ a ∈ chunkReads s, elemFaults s false a = false) →
    (∃ a ∈ chunkWrites s, elemFaults s true a = true) →
    ∃ t a, unitStep s = .next t ∧ a ∈ chunkWrites s ∧ elemFaults s true a = true ∧ t.fault.toNat = a ∧
      t.status = { s.status with busy := false, err := true, errCode := 8 } ∧
      t = { s with
        status := t.status, fault := t.fault, draws := t.draws, mem := t.mem, unobserved := t.unobserved } ∧
      (∀ o, s.k ≤ o → o < s.k + chunkLen s → o % 2 = 0 →
        let r := latchedResult s (readElem s.mem (s.latched.src.toNat + o)) (readElem s.mem (s.latched.dst.toNat + o))
          (partialAt s o)
        let d := s.latched.dst.toNat + o
        (readByte t.mem d = readByte s.mem d ∨ readByte t.mem d = r.extractLsb' 0 8) ∧
        (readByte t.mem (d + 1) = readByte s.mem (d + 1) ∨ readByte t.mem (d + 1) = r.extractLsb' 8 8)) ∧
      (∀ a, a < s.latched.dst.toNat + s.k ∨ s.latched.dst.toNat + s.k + chunkLen s ≤ a →
        readByte t.mem a = readByte s.mem a)

/-- A running command ends, by completing or by a bus error, within one unit step for each chunk left and one more,
where every access it has still to make is answered and no agent interferes (70_reset_and_hazards.md R351). With no
event waiting, each step is the unit's (entry 8). -/
def Obligations.RunningCommandEndsInBoundedSteps : Prop :=
  ∀ s : State, Inv s → s.status.busy = true → s.inputs = [] →
    OffWindow s (CommandAccesses s.latched s.k) → NoneSilent s (CommandAccesses s.latched s.k) →
    ∃ n ≤ (s.latched.len.toNat - s.k + s.latched.vw - 1) / s.latched.vw + 1, ∃ t,
      Host.Core.run Sys2Proof.core n s = .next t ∧ t.status.busy = false ∧
      ((t.status.done = true ∧ t.status.errCode = 0) ∨ (t.status.err = true ∧ t.status.errCode = 8))

/-- A command that starts a region and runs undisturbed, each of its own accesses answered with ok and racing with no
ended command, leaves its result in every
element of the destination and every other byte of memory as it was, in as many unit steps as the region has chunks and
one more (40_commands.md R137, R144, R146; 70_reset_and_hazards.md R351). With no event waiting, each step is the unit's
(entry 8). That the hidden state (the latched copies, DT, AM, and K at the length) stays after the end is the model's
choice (entry 24), and so is the list of unobserved ends (entry 26). -/
def Obligations.CompletedRegionHoldsEveryResult : Prop :=
  ∀ s : State, Inv s → s.status.busy = true → s.k = 0 → s.raced = false → s.inputs = [] →
    OffWindow s (CommandAccesses s.latched 0) → AllAnswered s (CommandAccesses s.latched 0) → NoFreeProducts s →
    NoLateRace s s.latched →
    ∃ t, Host.Core.run Sys2Proof.core (chunkCount s + 1) s = .next t ∧
      t.status = { s.status with busy := false, done := true, errCode := 0 } ∧
      t = { s with status := t.status, mem := t.mem, k := s.latched.len.toNat, unobserved := t.unobserved } ∧
      (∀ o, o < s.latched.len.toNat → o % 2 = 0 →
        readElem t.mem (s.latched.dst.toNat + o) =
          latchedResult s (readElem s.mem (s.latched.src.toNat + o)) (readElem s.mem (s.latched.dst.toNat + o))
            (partialAt s o)) ∧
      (∀ a, a < s.latched.dst.toNat ∨ s.latched.dst.toNat + s.latched.len.toNat ≤ a →
        readByte t.mem a = readByte s.mem a)

/-- The central contract: a MULR that names a present engine and passes its checks, and runs undisturbed, each of its
own accesses answered with ok and racing with no ended command, leaves the field product of every source element (in
ACCUMULATE, XORed into the old destination element) in the destination, whichever engine runs it, and every other byte
of memory as it was. LOG and the shuffle engines need consistent tables for it, where the scalar is neither 0 nor 1; on
AFFINE and CLMUL, and for those scalars, it holds whatever the tables hold (40_commands.md R136, R137, R139, R140, R144;
43_affine.md R224; 44_clmul.md R243; 70_reset_and_hazards.md R344; 00_scope.md R4). With no event waiting, each step is
the unit's (entry 8). -/
def Obligations.RegionMultiplyGivesTheFieldProducts : Prop :=
  ∀ (m : Mode) (e : Engine) (g : Gran) (s : State), Inv s → Ready s → s.inputs = [] →
    let l : Latched := ⟨s.src, s.dst, s.len, s.scalar, m, e, g, chunkWidth s.params e⟩
    OffWindow s (CommandAccesses l 0) → AllAnswered s (CommandAccesses l 0) →
    ConsistentWhereRead s e s.scalar → present s.params e = true → LenEven s → InAddressSpace s →
    NoPartialOverlap s → NoLateRace s l →
    ∃ t u, exec (mulInstr .mulr m (.named e) g) s = .next t ∧
      Host.Core.run Sys2Proof.core
        ((s.len.toNat + chunkWidth s.params e - 1) / chunkWidth s.params e + 1) t = .next u ∧
      u.status = { s.status with busy := false, done := true, errCode := 0, lastEngine := e.code } ∧
      (∀ o, o < s.len.toNat → o % 2 = 0 →
        readElem u.mem (s.dst.toNat + o) =
          match m with
          | .assign => gfmul s.params.poly (readElem s.mem (s.src.toNat + o)) s.scalar
          | .accumulate => readElem s.mem (s.dst.toNat + o) ^^^
              gfmul s.params.poly (readElem s.mem (s.src.toNat + o)) s.scalar) ∧
      (∀ a, a < s.dst.toNat ∨ s.dst.toNat + s.len.toNat ≤ a → readByte u.mem a = readByte s.mem a)

/-! ## The register port (10_state.md R20 to R44) -/

/-- A write to a plain read/write register reads back on its implemented bits, the others reading 0, and changes no
other register, whether or not the block is busy (10_state.md R20, R23, R31 to R36, R41, R52). A read answers the value
of the register's own field, the one that commands use: RESULT, SCALAR and OPND zero-extended, SRC, DST and FAULT as
their two halves, THRESH and LEN as they are, IDX and SEL of TBL_ADDR, and the three bits of CTRL (R23, R31 to R37, R39,
R41). And an aligned 32-bit access at an offset from P_BASE reaches the register that the map of R20 gives that offset:
the step of a write is the register's write, the step of a read answers its value and has the read's effect, which for
STATUS with BUSY = 0 is to observe the ended commands (70_reset_and_hazards.md R345). The event list, `reply` and the
list of unobserved ends are the model's (entries 8, 15 and 26). -/
def Obligations.WrittenRegisterReadsBack : Prop :=
  (∀ (s : State) (r : Reg) (w mask : Word), s.params.awLegal = true → s.src.toNat < 2 ^ s.params.aw →
    s.dst.toNat < 2 ^ s.params.aw → implementedBits s.params r = some mask →
    ∃ t, writeReg r w s = .next t ∧ (readReg r t).1 = w &&& mask ∧
      ∀ r', r' ≠ r → r' ≠ .tblData → (readReg r' t).1 = (readReg r' s).1) ∧
  (∀ s : State,
    let value := fun r => (readReg r s).1
    (value .result).toNat = s.result.toNat ∧ (value .scalar).toNat = s.scalar.toNat ∧
    (value .opnd).toNat = s.opnd.toNat ∧ value .thresh = s.thresh ∧ value .len = s.len ∧
    value .srcHi ++ value .srcLo = s.src ∧ value .dstHi ++ value .dstLo = s.dst ∧
    value .faultHi ++ value .faultLo = s.fault ∧
    (value .tblAddr).toNat = s.tblAddr.idx.toNat + 65536 * s.tblAddr.sel.toNat ∧
    (value .ctrl).toNat = s.ctrl.ieDone.toNat + 2 * s.ctrl.ieErr.toNat + 4 * s.ctrl.slowWide.toNat) ∧
  (∀ (s : State) (off : Nat) (r : Reg) (es : List Event), s.inReset = false →
    (off, r) ∈ [(0x000, Reg.cap), (0x004, .poly), (0x008, .ctrl), (0x00C, .status), (0x010, .thresh), (0x014, .srcLo),
      (0x018, .srcHi), (0x01C, .dstLo), (0x020, .dstHi), (0x024, .len), (0x028, .scalar), (0x02C, .opnd),
      (0x030, .result), (0x034, .cmd), (0x038, .faultLo), (0x03C, .faultHi), (0x040, .tblAddr), (0x044, .tblData)] ∨
      (r = .reserved ∧ 0x048 ≤ off ∧ off < 0x100 ∧ off % 4 = 0) →
    let addr := s.params.base + BitVec.ofNat 64 off
    (∀ w, s.inputs = .portWrite addr .w32 w :: es → step s = writeReg r w { s with inputs := es, reply := .written }) ∧
    (s.inputs = .portRead addr .w32 :: es →
      step s = .next { (readReg r s).2 with
        inputs := es
        reply := .data (readReg r s).1
        unobserved := if r = .status ∧ s.status.busy = false then [] else s.unobserved }))

/-- A read of any register but TBL_DATA changes nothing; CMD and the reserved offsets read 0; a write to a read-only
or reserved register changes nothing (10_state.md R20, R38, R43; 20_memory.md R77). -/
def Obligations.ReadsHaveNoSideEffectsButTableData : Prop :=
  (∀ (s : State) (r : Reg), r ≠ .tblData → (readReg r s).2 = s) ∧
  (∀ s : State, (readReg .cmd s).1 = 0 ∧ (readReg .reserved s).1 = 0) ∧
  (∀ (s : State) (r : Reg) (w : Word), r ∈ [Reg.cap, .poly, .result, .faultLo, .faultHi, .reserved] →
    writeReg r w s = .next s) ∧
  (∀ off, 0x48 ≤ off → off < 0x100 → regAt off = .reserved)

/-- CAP shows which engines are present and has no other bit, POLY is the polynomial, and no step changes either
(10_state.md R21, R22). -/
def Obligations.CapabilityAndPolynomialAreConstants : Prop :=
  (∀ (s : State) (e : Engine), (readReg .cap s).1.getLsbD (e.code.toNat - 1) = present s.params e) ∧
  (∀ (s : State) (i : Nat), 5 ≤ i → (readReg .cap s).1.getLsbD i = false) ∧
  (∀ s : State, (readReg .poly s).1.toNat = s.params.poly.toNat) ∧
  (∀ s t : State, step s = .next t →
    (readReg .cap t).1 = (readReg .cap s).1 ∧ (readReg .poly t).1 = (readReg .poly s).1)

/-- STATUS holds BUSY, DONE, ERR, OVR in bits 0 to 3, ERR_CODE in bits 11:8, LAST_ENGINE in bits 14:12 and 0 in the
others; a write clears each of DONE, ERR and OVR that it has at 1 and changes nothing else (10_state.md R24). That a
fall of the interrupt is noted beside the ended commands is the model's (entry 26). -/
def Obligations.StatusWriteClearsExactlyItsBits : Prop :=
  (∀ s : State, (readReg .status s).1.toNat =
    s.status.busy.toNat + 2 * s.status.done.toNat + 4 * s.status.err.toNat + 8 * s.status.ovr.toNat +
      256 * s.status.errCode.toNat + 4096 * s.status.lastEngine.toNat) ∧
  (∀ (s : State) (w : Word), ∃ t, writeReg .status w s = .next t ∧
    t = { s with
      status := t.status
      unobserved := s.unobserved.map fun p => { p with raised := p.raised && t.irq } } ∧
    (readReg .status t).1 = (readReg .status s).1 &&& ~~~(w &&& 0xE))

/-- TBL_DATA: a write while idle sets the entry that TBL_ADDR names to w[15:0], leaves every other entry of both
tables, and advances IDX modulo 65536 with SEL kept; a write while busy only sets OVR; a read returns the entry,
zero-extended (a free value where no write has set it), and advances IDX, busy or not (10_state.md R42). The form of
the free value is the model's (entries 6 and 7). -/
def Obligations.TableDataPortReadsAndWritesEntries : Prop :=
  (∀ (s : State) (w : Word), s.status.busy = false →
    ∃ t, writeReg .tblData w s = .next t ∧
      t = { s with logTbl := t.logTbl, expTbl := t.expTbl, tblAddr := t.tblAddr } ∧
      t.tblAddr.sel = s.tblAddr.sel ∧ t.tblAddr.idx.toNat = (s.tblAddr.idx.toNat + 1) % 65536 ∧
      (s.tblAddr.sel = false → t.expTbl = s.expTbl ∧
        ∀ i, t.logTbl.read i = if i = s.tblAddr.idx then some (w.setWidth 16) else s.logTbl.read i) ∧
      (s.tblAddr.sel = true → t.logTbl = s.logTbl ∧
        ∀ i, t.expTbl.read i = if i = s.tblAddr.idx then some (w.setWidth 16) else s.expTbl.read i)) ∧
  (∀ (s : State) (w : Word), s.status.busy = true →
    writeReg .tblData w s = .next { s with status := { s.status with ovr := true } }) ∧
  (∀ (s : State) (table : Table), table = (if s.tblAddr.sel then s.expTbl else s.logTbl) →
    (readReg .tblData s).2.tblAddr.sel = s.tblAddr.sel ∧
    (readReg .tblData s).2.tblAddr.idx.toNat = (s.tblAddr.idx.toNat + 1) % 65536 ∧
    (∀ v, table.read s.tblAddr.idx = some v →
      (readReg .tblData s).1 = v.setWidth 32 ∧
      (readReg .tblData s).2 = { s with tblAddr := (readReg .tblData s).2.tblAddr }) ∧
    (table.read s.tblAddr.idx = none →
      (readReg .tblData s).1 = (freeElem s.draws).setWidth 32 ∧
      (readReg .tblData s).2 = { s with tblAddr := (readReg .tblData s).2.tblAddr, draws := s.draws + 1 }))

/-- A read or write in the window that is not both 32 bits wide and 4-byte aligned is answered with a bus error and
changes nothing of the block (10_state.md R44). The event list, and the reply `busError` for the bus error, are the
model's (entries 8 and 15). -/
def Obligations.MalformedRegisterAccessChangesNothing : Prop :=
  ∀ (s : State) (addr : Addr) (width : AccessWidth) (w : Word) (es : List Event), s.inReset = false →
    (addr - s.params.base).toNat < 256 → width ≠ .w32 ∨ (addr - s.params.base).toNat % 4 ≠ 0 →
    s.inputs = .portWrite addr width w :: es ∨ s.inputs = .portRead addr width :: es →
    step s = .next { s with inputs := es, reply := .busError }

/-- The interrupt line at every instant, and how the host moves it: a write of CTRL masks or unmasks it and leaves the
pending bits; writing 1 to the pending bits clears it (10_state.md R45, 60_exceptions.md R306). -/
def Obligations.InterruptFollowsPendingAndEnableBits : Prop :=
  (∀ s : State, s.irq = true ↔
    (s.status.done = true ∧ s.ctrl.ieDone = true) ∨ (s.status.err = true ∧ s.ctrl.ieErr = true)) ∧
  (∀ (s : State) (w : Word), ∃ t, writeReg .ctrl w s = .next t ∧ t.status = s.status ∧
    (t.irq = true ↔ (s.status.done = true ∧ w.getLsbD 0 = true) ∨ (s.status.err = true ∧ w.getLsbD 1 = true))) ∧
  (∀ s : State, ∃ t, writeReg .status 0x6 s = .next t ∧ t.ctrl = s.ctrl ∧ t.irq = false)

/-! ## Rules of the whole machine -/

/-- DONE, ERR and OVR stay set until a write of STATUS has a 1 at their bit, or reset (10_state.md R26, R27, R28). The
event list is the model's (entry 8). -/
def Obligations.StatusBitsStaySetUntilCleared : Prop :=
  ∀ s t : State, step s = .next t →
    (s.status.done = true → t.status.done = false →
      AssertsReset s ∨ ∃ w, WritesReg s .status w ∧ w.getLsbD 1 = true) ∧
    (s.status.err = true → t.status.err = false →
      AssertsReset s ∨ ∃ w, WritesReg s .status w ∧ w.getLsbD 2 = true) ∧
    (s.status.ovr = true → t.status.ovr = false →
      AssertsReset s ∨ ∃ w, WritesReg s .status w ∧ w.getLsbD 3 = true)

/-- BUSY rises only by a CMD write of a MULR, and falls only by a step of the unit or by reset (10_state.md R25). The
event list is the model's (entry 8). -/
def Obligations.OnlyAcceptedMulrSetsBusyAndOnlyTheUnitClearsIt : Prop :=
  ∀ s t : State, step s = .next t →
    (s.status.busy = false → t.status.busy = true →
      ∃ w m e g, WritesReg s .cmd w ∧ decode w = .ok (mulInstr .mulr m e g)) ∧
    (s.status.busy = true → t.status.busy = false → UnitMoves s ∨ AssertsReset s)

/-- RESULT is written only by a MULE and by reset, FAULT only by a MULR that ends with a bus error and by reset
(10_state.md R37, R39). The event list is the model's (entry 8). -/
def Obligations.ResultAndFaultHaveOneWriterEach : Prop :=
  ∀ s t : State, step s = .next t →
    (t.result ≠ s.result →
      AssertsReset s ∨ ∃ w m e g, WritesReg s .cmd w ∧ decode w = .ok (mulInstr .mule m e g) ∧ s.status.busy = false) ∧
    (t.fault ≠ s.fault →
      AssertsReset s ∨ (UnitMoves s ∧ s.status.busy = true ∧ t.status.busy = false ∧ t.status.err = true ∧
        t.status.errCode = 8))

/-- The table memories change only by a TBL_DATA write that finds the block idle, and by reset (10_state.md R40, R42;
20_memory.md R87). The event list is the model's (entry 8). -/
def Obligations.TablesChangeOnlyByAcceptedTableWrites : Prop :=
  ∀ s t : State, step s = .next t → t.logTbl ≠ s.logTbl ∨ t.expTbl ≠ s.expTbl →
    AssertsReset s ∨ (s.status.busy = false ∧ ∃ w, WritesReg s .tblData w)

/-- A byte of memory changes only by another agent's store to it; or, while a command runs, in the command's
destination range; or in the destination range of an ended command whose end no host has observed, by another agent's
store or load, or a running command's chunk, that meets that command's ranges and so races with it (20_memory.md R70,
R75, R83; 70_reset_and_hazards.md R341, R346). The event list and the list of unobserved ends are the model's (entries 8
and 26). -/
def Obligations.MemoryChangesOnlyInTheDestinationOrByAStore : Prop :=
  ∀ (s t : State) (a : Nat), step s = .next t → readByte t.mem a ≠ readByte s.mem a →
    (∃ b bs es, s.inputs = .memStore b bs :: es ∧ b ≤ a ∧ a < b + bs.length) ∨
    (s.status.busy = true ∧ (UnitMoves s ∨ AssertsReset s) ∧ InDst (latchedSpan s.latched) a) ∨
    (∃ p ∈ endedSpans s, InDst p a ∧
      ((∃ b bs es, s.inputs = .memStore b bs :: es ∧ StoreTouches p b bs.length) ∨
        (∃ b n es, s.inputs = .memLoad b n :: es ∧ LoadTouches p b n) ∨
        (s.status.busy = true ∧ UnitMoves s ∧ ChunkTouches p s)))

/-- The invariant: legal parameters, memory and tables in their canonical forms, address registers within P_AW bits,
ERR_CODE and LAST_ENGINE values that exist, and a running command that passed the acceptance checks, with its derived
state built and K at a chunk boundary (10_state.md R29, R30, R32, R33, R39, R49, R50; 40_commands.md R136, R143).
Every step keeps it. The canonical forms and the field `raced` are the model's (entries 3, 6 and 10). -/
def Obligations.EveryStepKeepsTheInvariant : Prop :=
  ∀ s t : State, Inv s → step s = .next t → Inv t

/-- The machine right after reset meets the invariant (10_state.md R51; the default parameters are entry 1). -/
def Obligations.ResetMeetsTheInvariant : Prop := Inv State.reset

/-! ## Reset, races, and the other agents -/

/-- Reset gives every register its reset value at once: the enables, STATUS and the operand and result registers 0,
THRESH and SLOW_WIDE their parameters; the tables become unwritten; IRQ is 0; with no command running, memory is
unchanged (10_state.md R51, 70_reset_and_hazards.md R340). The event list is the model's (entry 8). -/
def Obligations.ResetLoadsEveryResetValue : Prop :=
  ∀ (s : State) (es : List Event), s.inputs = .resetAssert :: es →
    ∃ t, step s = .next t ∧ t.params = s.params ∧ t.inputs = es ∧ t.inReset = true ∧
      (readReg .ctrl t).1 = (if s.params.slowWide then 4 else 0) ∧ (readReg .status t).1 = 0 ∧
      t.thresh = s.params.slowShufThreshold ∧ t.src = 0 ∧ t.dst = 0 ∧ t.len = 0 ∧ t.scalar = 0 ∧ t.opnd = 0 ∧
      t.result = 0 ∧ t.fault = 0 ∧ (readReg .tblAddr t).1 = 0 ∧ t.irq = false ∧
      (∀ i, t.logTbl.read i = none ∧ t.expTbl.read i = none) ∧
      (s.status.busy = false → t.mem = s.mem)

/-- Reset while a command runs: every destination byte from K on takes a free value; bytes of completed chunks, and
every byte outside the destination, stay (70_reset_and_hazards.md R341; the free values are entry 12). The event list
is the model's (entry 8). -/
def Obligations.ResetDuringACommandFreesItsUnfinishedBytes : Prop :=
  ∀ (s : State) (es : List Event), Inv s → s.status.busy = true → s.raced = false →
    s.inputs = .resetAssert :: es →
    ∃ t, step s = .next t ∧ t.status.busy = false ∧ t.status.done = false ∧ t.status.err = false ∧ t.fault = 0 ∧
      (∀ j < s.latched.len.toNat - s.k,
        readByte t.mem (s.latched.dst.toNat + s.k + j) = freeByte (s.draws + j)) ∧
      (∀ a, a < s.latched.dst.toNat + s.k ∨ s.latched.dst.toNat + s.latched.len.toNat ≤ a →
        readByte t.mem a = readByte s.mem a)

/-- While reset is asserted, a register access is refused by name, since the spec leaves it to the platform
(70_reset_and_hazards.md R340; 93_implementation_defined.md U12; entry 13). The event list is the model's (entry 8). -/
def Obligations.RegisterAccessDuringResetIsRefused : Prop :=
  ∀ (s : State) (addr : Addr) (width : AccessWidth) (w : Word) (es : List Event), s.inReset = true →
    (addr - s.params.base).toNat < 256 →
    s.inputs = .portWrite addr width w :: es ∨ s.inputs = .portRead addr width :: es →
    step s = .refused .accessDuringReset

/-- A chunk one of whose accesses lands on the register window, on a platform that maps the window into memory, is
refused by name, as the spec says a model should (20_memory.md R78; 93_implementation_defined.md U16; entry 14). That
the refusal comes at the access is the model's choice, and so is the window's address in memory space, P_BASE (entry
29). -/
def Obligations.RegionOverTheWindowIsRefused : Prop :=
  ∀ (s : State) (a : Nat), s.k ≠ s.latched.len.toNat → s.params.windowInMemory = true →
    a ∈ chunkReads s ∨ a ∈ chunkWrites s → a < s.params.base.toNat + 256 → s.params.base.toNat < a + 2 →
    unitStep s = .refused .windowInMemory

/-- What makes a race with a MULR, from its acceptance until its end is observed, and what it leaves. A store that meets
a command's source or destination range, and a load that meets its destination range, race with it: the running command
is marked as raced; each destination byte of an ended command takes a free value at once; each byte a load reads of any
such destination is a free value. A load of a source range alone is no race. A running command races with ended ones by
the accesses of its chunks: what it reads of their destinations is a free value, their destination bytes take other free
values, and, the chunk's accesses being answered with ok, every other byte of the chunk holds its result of what was
read (40_commands.md R137). Reading STATUS while BUSY = 0 observes the end of all that has ended; taking the interrupt
does so with IE_DONE = IE_ERR = 1, and else observes the ends that raised it, whatever BUSY is (20_memory.md R81, R83;
70_reset_and_hazards.md R345, R346, R349). That a store always lands and a load always answers, whatever `busMap` says,
is the model's choice (entry 16), and so are the event list, the mark `raced`, that memory holds a raced command's
results until it ends, and the list of unobserved ends (entries 8, 10 and 26). -/
def Obligations.RacingAccessesAreMarkedAndReadFreeBytes : Prop :=
  (∀ (s : State) (a : Nat) (bs : List Byte) (es : List Event), s.inputs = .memStore a bs :: es →
    RangeOffWindow s a bs.length → a + bs.length ≤ 2 ^ s.params.aw → s.mem.wf = true →
    let freed := fun x => ∃ p ∈ endedSpans s, StoreTouches p a bs.length ∧ InDst p x
    ∃ t, step s = .next t ∧ t.unobserved = s.unobserved ∧
      (t.raced = true ↔
        s.raced = true ∨ (s.status.busy = true ∧ StoreTouches (latchedSpan s.latched) a bs.length)) ∧
      (∀ x, freed x → ∃ d, s.draws ≤ d ∧ d < t.draws ∧ readByte t.mem x = freeByte d) ∧
      (∀ x, ¬ freed x → readByte t.mem x = readByte (writeBytes s.mem a bs) x)) ∧
  (∀ (s : State) (a n : Nat) (es : List Event), s.inputs = .memLoad a n :: es →
    RangeOffWindow s a n → a + n ≤ 2 ^ s.params.aw → s.mem.wf = true →
    let freed := fun x => ∃ p ∈ endedSpans s, LoadTouches p a n ∧ InDst p x
    ∃ t bs, step s = .next t ∧ t.unobserved = s.unobserved ∧ t.reply = .bytes bs ∧ bs.length = n ∧
      (t.raced = true ↔ s.raced = true ∨ (s.status.busy = true ∧ LoadTouches (latchedSpan s.latched) a n)) ∧
      (∀ j < n,
        ((s.status.busy = true ∧ InDst (latchedSpan s.latched) (a + j)) ∨ (∃ p ∈ endedSpans s, InDst p (a + j)) →
          ∃ d, s.draws ≤ d ∧ d < t.draws ∧ bs[j]? = some (freeByte d)) ∧
        (¬ ((s.status.busy = true ∧ InDst (latchedSpan s.latched) (a + j)) ∨ (∃ p ∈ endedSpans s, InDst p (a + j))) →
          bs[j]? = some (readByte s.mem (a + j)))) ∧
      (∀ x, freed x → ∃ d, s.draws ≤ d ∧ d < t.draws ∧ readByte t.mem x = freeByte d) ∧
      (∀ x, ¬ freed x → readByte t.mem x = readByte s.mem x)) ∧
  (∀ s : State, Inv s → s.status.busy = true → s.k < s.latched.len.toNat →
    OffWindow s (ChunkAccesses s) → AllAnswered s (ChunkAccesses s) → TablesLoaded s →
    let freed := fun x => ∃ p ∈ endedSpans s, ChunkTouches p s ∧ InDst p x
    ∃ t e, unitStep s = .next t ∧ t = { s with mem := t.mem, k := s.k + chunkLen s, draws := t.draws } ∧
      (∀ a, freed a → ∃ d, e ≤ d ∧ d < t.draws ∧ readByte t.mem a = freeByte d) ∧
      (∀ a, ¬ freed a → a < s.latched.dst.toNat + s.k ∨ s.latched.dst.toNat + t.k ≤ a →
        readByte t.mem a = readByte s.mem a) ∧
      (WritesMemory s.latched → ∀ o, s.k ≤ o → o < t.k → o % 2 = 0 → ∃ x y : Elem,
        let source := s.latched.src.toNat + o
        let target := s.latched.dst.toNat + o
        let r := latchedResult s x y (partialAt s o)
        (s.latched.scalar ≠ 0 → UnitReads s s.draws e source (x.extractLsb' 0 8) ∧
          UnitReads s s.draws e (source + 1) (x.extractLsb' 8 8)) ∧
        (s.latched.scalar ≠ 0 → s.latched.mode = .accumulate → UnitReads s s.draws e target (y.extractLsb' 0 8) ∧
          UnitReads s s.draws e (target + 1) (y.extractLsb' 8 8)) ∧
        (¬ freed target → readByte t.mem target = r.extractLsb' 0 8) ∧
        (¬ freed (target + 1) → readByte t.mem (target + 1) = r.extractLsb' 8 8))) ∧
  (∀ (s : State) (es : List Event), s.status.busy = false → s.inReset = false →
    s.inputs = .portRead (regAddr s.params .status) .w32 :: es →
    ∃ t, step s = .next t ∧ t = { s with inputs := es, reply := t.reply, unobserved := [] }) ∧
  (∀ (s : State) (es : List Event), s.inputs = .irqTaken :: es → s.irq = true →
    step s = .next { s with
      inputs := es
      unobserved := if s.ctrl.ieDone = true ∧ s.ctrl.ieErr = true then [] else s.unobserved.filter (! ·.raised) })

/-- A command another agent has raced with leaves a free value in every destination byte when it ends, by completing, by
a bus error on a read or on a write, or by reset, and changes no other byte, but where a chunk that meets the bus error
races with an ended command too. FAULT holds the address of one faulting read of the chunk, or, where no read faults, of
one faulting write, as without a race (20_memory.md R83; 60_exceptions.md R304; 70_reset_and_hazards.md R341). That the
values are drawn at the end is the model's choice (entry 10), and which access FAULT names is free (entry 11). -/
def Obligations.RacedCommandLeavesFreeBytes : Prop :=
  ∀ s : State, Inv s → s.raced = true →
    let freed := fun t : State => t.raced = false ∧ ∃ d, s.draws ≤ d ∧
      ∀ j < s.latched.len.toNat, readByte t.mem (s.latched.dst.toNat + j) = freeByte (d + j)
    let framed := fun t : State => ∀ a, a < s.latched.dst.toNat ∨ s.latched.dst.toNat + s.latched.len.toNat ≤ a →
      readByte t.mem a = readByte s.mem a
    (s.k = s.latched.len.toNat →
      ∃ t, unitStep s = .next t ∧ t.status = { s.status with busy := false, done := true, errCode := 0 } ∧
        freed t ∧ framed t) ∧
    (s.k < s.latched.len.toNat → OffWindow s (ChunkAccesses s) → NoneSilent s (ChunkAccesses s) →
      (∃ a ∈ chunkReads s, elemFaults s false a = true) ∨ (∃ a ∈ chunkWrites s, elemFaults s true a = true) →
      ∃ t, unitStep s = .next t ∧ t.status = { s.status with busy := false, err := true, errCode := 8 } ∧
        (∃ a, t.fault.toNat = a ∧
          ((a ∈ chunkReads s ∧ elemFaults s false a = true) ∨
            ((∀ b ∈ chunkReads s, elemFaults s false b = false) ∧ a ∈ chunkWrites s ∧ elemFaults s true a = true))) ∧
        freed t ∧ (NoLateRace s s.latched → framed t)) ∧
    (∀ es, s.inputs = .resetAssert :: es → ∃ t, step s = .next t ∧ t.status.busy = false ∧ freed t ∧ framed t)

/-- Every command, accepted or rejected, has a next state under exec, with memory, the tables, FAULT and the host's
registers unchanged; and so has the step of a CMD write of its word to an idle block, whatever has ended unobserved
(40_commands.md R130; 60_exceptions.md R300, R302). The event list is the model's (entry 8). -/
def Obligations.EveryCommandEndsItsWriteWithMemoryUnchanged : Prop :=
  ∀ (i : Instr) (s : State),
    let kept := fun t : State => (∀ a, readByte t.mem a = readByte s.mem a) ∧
      t.logTbl = s.logTbl ∧ t.expTbl = s.expTbl ∧ t.fault = s.fault ∧ t.ctrl = s.ctrl ∧ t.thresh = s.thresh ∧
      t.src = s.src ∧ t.dst = s.dst ∧ t.len = s.len ∧ t.scalar = s.scalar ∧ t.opnd = s.opnd ∧ t.tblAddr = s.tblAddr
    (∃ t, exec i s = .next t ∧ kept t) ∧
    ∀ es, Ready s → s.inputs = .portWrite (regAddr s.params .cmd) .w32 (encode i) :: es →
      ∃ t, step s = .next t ∧ kept t
end

