-- ==== Sys2Proof/Laws/Field.lean ====
section
/-! SUPPORT. Laws of the field functions: each is a XOR of contributions of single bits, so each is linear; and multiplying by x is one reduction step. -/

namespace Sys2Proof.Machine

open Sys2Proof.Config

/-! ## XOR over a range (00_scope.md R8) -/

/-- The XOR of f over 0 .. n-1. -/
def xorSum {w : Nat} (f : Nat → BitVec w) (n : Nat) : BitVec w := (List.range n).foldl (fun p j => p ^^^ f j) 0

@[simp] theorem xorSum_zero {w : Nat} (f : Nat → BitVec w) : xorSum f 0 = 0 := rfl

theorem xorSum_succ {w : Nat} (f : Nat → BitVec w) (n : Nat) : xorSum f (n + 1) = xorSum f n ^^^ f n := by
  simp [xorSum, List.range_succ]

theorem xorSum_xor {w : Nat} (f g : Nat → BitVec w) (n : Nat) :
    xorSum (fun j => f j ^^^ g j) n = xorSum f n ^^^ xorSum g n := by
  induction n with
  | zero => simp
  | succ n ih => rw [xorSum_succ, xorSum_succ, xorSum_succ, ih]; ac_rfl

theorem xorSum_congr {w : Nat} {f g : Nat → BitVec w} {n : Nat} (h : ∀ j < n, f j = g j) : xorSum f n = xorSum g n := by
  induction n with
  | zero => rfl
  | succ n ih => rw [xorSum_succ, xorSum_succ, ih fun j hj => h j (by omega), h n (by omega)]

/-- A function that respects XOR and zero moves inside a XOR. -/
theorem map_xorSum {w v : Nat} {g : BitVec w → BitVec v} (h0 : g 0 = 0) (hx : ∀ a b, g (a ^^^ b) = g a ^^^ g b)
    (f : Nat → BitVec w) (n : Nat) : g (xorSum f n) = xorSum (fun j => g (f j)) n := by
  induction n with
  | zero => simpa using h0
  | succ n ih => rw [xorSum_succ, xorSum_succ, hx, ih]

theorem getLsbD_xorSum {w : Nat} (f : Nat → BitVec w) (n i : Nat) :
    (xorSum f n).getLsbD i = (List.range n).foldl (fun b j => b ^^ (f j).getLsbD i) false := by
  induction n with
  | zero => simp
  | succ n ih => rw [xorSum_succ, BitVec.getLsbD_xor, ih]; simp [List.range_succ]

/-- A fold that XORs in f j where a bit is set is a XOR of those. -/
theorem foldl_bits {w : Nat} (b : Nat → Bool) (f : Nat → BitVec w) (l : List Nat) (p : BitVec w) :
    l.foldl (fun p j => if b j then p ^^^ f j else p) p = l.foldl (fun p j => p ^^^ (if b j then f j else 0)) p := by
  induction l generalizing p with
  | nil => rfl
  | cons j l ih =>
    simp only [List.foldl_cons]
    rw [ih]
    congr 1
    split <;> simp

theorem clmul16_eq (a b : Elem) :
    clmul16 a b = xorSum (fun j => if b.getLsbD j then a.setWidth 32 <<< j else 0) 16 := foldl_bits _ _ _ _

theorem polyMultiple_eq (poly : BitVec 17) (q : Elem) :
    polyMultiple poly q = xorSum (fun j => if q.getLsbD j then poly.setWidth 32 <<< j else 0) 16 := foldl_bits _ _ _ _

theorem fAff_eq (am : List Elem) (x : Elem) :
    fAff am x = xorSum (fun j => if x.getLsbD j then am.getD j 0 else 0) 16 := foldl_bits _ _ _ _

/-! ## Linearity -/

theorem clmul16_xor_left (a a' b : Elem) : clmul16 (a ^^^ a') b = clmul16 a b ^^^ clmul16 a' b := by
  rw [clmul16_eq, clmul16_eq, clmul16_eq, ← xorSum_xor]
  refine xorSum_congr fun j _ => ?_
  split
  · rw [BitVec.setWidth_xor, BitVec.shiftLeft_xor_distrib]
  · simp

theorem clmul16_xor_right (a b b' : Elem) : clmul16 a (b ^^^ b') = clmul16 a b ^^^ clmul16 a b' := by
  rw [clmul16_eq, clmul16_eq, clmul16_eq, ← xorSum_xor]
  refine xorSum_congr fun j _ => ?_
  rw [BitVec.getLsbD_xor]
  cases b.getLsbD j <;> cases b'.getLsbD j <;> simp

theorem reduceBit_xor (poly : BitVec 17) (p q : BitVec 32) (i : Nat) :
    reduceBit poly (p ^^^ q) i = reduceBit poly p i ^^^ reduceBit poly q i := by
  unfold reduceBit
  rw [BitVec.getLsbD_xor]
  cases p.getLsbD i <;> cases q.getLsbD i <;> simp
  · ac_rfl
  · ac_rfl
  · rw [show p ^^^ poly.setWidth 32 <<< (i - 16) ^^^ (q ^^^ poly.setWidth 32 <<< (i - 16))
      = p ^^^ q ^^^ (poly.setWidth 32 <<< (i - 16) ^^^ poly.setWidth 32 <<< (i - 16)) by ac_rfl]
    simp

/-- Reducing the bits 31, 30, ... in turn, n of them. -/
def reduceTop (poly : BitVec 17) (n : Nat) (p : BitVec 32) : BitVec 32 :=
  (List.range n).foldl (fun q t => reduceBit poly q (31 - t)) p

theorem reduceTop_succ (poly : BitVec 17) (n : Nat) (p : BitVec 32) :
    reduceTop poly (n + 1) p = reduceBit poly (reduceTop poly n p) (31 - n) := by
  simp [reduceTop, List.range_succ]

theorem polyred_eq (poly : BitVec 17) (p : BitVec 32) : polyred poly p = (reduceTop poly 16 p).setWidth 16 := rfl

theorem reduceTop_xor (poly : BitVec 17) (n : Nat) (p q : BitVec 32) :
    reduceTop poly n (p ^^^ q) = reduceTop poly n p ^^^ reduceTop poly n q := by
  induction n with
  | zero => rfl
  | succ n ih => rw [reduceTop_succ, reduceTop_succ, reduceTop_succ, ih, reduceBit_xor]

theorem polyred_xor (poly : BitVec 17) (p q : BitVec 32) : polyred poly (p ^^^ q) = polyred poly p ^^^ polyred poly q := by
  rw [polyred_eq, polyred_eq, polyred_eq, reduceTop_xor, BitVec.setWidth_xor]

theorem reduceTop_zero (poly : BitVec 17) (n : Nat) : reduceTop poly n 0 = 0 := by
  induction n with
  | zero => rfl
  | succ n ih => rw [reduceTop_succ, ih]; simp [reduceBit]

theorem polyred_zero (poly : BitVec 17) : polyred poly 0 = 0 := by
  rw [polyred_eq, reduceTop_zero]; rfl

theorem xtime_xor (poly : BitVec 17) (a b : Elem) : xtime poly (a ^^^ b) = xtime poly a ^^^ xtime poly b := by
  unfold xtime
  rw [BitVec.getLsbD_xor, ← BitVec.setWidth_xor]
  congr 1
  rw [BitVec.setWidth_xor, BitVec.shiftLeft_xor_distrib]
  cases a.getLsbD 15 <;> cases b.getLsbD 15 <;> simp
  · ac_rfl
  · ac_rfl
  · rw [show a.setWidth 17 <<< 1 ^^^ poly ^^^ (b.setWidth 17 <<< 1 ^^^ poly)
      = a.setWidth 17 <<< 1 ^^^ b.setWidth 17 <<< 1 ^^^ (poly ^^^ poly) by ac_rfl]
    simp

theorem xtime_zero (poly : BitVec 17) : xtime poly 0 = 0 := by simp [xtime]

/-! ## Reduction and the product by x -/

/-- After n steps the n highest bits are clear, whatever P_POLY of degree 16 is (00_scope.md R12). -/
theorem reduceTop_high {poly : BitVec 17} (hp : poly.getLsbD 16 = true) {n : Nat} (hn : n ≤ 16) (p : BitVec 32) {i : Nat}
    (hi : 32 - n ≤ i) : (reduceTop poly n p).getLsbD i = false := by
  by_cases h32 : 32 ≤ i
  · exact BitVec.getLsbD_of_ge _ _ h32
  induction n with
  | zero => omega
  | succ n ih =>
    rw [reduceTop_succ]
    unfold reduceBit
    by_cases hin : i = 31 - n
    · subst hin
      cases hb : (reduceTop poly n p).getLsbD (31 - n) with
      | false => simp [hb]
      | true =>
        simp only [if_true, BitVec.getLsbD_xor, hb, BitVec.getLsbD_shiftLeft, BitVec.getLsbD_setWidth]
        rw [show 31 - n - (31 - n - 16) = 16 by omega, hp]
        simp
        omega
    · have hlow := ih (by omega) (by omega)
      split
      · simp only [BitVec.getLsbD_xor, hlow, BitVec.getLsbD_shiftLeft, BitVec.getLsbD_setWidth]
        rw [BitVec.getLsbD_of_ge poly _ (by omega)]
        simp
      · exact hlow

/-- A value below 2^16 is its own remainder. -/
theorem reduceTop_small (poly : BitVec 17) (n : Nat) (hn : n ≤ 16) (a : Elem) :
    reduceTop poly n (a.setWidth 32) = a.setWidth 32 := by
  induction n with
  | zero => rfl
  | succ n ih =>
    rw [reduceTop_succ, ih (by omega)]
    unfold reduceBit
    rw [BitVec.getLsbD_setWidth, BitVec.getLsbD_of_ge a (31 - n) (by omega)]
    simp

theorem polyred_small (poly : BitVec 17) (a : Elem) : polyred poly (a.setWidth 32) = a := by
  rw [polyred_eq, reduceTop_small poly 16 (le_refl _)]
  simp

/-- Reducing a shifted value is shifting the reduced one, as far as the shift reaches. -/
theorem reduceTop_shift (poly : BitVec 17) {p : BitVec 32} (hp : p.getLsbD 31 = false) (n : Nat) (hn : n ≤ 15) :
    reduceTop poly n (p <<< 1) = reduceTop poly (n + 1) p <<< 1 := by
  induction n with
  | zero =>
    rw [reduceTop_succ]
    show p <<< 1 = reduceBit poly p 31 <<< 1
    rw [reduceBit, hp]
    rfl
  | succ n ih =>
    rw [reduceTop_succ, ih (by omega), reduceTop_succ poly (n + 1)]
    unfold reduceBit
    have h1 : (reduceTop poly (n + 1) p <<< 1).getLsbD (31 - n) = (reduceTop poly (n + 1) p).getLsbD (31 - (n + 1)) := by
      rw [BitVec.getLsbD_shiftLeft, show 31 - n - 1 = 31 - (n + 1) by omega]
      have : ¬ 31 - n < 1 := by omega
      simp [this]; omega
    rw [h1]
    split
    · rw [BitVec.shiftLeft_xor_distrib, ← BitVec.shiftLeft_add, show 31 - (n + 1) - 16 + 1 = 31 - n - 16 by omega]
    · rfl

/-- Multiplying by x and reducing is one xtime (00_scope.md R12, R14). -/
theorem polyred_shift {poly : BitVec 17} (hpoly : poly.getLsbD 16 = true) {p : BitVec 32} (hp : p.getLsbD 31 = false) :
    polyred poly (p <<< 1) = xtime poly (polyred poly p) := by
  rw [polyred_eq, reduceTop_succ, reduceTop_shift poly hp 15 (by omega), polyred_eq]
  generalize hr : reduceTop poly (15 + 1) p = r
  have hhigh : ∀ i, 16 ≤ i → r.getLsbD i = false := fun i hi => by
    rw [← hr]; exact reduceTop_high hpoly (le_refl _) p (by omega)
  have h16 : (r <<< 1).getLsbD (31 - 15) = (r.setWidth 16).getLsbD 15 := by
    simp
  unfold reduceBit xtime
  rw [h16]
  refine BitVec.eq_of_getLsbD_eq fun i hi => ?_
  cases (r.setWidth 16).getLsbD 15 <;>
    simp [hi, show i < 17 by omega]

/-- xtime is the product by x, the element 2 (00_scope.md R14). -/
theorem xtime_eq_gfmul_two {poly : BitVec 17} (hpoly : poly.getLsbD 16 = true) (v : Elem) :
    xtime poly v = gfmul poly v 2 := by
  have hc : clmul16 v 2 = v.setWidth 32 <<< 1 := by
    simp [clmul16, List.range_succ]
  rw [gfmul, hc, polyred_shift hpoly (by simp), polyred_small]

/-! ## Powers of x -/

/-- A value is the XOR of its bits. -/
theorem eq_xorSum_bits {w : Nat} (a : BitVec w) :
    a = xorSum (fun j => if a.getLsbD j then BitVec.twoPow w j else 0) w := by
  refine BitVec.eq_of_getLsbD_eq fun i hi => ?_
  rw [getLsbD_xorSum]
  have key : ∀ n, (List.range n).foldl (fun b j => b ^^ (if a.getLsbD j then BitVec.twoPow w j else 0#w).getLsbD i) false
      = (decide (i < n) && a.getLsbD i) := by
    intro n
    induction n with
    | zero => simp
    | succ n ih =>
      simp only [List.range_succ, List.foldl_append, ih, List.foldl_cons, List.foldl_nil]
      by_cases h : i = n
      · subst h; cases hb : a.getLsbD i <;> simp [hi]
      · have h1 : ¬ n = i := fun e => h e.symm
        have h2 : (i < n + 1) ↔ (i < n) := by omega
        cases hb : a.getLsbD n <;> simp [BitVec.getLsbD_twoPow, h1, h2]
  have := key w
  simp only [hi, decide_true, Bool.true_and] at this
  exact this.symm

/-- Two functions that respect XOR and agree on the powers of x agree. -/
theorem xor_ext {w v : Nat} {f g : BitVec w → BitVec v} (hf : ∀ a b, f (a ^^^ b) = f a ^^^ f b)
    (hg : ∀ a b, g (a ^^^ b) = g a ^^^ g b) (h : ∀ j < w, f (BitVec.twoPow w j) = g (BitVec.twoPow w j)) (a : BitVec w) :
    f a = g a := by
  have f0 : f 0 = 0 := by have := hf 0 0; simpa using this
  have g0 : g 0 = 0 := by have := hg 0 0; simpa using this
  rw [eq_xorSum_bits a, map_xorSum f0 hf, map_xorSum g0 hg]
  refine xorSum_congr fun j hj => ?_
  split
  · exact h j hj
  · rw [f0, g0]

/-- The carry-less product by a power of x is a shift. -/
theorem clmul16_twoPow (a : Elem) (j : Nat) (hj : j < 16) : clmul16 a (BitVec.twoPow 16 j) = a.setWidth 32 <<< j := by
  rw [clmul16]
  interval_cases j <;> simp [List.range_succ, BitVec.getLsbD_twoPow]

/-- Multiplying by a power of x and reducing is that many xtime (00_scope.md R14). -/
theorem polyred_shiftLeft {poly : BitVec 17} (hp : poly.getLsbD 16 = true) (p : BitVec 32) (j : Nat)
    (h : ∀ i, 32 - j ≤ i → p.getLsbD i = false) : polyred poly (p <<< j) = (xtime poly)^[j] (polyred poly p) := by
  induction j with
  | zero => simp
  | succ j ih =>
    rw [Function.iterate_succ_apply', ← ih (fun i hi => h i (by omega)), BitVec.shiftLeft_add, polyred_shift hp]
    rw [BitVec.getLsbD_shiftLeft]
    simp
    exact fun _ => h _ (by omega)

/-- The product by a power of x is that many xtime (43_affine.md R226). -/
theorem gfmul_twoPow {poly : BitVec 17} (hp : poly.getLsbD 16 = true) (a : Elem) (j : Nat) (hj : j < 16) :
    gfmul poly a (BitVec.twoPow 16 j) = (xtime poly)^[j] a := by
  rw [gfmul, clmul16_twoPow _ _ hj, polyred_shiftLeft hp, polyred_small]
  intro i hi
  rw [BitVec.getLsbD_setWidth, BitVec.getLsbD_of_ge a i (by omega)]
  simp

end Sys2Proof.Machine
end

