-- ==== Sys2Proof/Laws/Table.lean ====
section
/-! SUPPORT. Laws of the table memories: reading after writing, the form of the tree, and tables given by a function. -/

namespace Sys2Proof.Machine

/-- The indices i and j agree on their n lowest bits. -/
theorem lookup_insert (n : Nat) (t : Table) (i j : BitVec 16) (v : Elem) :
    (t.insert n i v).lookup n j = if ∀ k < n, i.getLsbD k = j.getLsbD k then some v else t.lookup n j := by
  induction n generalizing t with
  | zero => simp [Table.insert, Table.lookup]
  | succ n ih =>
    have hsplit : (∀ k < n + 1, i.getLsbD k = j.getLsbD k) ↔
        (i.getLsbD n = j.getLsbD n ∧ ∀ k < n, i.getLsbD k = j.getLsbD k) := by
      constructor
      · exact fun h => ⟨h n (by omega), fun k hk => h k (by omega)⟩
      · rintro ⟨h0, h⟩ k hk
        rcases Nat.lt_succ_iff_lt_or_eq.1 hk with h' | rfl
        · exact h k h'
        · exact h0
    have hempty : ∀ m, Table.lookup m .empty j = none := by intro m; cases m <;> rfl
    have hz : ∀ t : Table, t.lookup (n + 1) j = if j.getLsbD n then t.halves.2.lookup n j else t.halves.1.lookup n j := by
      intro t
      cases t <;> simp [Table.lookup, Table.halves, hempty]
    rw [hz t]
    simp only [Table.insert, hsplit]
    by_cases hi : i.getLsbD n <;> by_cases hj : j.getLsbD n <;> simp [hi, hj, Table.lookup, ih]

/-- Reading an entry after writing one (10_state.md R42). -/
theorem Table.read_write (t : Table) (i j : BitVec 16) (v : Elem) :
    (t.write i v).read j = if j = i then some v else t.read j := by
  rw [Table.read, Table.write, lookup_insert, Table.read]
  have : (∀ k < 16, i.getLsbD k = j.getLsbD k) ↔ j = i :=
    ⟨fun h => (BitVec.eq_of_getLsbD_eq fun k hk => h k hk).symm, fun h k _ => by rw [h]⟩
  simp only [this]

@[simp] theorem Table.read_empty (i : BitVec 16) : Table.read .empty i = none := rfl

theorem insert_ne_empty (n : Nat) (t : Table) (i : BitVec 16) (v : Elem) : t.insert n i v ≠ .empty := by
  cases n with
  | zero => simp [Table.insert]
  | succ n => simp only [Table.insert]; split <;> simp

theorem wf_empty (n : Nat) : Table.wf n .empty = true := by cases n <;> rfl

/-- Writing an entry keeps the form of the tree. -/
theorem wf_insert (n : Nat) (t : Table) (i : BitVec 16) (v : Elem) (h : t.wf n = true) :
    (t.insert n i v).wf n = true := by
  induction n generalizing t with
  | zero => rfl
  | succ n ih =>
    have hh : t.halves.1.wf n = true ∧ t.halves.2.wf n = true := by
      cases t with
      | empty => exact ⟨wf_empty n, wf_empty n⟩
      | leaf v => simp [Table.wf] at h
      | node z o => simp only [Table.wf, Bool.and_eq_true] at h; exact h.1
    have e := insert_ne_empty n
    simp only [Table.insert]
    split <;> simp [Table.wf, hh.1, hh.2, ih, e]

theorem wf_write (t : Table) (i : BitVec 16) (v : Elem) (h : t.wf 16 = true) : (t.write i v).wf 16 = true :=
  wf_insert 16 t i v h

/-- The full table tree of depth n whose entry at index j (its bits above n taken from `base`) is f j. -/
def Table.ofFn (f : BitVec 16 → Elem) : Nat → BitVec 16 → Table
  | 0, base => .leaf (f base)
  | n + 1, base => .node (Table.ofFn f n base) (Table.ofFn f n (base ||| BitVec.twoPow 16 n))

theorem lookup_ofFn (f : BitVec 16 → Elem) (n : Nat) (base j : BitVec 16) (hn : n ≤ 16)
    (hlow : ∀ k < n, base.getLsbD k = false) (hhigh : ∀ k, n ≤ k → base.getLsbD k = j.getLsbD k) :
    (Table.ofFn f n base).lookup n j = some (f j) := by
  induction n generalizing base with
  | zero =>
    have : base = j := BitVec.eq_of_getLsbD_eq fun k _ => hhigh k (by omega)
    rw [this]; rfl
  | succ n ih =>
    simp only [Table.ofFn, Table.lookup]
    split
    · rename_i hj
      refine ih _ (by omega) (fun k hk => ?_) (fun k hk => ?_)
      · have h1 : ¬ n = k := by omega
        simp [hlow k (by omega), BitVec.getLsbD_twoPow, h1]
      · by_cases hnk : n = k
        · subst hnk; simp [hj, BitVec.getLsbD_twoPow]; omega
        · simp [hhigh k (by omega), BitVec.getLsbD_twoPow, hnk]
    · rename_i hj
      refine ih _ (by omega) (fun k hk => hlow k (by omega)) (fun k hk => ?_)
      by_cases hnk : n = k
      · subst hnk; simpa [hlow n (by omega)] using hj
      · exact hhigh k (by omega)

/-- A table given by a function reads as that function. -/
theorem read_ofFn (f : BitVec 16 → Elem) (j : BitVec 16) : (Table.ofFn f 16 0).read j = some (f j) :=
  lookup_ofFn f 16 0 j (le_refl _) (by simp) (fun k hk => by
    rw [BitVec.getLsbD_of_ge _ _ hk, BitVec.getLsbD_of_ge _ _ hk])

theorem ofFn_ne_empty (f : BitVec 16 → Elem) (n : Nat) (b : BitVec 16) : Table.ofFn f n b ≠ .empty := by
  cases n <;> simp [Table.ofFn]

theorem wf_ofFn (f : BitVec 16 → Elem) (n : Nat) (b : BitVec 16) : (Table.ofFn f n b).wf n = true := by
  induction n generalizing b with
  | zero => rfl
  | succ n ih => simp [Table.ofFn, Table.wf, ih, ofFn_ne_empty]

end Sys2Proof.Machine
end

