-- ==== Sys2Proof/Laws/Generator.lean ====
section
/-! SUPPORT. Consistent tables exist: the element 2 has order 65535 under 0x1100B, and the tables of its powers and logarithms are consistent (00_scope.md R16, 95_test_vectors.md section 2). -/

namespace Sys2Proof.Machine

-- One proof after the other, so that the kernel checks that wait do not each hold a thread.
set_option Elab.async false

open Sys2Proof.Config

/-- The test polynomial of 95_test_vectors.md section 2. -/
def testPoly : BitVec 17 := 0x1100B

/-- xtime under the test polynomial, on numbers. -/
def xtimeNat (v : Nat) : Nat := if v < 32768 then 2 * v else (2 * v ^^^ 0x1100B) % 65536

/-- n times xtime, on numbers. The match on the number makes the kernel evaluate it at each step. -/
def xtimesNat : Nat → Nat → Nat
  | 0, v => v
  | n + 1, v =>
    match v with
    | 0 => 0
    | w + 1 => xtimesNat n (xtimeNat (w + 1))

theorem xtimesNat_zero (n : Nat) : xtimesNat n 0 = 0 := by cases n <;> rfl

theorem xtimesNat_succ (n v : Nat) : xtimesNat (n + 1) v = xtimesNat n (xtimeNat v) := by
  cases v with
  | zero => rw [show xtimeNat 0 = 0 from rfl, xtimesNat_zero, xtimesNat_zero]
  | succ w => rfl

theorem xtimesNat_add (m n v : Nat) : xtimesNat (m + n) v = xtimesNat n (xtimesNat m v) := by
  induction m generalizing v with
  | zero => rw [Nat.zero_add]; rfl
  | succ m ih => rw [Nat.succ_add, xtimesNat_succ, ih, xtimesNat_succ]

theorem toNat_xtime (v : Elem) : (xtime testPoly v).toNat = xtimeNat v.toNat := by
  have hb : v.getLsbD 15 = decide (32768 ≤ v.toNat) := by
    have := v.isLt
    rw [BitVec.getLsbD, Nat.testBit_eq_decide_div_mod_eq]
    by_cases h : 32768 ≤ v.toNat
    · have : v.toNat / 2 ^ 15 % 2 = 1 := by omega
      simp only [this, h]
    · have : v.toNat / 2 ^ 15 % 2 = 0 := by omega
      simp only [this, h]
      decide
  have hlt := v.isLt
  unfold xtime xtimeNat
  rw [hb]
  by_cases h : 32768 ≤ v.toNat
  · have h' : ¬ v.toNat < 32768 := by omega
    simp [h, h', testPoly, Nat.shiftLeft_eq, Nat.mul_comm v.toNat 2]
    rw [show (65536 : Nat) = 2 ^ 16 from rfl, Nat.xor_mod_two_pow]
  · have h' : v.toNat < 32768 := by omega
    simp [h, h', Nat.shiftLeft_eq]
    omega

/-- The i-th power of 2 is i times xtime of 1. -/
theorem gfpow_two (i : Nat) : gfpow testPoly 2 i = (xtime testPoly)^[i] 1 := by
  induction i with
  | zero => rfl
  | succ n ih =>
    rw [gfpow, ih, Function.iterate_succ_apply', ← xtime_eq_gfmul_two (by decide)]

theorem toNat_iterate (n : Nat) (v : Elem) : ((xtime testPoly)^[n] v).toNat = xtimesNat n v.toNat := by
  induction n generalizing v with
  | zero => rfl
  | succ n ih => rw [Function.iterate_succ_apply, ih, toNat_xtime, xtimesNat_succ]

theorem xtimes_3855 : xtimesNat 3855 1 = 19832 := by decide +kernel
theorem xtimes_13107 : xtimesNat 13107 1 = 7400 := by decide +kernel
theorem xtimes_13107_2 : xtimesNat 13107 7400 = 7596 := by decide +kernel
theorem xtimes_13107_3 : xtimesNat 13107 7596 = 7410 := by decide +kernel
theorem xtimes_13107_4 : xtimesNat 13107 7410 = 7607 := by decide +kernel
theorem xtimes_13107_5 : xtimesNat 13107 7607 = 1 := by decide +kernel
theorem xtimes_21845 : xtimesNat 8738 7400 = 350 := by decide +kernel
theorem xtimes_255 : xtimesNat 255 1 = 36242 := by decide +kernel

/-- Applying xtime to 1 comes back after 65535 steps and not after 65535 divided by any of its prime factors. -/
theorem xtime_period : Function.minimalPeriod (xtime testPoly) 1 = 65535 := by
  have hper : Function.IsPeriodicPt (xtime testPoly) 65535 1 := by
    refine BitVec.eq_of_toNat_eq ?_
    rw [toNat_iterate, show 65535 = 13107 + (13107 + (13107 + (13107 + 13107))) from rfl]
    simp only [xtimesNat_add]
    rw [show (1 : Elem).toNat = 1 from rfl, xtimes_13107, xtimes_13107_2, xtimes_13107_3, xtimes_13107_4, xtimes_13107_5]
  have hdvd := hper.minimalPeriod_dvd
  have hnot : ∀ q, xtimesNat q 1 ≠ 1 → ¬ Function.minimalPeriod (xtime testPoly) 1 ∣ q := by
    intro q hq hd
    have : Function.IsPeriodicPt (xtime testPoly) q 1 := Function.isPeriodicPt_iff_minimalPeriod_dvd.2 hd
    have h := congrArg BitVec.toNat this
    rw [toNat_iterate] at h
    exact hq h
  have h3 : ¬ Function.minimalPeriod (xtime testPoly) 1 ∣ 21845 := hnot _ (by
    rw [show 21845 = 13107 + 8738 from rfl, xtimesNat_add, xtimes_13107, xtimes_21845]; decide)
  have h5 : ¬ Function.minimalPeriod (xtime testPoly) 1 ∣ 13107 := hnot _ (by rw [xtimes_13107]; decide)
  have h17 : ¬ Function.minimalPeriod (xtime testPoly) 1 ∣ 3855 := hnot _ (by rw [xtimes_3855]; decide)
  have h257 : ¬ Function.minimalPeriod (xtime testPoly) 1 ∣ 255 := hnot _ (by rw [xtimes_255]; decide)
  generalize Function.minimalPeriod (xtime testPoly) 1 = d at *
  have hd : d ∈ Nat.divisors 65535 := Nat.mem_divisors.2 ⟨hdvd, by norm_num⟩
  have : Nat.divisors 65535 = {1, 3, 5, 15, 17, 51, 85, 255, 257, 771, 1285, 3855, 4369, 13107, 21845, 65535} := by
    decide +kernel
  rw [this] at hd
  simp only [Finset.mem_insert, Finset.mem_singleton] at hd
  rcases hd with rfl | rfl | rfl | rfl | rfl | rfl | rfl | rfl | rfl | rfl | rfl | rfl | rfl | rfl | rfl | rfl <;>
    first
      | rfl
      | exact (h3 (by decide)).elim
      | exact (h5 (by decide)).elim
      | exact (h17 (by decide)).elim
      | exact (h257 (by decide)).elim

/-- The first 65535 powers of 2 are distinct. -/
theorem gfpow_two_inj (i : Nat) (hi : i < 65535) (j : Nat) (hj : j < 65535)
    (h : gfpow testPoly 2 i = gfpow testPoly 2 j) : i = j := by
  rw [gfpow_two, gfpow_two] at h
  have := Function.iterate_injOn_Iio_minimalPeriod (f := xtime testPoly) (x := 1)
  rw [xtime_period] at this
  exact this (by simpa using hi) (by simpa using hj) h

/-- The first number below n whose power of 2 is v. -/
def dlogBelow (n : Nat) (v : Elem) : Elem :=
  BitVec.ofNat 16 (((List.range n).find? fun i => gfpow testPoly 2 i == v).getD 0)

theorem dlogBelow_gfpow {n : Nat} (hn : n ≤ 65535) (i : Nat) (hi : i < n) :
    dlogBelow n (gfpow testPoly 2 i) = BitVec.ofNat 16 i := by
  unfold dlogBelow
  congr 1
  cases h : (List.range n).find? fun j => gfpow testPoly 2 j == gfpow testPoly 2 i with
  | none =>
    rw [List.find?_eq_none] at h
    exact absurd (by simp) (h i (by simpa using hi))
  | some j =>
    have hj := List.find?_some h
    have hm := List.mem_range.1 (List.mem_of_find?_eq_some h)
    exact gfpow_two_inj j (by omega) i (by omega) (by simpa using hj)

/-- The logarithm to the base 2 under the test polynomial. -/
def dlog (v : Elem) : Elem := dlogBelow 65535 v

theorem dlog_gfpow (i : Nat) (hi : i < 65535) : dlog (gfpow testPoly 2 i) = BitVec.ofNat 16 i :=
  dlogBelow_gfpow (le_refl _) i hi

/-- The antilog table of 95_test_vectors.md section 2. -/
def testExp : Table := Table.ofFn (fun i => gfpow testPoly 2 i.toNat) 16 0

/-- The log table of 95_test_vectors.md section 2. -/
def testLog : Table := Table.ofFn dlog 16 0

/-- The test tables are consistent (00_scope.md R16). -/
theorem testTables_consistent : TablesConsistent testPoly testLog testExp := by
  refine ⟨2, fun i hi => ?_, gfpow_two_inj, fun i hi => ?_⟩
  · rw [testExp, read_ofFn, BitVec.toNat_ofNat, Nat.mod_eq_of_lt (by omega)]
  · rw [testLog, read_ofFn, dlog_gfpow i hi]

end Sys2Proof.Machine
end

