-- ==== Sys2Proof/Laws/Memory.lean ====
section
/-! SUPPORT. Laws of memory: what a read gives after a write, and that every operation keeps the canonical form. -/

namespace Sys2Proof.Machine

open Sys2Proof.Config

theorem addressesAbove_cons {a : Nat} {c : Host.Cell} {m : Memory} :
    addressesAbove a (c :: m) = true ↔ a < c.1 ∧ addressesAbove a m = true := by
  simp [addressesAbove]

theorem addressesAbove_mono {a b : Nat} {m : Memory} (hab : a ≤ b) (h : addressesAbove b m = true) :
    addressesAbove a m = true := by
  simp only [addressesAbove, List.all_eq_true, decide_eq_true_eq] at *
  exact fun c hc => lt_of_le_of_lt hab (h c hc)

theorem Memory.wf_cons {k : Nat} {v : Byte} {m : Memory} :
    Memory.wf ((k, v) :: m) = true ↔ v ≠ unlistedByte ∧ addressesAbove k m = true ∧ Memory.wf m = true := by
  simp [Memory.wf, and_assoc]

/-- Below every listed address, memory reads as an unlisted byte. -/
theorem readByte_of_above {m : Memory} {a b : Nat} (h : addressesAbove a m = true) (hb : b ≤ a) :
    readByte m b = unlistedByte := by
  induction m with
  | nil => rfl
  | cons c t ih =>
    obtain ⟨k, v⟩ := c
    rw [addressesAbove_cons] at h
    have hk : k ≠ b := by have := h.1; simp at this; omega
    simp [readByte, hk, ih h.2]

/-- A write leaves every other address alone. -/
theorem readByte_writeByte_ne (m : Memory) {a c : Nat} (b : Byte) (h : c ≠ a) :
    readByte (writeByte m a b) c = readByte m c := by
  induction m with
  | nil => by_cases hb : b = unlistedByte <;> simp [writeByte, readByte, hb, Ne.symm h]
  | cons e t ih =>
    obtain ⟨k, v⟩ := e
    simp only [writeByte]
    split
    · split
      · rfl
      · simp [readByte, Ne.symm h]
    · split
      · subst_vars
        split <;> simp [readByte, Ne.symm h]
      · simp [readByte, ih]

/-- In a canonical memory, a read after a write to the same address gives the byte written. -/
theorem readByte_writeByte_same {m : Memory} (hm : m.wf = true) (a : Nat) (b : Byte) :
    readByte (writeByte m a b) a = b := by
  induction m with
  | nil => by_cases hb : b = unlistedByte <;> simp [writeByte, readByte, hb]
  | cons e t ih =>
    obtain ⟨k, v⟩ := e
    obtain ⟨_, hk, ht⟩ := Memory.wf_cons.1 hm
    simp only [writeByte]
    split
    · rename_i hlt
      split
      · rename_i hb
        have : k ≠ a := by omega
        simp [readByte, this, readByte_of_above hk (le_of_lt hlt), hb]
      · simp [readByte]
    · split
      · rename_i hak
        subst hak
        split
        · rename_i hb
          simp [readByte_of_above hk (le_refl a), hb]
        · simp [readByte]
      · rename_i hak
        simp [readByte, Ne.symm hak, ih ht]

/-- Reading one byte after writing one byte of a canonical memory. -/
theorem readByte_writeByte {m : Memory} (hm : m.wf = true) (a c : Nat) (b : Byte) :
    readByte (writeByte m a b) c = if c = a then b else readByte m c := by
  by_cases h : c = a
  · subst h; simp [readByte_writeByte_same hm]
  · simp [h, readByte_writeByte_ne m b h]

theorem addressesAbove_writeByte {m : Memory} {k a : Nat} (b : Byte) (hka : k < a)
    (h : addressesAbove k m = true) : addressesAbove k (writeByte m a b) = true := by
  induction m with
  | nil => by_cases hb : b = unlistedByte <;> simp [writeByte, hb, addressesAbove, hka]
  | cons e t ih =>
    obtain ⟨j, v⟩ := e
    rw [addressesAbove_cons] at h
    simp only [writeByte]
    split
    · split
      · exact addressesAbove_cons.2 h
      · exact addressesAbove_cons.2 ⟨hka, addressesAbove_cons.2 h⟩
    · split
      · split
        · exact h.2
        · exact addressesAbove_cons.2 ⟨hka, h.2⟩
      · exact addressesAbove_cons.2 ⟨h.1, ih h.2⟩

/-- A write keeps the canonical form. -/
theorem wf_writeByte {m : Memory} (a : Nat) (b : Byte) (hm : m.wf = true) : (writeByte m a b).wf = true := by
  induction m with
  | nil => by_cases hb : b = unlistedByte <;> simp [writeByte, hb, Memory.wf, addressesAbove]
  | cons e t ih =>
    obtain ⟨k, v⟩ := e
    obtain ⟨hv, hk, ht⟩ := Memory.wf_cons.1 hm
    simp only [writeByte]
    split
    · rename_i hlt
      split
      · exact hm
      · rename_i hb
        exact Memory.wf_cons.2 ⟨hb, addressesAbove_cons.2 ⟨hlt, addressesAbove_mono (le_of_lt hlt) hk⟩, hm⟩
    · split
      · rename_i hak
        subst hak
        split
        · exact ht
        · rename_i hb
          exact Memory.wf_cons.2 ⟨hb, hk, ht⟩
      · exact Memory.wf_cons.2 ⟨hv, addressesAbove_writeByte b (by omega) hk, ih ht⟩

/-- Storing bytes keeps the canonical form. -/
theorem wf_writeBytes {m : Memory} (bs : List Byte) (a : Nat) (hm : m.wf = true) : (writeBytes m a bs).wf = true := by
  induction bs generalizing m a with
  | nil => exact hm
  | cons b bs ih => exact ih (a + 1) (wf_writeByte a b hm)

/-- Storing elements keeps the canonical form. -/
theorem wf_writeElems {m : Memory} (vs : List Elem) (a : Nat) (hm : m.wf = true) : (writeElems m a vs).wf = true := by
  induction vs generalizing m a with
  | nil => exact hm
  | cons v vs ih => exact ih (a + 2) (wf_writeBytes _ a hm)

/-- Bytes that take any value keep the canonical form. -/
theorem wf_drawBytes {m : Memory} (n a d : Nat) (hm : m.wf = true) : (drawBytes m a n d).1.wf = true := by
  induction n generalizing m a d with
  | zero => exact hm
  | succ n ih => exact ih (a + 1) (d + 1) (wf_writeByte a _ hm)

/-- Torn bytes keep the canonical form. -/
theorem wf_tearBytes {m : Memory} (bs : List Byte) (a d : Nat) (hm : m.wf = true) :
    (tearBytes m a bs d).1.wf = true := by
  induction bs generalizing m a d with
  | nil => exact hm
  | cons b bs ih =>
    simp only [tearBytes]
    split
    · exact ih (a + 1) (d + 1) (wf_writeByte a b hm)
    · exact ih (a + 1) (d + 1) hm

/-- Storing bytes changes nothing outside them. -/
theorem readByte_writeBytes_outside (m : Memory) (bs : List Byte) {a c : Nat} (h : c < a ∨ a + bs.length ≤ c) :
    readByte (writeBytes m a bs) c = readByte m c := by
  induction bs generalizing m a with
  | nil => rfl
  | cons b bs ih =>
    simp only [List.length_cons] at h
    simp only [writeBytes]
    rw [ih (writeByte m a b) (by omega), readByte_writeByte_ne m b (by omega)]

/-- Storing elements changes nothing outside them. -/
theorem readByte_writeElems_outside (m : Memory) (vs : List Elem) {a c : Nat}
    (h : c < a ∨ a + 2 * vs.length ≤ c) : readByte (writeElems m a vs) c = readByte m c := by
  induction vs generalizing m a with
  | nil => rfl
  | cons v vs ih =>
    simp only [List.length_cons] at h
    simp only [writeElems]
    rw [ih (writeElem m a v) (by omega), writeElem, readByte_writeBytes_outside]
    simp [elemBytes]; omega

/-- Bytes that take any value change nothing outside them. -/
theorem readByte_drawBytes_outside (m : Memory) (n : Nat) {a c : Nat} (d : Nat) (h : c < a ∨ a + n ≤ c) :
    readByte (drawBytes m a n d).1 c = readByte m c := by
  induction n generalizing m a d with
  | zero => rfl
  | succ n ih =>
    simp only [drawBytes]
    rw [ih _ _ (by omega), readByte_writeByte_ne m _ (by omega)]

/-- Torn bytes change nothing outside them. -/
theorem readByte_tearBytes_outside (m : Memory) (bs : List Byte) {a c : Nat} (d : Nat)
    (h : c < a ∨ a + bs.length ≤ c) : readByte (tearBytes m a bs d).1 c = readByte m c := by
  induction bs generalizing m a d with
  | nil => rfl
  | cons b bs ih =>
    simp only [List.length_cons] at h
    simp only [tearBytes]
    rw [ih _ _ (by omega)]
    split
    · rw [readByte_writeByte_ne m _ (by omega)]
    · rfl

/-- A byte of a run of stored bytes. -/
theorem readByte_writeBytes_inside {m : Memory} (hm : m.wf = true) (bs : List Byte) (a j : Nat) (hj : j < bs.length) :
    readByte (writeBytes m a bs) (a + j) = bs[j] := by
  induction bs generalizing m a j with
  | nil => simp at hj
  | cons b bs ih =>
    simp only [writeBytes]
    cases j with
    | zero => simp [readByte_writeBytes_outside _ bs (a := a + 1) (c := a) (by omega), readByte_writeByte_same hm]
    | succ j =>
      have := ih (wf_writeByte a b hm) (a + 1) j (by simpa using hj)
      simpa [Nat.add_assoc, Nat.add_comm 1 j] using this

/-- A byte of a run of bytes that take any value. -/
theorem readByte_drawBytes_inside {m : Memory} (hm : m.wf = true) (n a d j : Nat) (hj : j < n) :
    readByte (drawBytes m a n d).1 (a + j) = freeByte (d + j) := by
  induction n generalizing m a d j with
  | zero => omega
  | succ n ih =>
    simp only [drawBytes]
    cases j with
    | zero =>
      simp [readByte_drawBytes_outside _ n (a := a + 1) (c := a) (d + 1) (by omega), readByte_writeByte_same hm]
    | succ j =>
      have := ih (wf_writeByte a (freeByte d) hm) (a + 1) (d + 1) j (by omega)
      simpa [Nat.add_assoc, Nat.add_comm 1 j] using this

/-- A torn byte is the old one or the new one. -/
theorem readByte_tearBytes_inside {m : Memory} (hm : m.wf = true) (bs : List Byte) (a d j : Nat) (hj : j < bs.length) :
    readByte (tearBytes m a bs d).1 (a + j) = bs[j] ∨ readByte (tearBytes m a bs d).1 (a + j) = readByte m (a + j) := by
  induction bs generalizing m a d j with
  | nil => simp at hj
  | cons b bs ih =>
    simp only [tearBytes]
    cases j with
    | zero =>
      simp only [Nat.add_zero, List.getElem_cons_zero]
      rw [readByte_tearBytes_outside _ bs (a := a + 1) (c := a) (d + 1) (by omega)]
      split
      · exact .inl (readByte_writeByte_same hm a b)
      · exact .inr rfl
    | succ j =>
      have hwf : (if freeBit d then writeByte m a b else m).wf = true := by
        split
        · exact wf_writeByte a b hm
        · exact hm
      have := ih hwf (a + 1) (d + 1) j (by simpa using hj)
      rw [show a + 1 + j = a + (j + 1) by omega] at this
      refine this.imp (by simp) fun h => h.trans ?_
      split
      · exact readByte_writeByte_ne m b (by omega)
      · rfl

/-- The element read back after it is stored (20_memory.md R72). -/
theorem readElem_writeElem_same {m : Memory} (hm : m.wf = true) (a : Nat) (v : Elem) :
    readElem (writeElem m a v) a = v := by
  have h0 := readByte_writeBytes_inside hm (elemBytes v) a 0 (by simp [elemBytes])
  have h1 := readByte_writeBytes_inside hm (elemBytes v) a 1 (by simp [elemBytes])
  simp only [Nat.add_zero] at h0
  rw [readElem, writeElem, h0, h1]
  simp only [elemBytes, List.getElem_cons_zero, List.getElem_cons_succ]
  refine BitVec.eq_of_getLsbD_eq fun i hi => ?_
  rw [BitVec.getLsbD_append]
  by_cases h : i < 8
  · simp [h]
  · simp only [h, decide_false, BitVec.getLsbD_extractLsb']
    rw [show 8 + (i - 8) = i by omega]
    simp; omega

/-- Elements stored from an address upward are read back one by one. -/
theorem readElem_writeElems {m : Memory} (hm : m.wf = true) (vs : List Elem) (a j : Nat) (hj : j < vs.length) :
    readElem (writeElems m a vs) (a + 2 * j) = vs[j] := by
  induction vs generalizing m a j with
  | nil => simp at hj
  | cons v vs ih =>
    simp only [writeElems]
    cases j with
    | zero =>
      simp only [Nat.mul_zero, Nat.add_zero, List.getElem_cons_zero]
      rw [readElem, readByte_writeElems_outside _ vs (by omega), readByte_writeElems_outside _ vs (by omega)]
      exact readElem_writeElem_same hm a v
    | succ j =>
      have := ih (wf_writeBytes (elemBytes v) a hm) (a + 2) j (by simpa using hj)
      rw [show a + 2 + 2 * j = a + 2 * (j + 1) by omega] at this
      simpa [writeElem] using this

@[simp] theorem length_readBytes (m : Memory) (a n : Nat) : (readBytes m a n).length = n := by
  induction n generalizing a with
  | zero => rfl
  | succ n ih => simp [readBytes, ih]

end Sys2Proof.Machine
end

