-- ==== Sys2Proof/Laws/State.lean ====
section
/-! SUPPORT. One lemma per field per update of State, each true by unfolding the update. -/

namespace Sys2Proof.Machine

-- One proof after the other, so that the kernel checks that wait do not each hold a thread.
set_option Elab.async false

open Sys2Proof.Config

/-! ## endOk -/

@[simp] theorem endOk_params (s : State) : (endOk s).params = s.params := rfl
@[simp] theorem endOk_ctrl (s : State) : (endOk s).ctrl = s.ctrl := rfl
@[simp] theorem endOk_status (s : State) : (endOk s).status = { s.status with done := true, errCode := 0 } := rfl
@[simp] theorem endOk_thresh (s : State) : (endOk s).thresh = s.thresh := rfl
@[simp] theorem endOk_src (s : State) : (endOk s).src = s.src := rfl
@[simp] theorem endOk_dst (s : State) : (endOk s).dst = s.dst := rfl
@[simp] theorem endOk_len (s : State) : (endOk s).len = s.len := rfl
@[simp] theorem endOk_scalar (s : State) : (endOk s).scalar = s.scalar := rfl
@[simp] theorem endOk_opnd (s : State) : (endOk s).opnd = s.opnd := rfl
@[simp] theorem endOk_result (s : State) : (endOk s).result = s.result := rfl
@[simp] theorem endOk_fault (s : State) : (endOk s).fault = s.fault := rfl
@[simp] theorem endOk_tblAddr (s : State) : (endOk s).tblAddr = s.tblAddr := rfl
@[simp] theorem endOk_logTbl (s : State) : (endOk s).logTbl = s.logTbl := rfl
@[simp] theorem endOk_expTbl (s : State) : (endOk s).expTbl = s.expTbl := rfl
@[simp] theorem endOk_latched (s : State) : (endOk s).latched = s.latched := rfl
@[simp] theorem endOk_dt (s : State) : (endOk s).dt = s.dt := rfl
@[simp] theorem endOk_am (s : State) : (endOk s).am = s.am := rfl
@[simp] theorem endOk_k (s : State) : (endOk s).k = s.k := rfl
@[simp] theorem endOk_mem (s : State) : (endOk s).mem = s.mem := rfl
@[simp] theorem endOk_busMap (s : State) : (endOk s).busMap = s.busMap := rfl
@[simp] theorem endOk_inReset (s : State) : (endOk s).inReset = s.inReset := rfl
@[simp] theorem endOk_inputs (s : State) : (endOk s).inputs = s.inputs := rfl
@[simp] theorem endOk_reply (s : State) : (endOk s).reply = s.reply := rfl
@[simp] theorem endOk_raced (s : State) : (endOk s).raced = s.raced := rfl
@[simp] theorem endOk_unobserved (s : State) : (endOk s).unobserved = s.unobserved := rfl
@[simp] theorem endOk_draws (s : State) : (endOk s).draws = s.draws := rfl

/-! ## raiseError -/

@[simp] theorem raiseError_params (c : ErrCode) (s : State) : (raiseError c s).params = s.params := rfl
@[simp] theorem raiseError_ctrl (c : ErrCode) (s : State) : (raiseError c s).ctrl = s.ctrl := rfl
@[simp] theorem raiseError_status (c : ErrCode) (s : State) : (raiseError c s).status = { s.status with busy := false, err := true, errCode := c.code } := rfl
@[simp] theorem raiseError_thresh (c : ErrCode) (s : State) : (raiseError c s).thresh = s.thresh := rfl
@[simp] theorem raiseError_src (c : ErrCode) (s : State) : (raiseError c s).src = s.src := rfl
@[simp] theorem raiseError_dst (c : ErrCode) (s : State) : (raiseError c s).dst = s.dst := rfl
@[simp] theorem raiseError_len (c : ErrCode) (s : State) : (raiseError c s).len = s.len := rfl
@[simp] theorem raiseError_scalar (c : ErrCode) (s : State) : (raiseError c s).scalar = s.scalar := rfl
@[simp] theorem raiseError_opnd (c : ErrCode) (s : State) : (raiseError c s).opnd = s.opnd := rfl
@[simp] theorem raiseError_result (c : ErrCode) (s : State) : (raiseError c s).result = s.result := rfl
@[simp] theorem raiseError_fault (c : ErrCode) (s : State) : (raiseError c s).fault = s.fault := rfl
@[simp] theorem raiseError_tblAddr (c : ErrCode) (s : State) : (raiseError c s).tblAddr = s.tblAddr := rfl
@[simp] theorem raiseError_logTbl (c : ErrCode) (s : State) : (raiseError c s).logTbl = s.logTbl := rfl
@[simp] theorem raiseError_expTbl (c : ErrCode) (s : State) : (raiseError c s).expTbl = s.expTbl := rfl
@[simp] theorem raiseError_latched (c : ErrCode) (s : State) : (raiseError c s).latched = s.latched := rfl
@[simp] theorem raiseError_dt (c : ErrCode) (s : State) : (raiseError c s).dt = s.dt := rfl
@[simp] theorem raiseError_am (c : ErrCode) (s : State) : (raiseError c s).am = s.am := rfl
@[simp] theorem raiseError_k (c : ErrCode) (s : State) : (raiseError c s).k = s.k := rfl
@[simp] theorem raiseError_mem (c : ErrCode) (s : State) : (raiseError c s).mem = s.mem := rfl
@[simp] theorem raiseError_busMap (c : ErrCode) (s : State) : (raiseError c s).busMap = s.busMap := rfl
@[simp] theorem raiseError_inReset (c : ErrCode) (s : State) : (raiseError c s).inReset = s.inReset := rfl
@[simp] theorem raiseError_inputs (c : ErrCode) (s : State) : (raiseError c s).inputs = s.inputs := rfl
@[simp] theorem raiseError_reply (c : ErrCode) (s : State) : (raiseError c s).reply = s.reply := rfl
@[simp] theorem raiseError_raced (c : ErrCode) (s : State) : (raiseError c s).raced = s.raced := rfl
@[simp] theorem raiseError_unobserved (c : ErrCode) (s : State) : (raiseError c s).unobserved = s.unobserved := rfl
@[simp] theorem raiseError_draws (c : ErrCode) (s : State) : (raiseError c s).draws = s.draws := rfl

/-! ## acknowledge -/

@[simp] theorem acknowledge_params (w : Word) (s : State) : (acknowledge w s).params = s.params := rfl
@[simp] theorem acknowledge_ctrl (w : Word) (s : State) : (acknowledge w s).ctrl = s.ctrl := rfl
@[simp] theorem acknowledge_status (w : Word) (s : State) : (acknowledge w s).status = s.status.w1c w := rfl
@[simp] theorem acknowledge_thresh (w : Word) (s : State) : (acknowledge w s).thresh = s.thresh := rfl
@[simp] theorem acknowledge_src (w : Word) (s : State) : (acknowledge w s).src = s.src := rfl
@[simp] theorem acknowledge_dst (w : Word) (s : State) : (acknowledge w s).dst = s.dst := rfl
@[simp] theorem acknowledge_len (w : Word) (s : State) : (acknowledge w s).len = s.len := rfl
@[simp] theorem acknowledge_scalar (w : Word) (s : State) : (acknowledge w s).scalar = s.scalar := rfl
@[simp] theorem acknowledge_opnd (w : Word) (s : State) : (acknowledge w s).opnd = s.opnd := rfl
@[simp] theorem acknowledge_result (w : Word) (s : State) : (acknowledge w s).result = s.result := rfl
@[simp] theorem acknowledge_fault (w : Word) (s : State) : (acknowledge w s).fault = s.fault := rfl
@[simp] theorem acknowledge_tblAddr (w : Word) (s : State) : (acknowledge w s).tblAddr = s.tblAddr := rfl
@[simp] theorem acknowledge_logTbl (w : Word) (s : State) : (acknowledge w s).logTbl = s.logTbl := rfl
@[simp] theorem acknowledge_expTbl (w : Word) (s : State) : (acknowledge w s).expTbl = s.expTbl := rfl
@[simp] theorem acknowledge_latched (w : Word) (s : State) : (acknowledge w s).latched = s.latched := rfl
@[simp] theorem acknowledge_dt (w : Word) (s : State) : (acknowledge w s).dt = s.dt := rfl
@[simp] theorem acknowledge_am (w : Word) (s : State) : (acknowledge w s).am = s.am := rfl
@[simp] theorem acknowledge_k (w : Word) (s : State) : (acknowledge w s).k = s.k := rfl
@[simp] theorem acknowledge_mem (w : Word) (s : State) : (acknowledge w s).mem = s.mem := rfl
@[simp] theorem acknowledge_busMap (w : Word) (s : State) : (acknowledge w s).busMap = s.busMap := rfl
@[simp] theorem acknowledge_inReset (w : Word) (s : State) : (acknowledge w s).inReset = s.inReset := rfl
@[simp] theorem acknowledge_inputs (w : Word) (s : State) : (acknowledge w s).inputs = s.inputs := rfl
@[simp] theorem acknowledge_reply (w : Word) (s : State) : (acknowledge w s).reply = s.reply := rfl
@[simp] theorem acknowledge_raced (w : Word) (s : State) : (acknowledge w s).raced = s.raced := rfl
@[simp] theorem acknowledge_unobserved (w : Word) (s : State) : (acknowledge w s).unobserved = s.unobserved := rfl
@[simp] theorem acknowledge_draws (w : Word) (s : State) : (acknowledge w s).draws = s.draws := rfl

/-! ## dropWrite -/

@[simp] theorem dropWrite_params (s : State) : (dropWrite s).params = s.params := rfl
@[simp] theorem dropWrite_ctrl (s : State) : (dropWrite s).ctrl = s.ctrl := rfl
@[simp] theorem dropWrite_status (s : State) : (dropWrite s).status = { s.status with ovr := true } := rfl
@[simp] theorem dropWrite_thresh (s : State) : (dropWrite s).thresh = s.thresh := rfl
@[simp] theorem dropWrite_src (s : State) : (dropWrite s).src = s.src := rfl
@[simp] theorem dropWrite_dst (s : State) : (dropWrite s).dst = s.dst := rfl
@[simp] theorem dropWrite_len (s : State) : (dropWrite s).len = s.len := rfl
@[simp] theorem dropWrite_scalar (s : State) : (dropWrite s).scalar = s.scalar := rfl
@[simp] theorem dropWrite_opnd (s : State) : (dropWrite s).opnd = s.opnd := rfl
@[simp] theorem dropWrite_result (s : State) : (dropWrite s).result = s.result := rfl
@[simp] theorem dropWrite_fault (s : State) : (dropWrite s).fault = s.fault := rfl
@[simp] theorem dropWrite_tblAddr (s : State) : (dropWrite s).tblAddr = s.tblAddr := rfl
@[simp] theorem dropWrite_logTbl (s : State) : (dropWrite s).logTbl = s.logTbl := rfl
@[simp] theorem dropWrite_expTbl (s : State) : (dropWrite s).expTbl = s.expTbl := rfl
@[simp] theorem dropWrite_latched (s : State) : (dropWrite s).latched = s.latched := rfl
@[simp] theorem dropWrite_dt (s : State) : (dropWrite s).dt = s.dt := rfl
@[simp] theorem dropWrite_am (s : State) : (dropWrite s).am = s.am := rfl
@[simp] theorem dropWrite_k (s : State) : (dropWrite s).k = s.k := rfl
@[simp] theorem dropWrite_mem (s : State) : (dropWrite s).mem = s.mem := rfl
@[simp] theorem dropWrite_busMap (s : State) : (dropWrite s).busMap = s.busMap := rfl
@[simp] theorem dropWrite_inReset (s : State) : (dropWrite s).inReset = s.inReset := rfl
@[simp] theorem dropWrite_inputs (s : State) : (dropWrite s).inputs = s.inputs := rfl
@[simp] theorem dropWrite_reply (s : State) : (dropWrite s).reply = s.reply := rfl
@[simp] theorem dropWrite_raced (s : State) : (dropWrite s).raced = s.raced := rfl
@[simp] theorem dropWrite_unobserved (s : State) : (dropWrite s).unobserved = s.unobserved := rfl
@[simp] theorem dropWrite_draws (s : State) : (dropWrite s).draws = s.draws := rfl

/-! ## setLastEngine -/

@[simp] theorem setLastEngine_params (e : Engine) (s : State) : (setLastEngine e s).params = s.params := rfl
@[simp] theorem setLastEngine_ctrl (e : Engine) (s : State) : (setLastEngine e s).ctrl = s.ctrl := rfl
@[simp] theorem setLastEngine_status (e : Engine) (s : State) : (setLastEngine e s).status = { s.status with lastEngine := e.code } := rfl
@[simp] theorem setLastEngine_thresh (e : Engine) (s : State) : (setLastEngine e s).thresh = s.thresh := rfl
@[simp] theorem setLastEngine_src (e : Engine) (s : State) : (setLastEngine e s).src = s.src := rfl
@[simp] theorem setLastEngine_dst (e : Engine) (s : State) : (setLastEngine e s).dst = s.dst := rfl
@[simp] theorem setLastEngine_len (e : Engine) (s : State) : (setLastEngine e s).len = s.len := rfl
@[simp] theorem setLastEngine_scalar (e : Engine) (s : State) : (setLastEngine e s).scalar = s.scalar := rfl
@[simp] theorem setLastEngine_opnd (e : Engine) (s : State) : (setLastEngine e s).opnd = s.opnd := rfl
@[simp] theorem setLastEngine_result (e : Engine) (s : State) : (setLastEngine e s).result = s.result := rfl
@[simp] theorem setLastEngine_fault (e : Engine) (s : State) : (setLastEngine e s).fault = s.fault := rfl
@[simp] theorem setLastEngine_tblAddr (e : Engine) (s : State) : (setLastEngine e s).tblAddr = s.tblAddr := rfl
@[simp] theorem setLastEngine_logTbl (e : Engine) (s : State) : (setLastEngine e s).logTbl = s.logTbl := rfl
@[simp] theorem setLastEngine_expTbl (e : Engine) (s : State) : (setLastEngine e s).expTbl = s.expTbl := rfl
@[simp] theorem setLastEngine_latched (e : Engine) (s : State) : (setLastEngine e s).latched = s.latched := rfl
@[simp] theorem setLastEngine_dt (e : Engine) (s : State) : (setLastEngine e s).dt = s.dt := rfl
@[simp] theorem setLastEngine_am (e : Engine) (s : State) : (setLastEngine e s).am = s.am := rfl
@[simp] theorem setLastEngine_k (e : Engine) (s : State) : (setLastEngine e s).k = s.k := rfl
@[simp] theorem setLastEngine_mem (e : Engine) (s : State) : (setLastEngine e s).mem = s.mem := rfl
@[simp] theorem setLastEngine_busMap (e : Engine) (s : State) : (setLastEngine e s).busMap = s.busMap := rfl
@[simp] theorem setLastEngine_inReset (e : Engine) (s : State) : (setLastEngine e s).inReset = s.inReset := rfl
@[simp] theorem setLastEngine_inputs (e : Engine) (s : State) : (setLastEngine e s).inputs = s.inputs := rfl
@[simp] theorem setLastEngine_reply (e : Engine) (s : State) : (setLastEngine e s).reply = s.reply := rfl
@[simp] theorem setLastEngine_raced (e : Engine) (s : State) : (setLastEngine e s).raced = s.raced := rfl
@[simp] theorem setLastEngine_unobserved (e : Engine) (s : State) : (setLastEngine e s).unobserved = s.unobserved := rfl
@[simp] theorem setLastEngine_draws (e : Engine) (s : State) : (setLastEngine e s).draws = s.draws := rfl

/-! ## completeCommand -/

@[simp] theorem completeCommand_params (s : State) : (completeCommand s).params = s.params := rfl
@[simp] theorem completeCommand_ctrl (s : State) : (completeCommand s).ctrl = s.ctrl := rfl
@[simp] theorem completeCommand_status (s : State) : (completeCommand s).status = { s.status with busy := false, done := true, errCode := 0 } := rfl
@[simp] theorem completeCommand_thresh (s : State) : (completeCommand s).thresh = s.thresh := rfl
@[simp] theorem completeCommand_src (s : State) : (completeCommand s).src = s.src := rfl
@[simp] theorem completeCommand_dst (s : State) : (completeCommand s).dst = s.dst := rfl
@[simp] theorem completeCommand_len (s : State) : (completeCommand s).len = s.len := rfl
@[simp] theorem completeCommand_scalar (s : State) : (completeCommand s).scalar = s.scalar := rfl
@[simp] theorem completeCommand_opnd (s : State) : (completeCommand s).opnd = s.opnd := rfl
@[simp] theorem completeCommand_result (s : State) : (completeCommand s).result = s.result := rfl
@[simp] theorem completeCommand_fault (s : State) : (completeCommand s).fault = s.fault := rfl
@[simp] theorem completeCommand_tblAddr (s : State) : (completeCommand s).tblAddr = s.tblAddr := rfl
@[simp] theorem completeCommand_logTbl (s : State) : (completeCommand s).logTbl = s.logTbl := rfl
@[simp] theorem completeCommand_expTbl (s : State) : (completeCommand s).expTbl = s.expTbl := rfl
@[simp] theorem completeCommand_latched (s : State) : (completeCommand s).latched = s.latched := rfl
@[simp] theorem completeCommand_dt (s : State) : (completeCommand s).dt = s.dt := rfl
@[simp] theorem completeCommand_am (s : State) : (completeCommand s).am = s.am := rfl
@[simp] theorem completeCommand_k (s : State) : (completeCommand s).k = s.k := rfl
@[simp] theorem completeCommand_mem (s : State) : (completeCommand s).mem = s.mem := rfl
@[simp] theorem completeCommand_busMap (s : State) : (completeCommand s).busMap = s.busMap := rfl
@[simp] theorem completeCommand_inReset (s : State) : (completeCommand s).inReset = s.inReset := rfl
@[simp] theorem completeCommand_inputs (s : State) : (completeCommand s).inputs = s.inputs := rfl
@[simp] theorem completeCommand_reply (s : State) : (completeCommand s).reply = s.reply := rfl
@[simp] theorem completeCommand_raced (s : State) : (completeCommand s).raced = s.raced := rfl
@[simp] theorem completeCommand_unobserved (s : State) :
    (completeCommand s).unobserved =
      { span := latchedSpan s.latched, raised := s.ctrl.ieDone && !s.irq } :: s.unobserved := rfl
@[simp] theorem completeCommand_draws (s : State) : (completeCommand s).draws = s.draws := rfl

/-! ## busFault -/

@[simp] theorem busFault_params (a : Nat) (s : State) : (busFault a s).params = s.params := rfl
@[simp] theorem busFault_ctrl (a : Nat) (s : State) : (busFault a s).ctrl = s.ctrl := rfl
@[simp] theorem busFault_status (a : Nat) (s : State) : (busFault a s).status = { s.status with busy := false, err := true, errCode := 8 } := rfl
@[simp] theorem busFault_thresh (a : Nat) (s : State) : (busFault a s).thresh = s.thresh := rfl
@[simp] theorem busFault_src (a : Nat) (s : State) : (busFault a s).src = s.src := rfl
@[simp] theorem busFault_dst (a : Nat) (s : State) : (busFault a s).dst = s.dst := rfl
@[simp] theorem busFault_len (a : Nat) (s : State) : (busFault a s).len = s.len := rfl
@[simp] theorem busFault_scalar (a : Nat) (s : State) : (busFault a s).scalar = s.scalar := rfl
@[simp] theorem busFault_opnd (a : Nat) (s : State) : (busFault a s).opnd = s.opnd := rfl
@[simp] theorem busFault_result (a : Nat) (s : State) : (busFault a s).result = s.result := rfl
@[simp] theorem busFault_fault (a : Nat) (s : State) : (busFault a s).fault = maskAddr s.params (BitVec.ofNat 64 a) := rfl
@[simp] theorem busFault_tblAddr (a : Nat) (s : State) : (busFault a s).tblAddr = s.tblAddr := rfl
@[simp] theorem busFault_logTbl (a : Nat) (s : State) : (busFault a s).logTbl = s.logTbl := rfl
@[simp] theorem busFault_expTbl (a : Nat) (s : State) : (busFault a s).expTbl = s.expTbl := rfl
@[simp] theorem busFault_latched (a : Nat) (s : State) : (busFault a s).latched = s.latched := rfl
@[simp] theorem busFault_dt (a : Nat) (s : State) : (busFault a s).dt = s.dt := rfl
@[simp] theorem busFault_am (a : Nat) (s : State) : (busFault a s).am = s.am := rfl
@[simp] theorem busFault_k (a : Nat) (s : State) : (busFault a s).k = s.k := rfl
@[simp] theorem busFault_mem (a : Nat) (s : State) : (busFault a s).mem = s.mem := rfl
@[simp] theorem busFault_busMap (a : Nat) (s : State) : (busFault a s).busMap = s.busMap := rfl
@[simp] theorem busFault_inReset (a : Nat) (s : State) : (busFault a s).inReset = s.inReset := rfl
@[simp] theorem busFault_inputs (a : Nat) (s : State) : (busFault a s).inputs = s.inputs := rfl
@[simp] theorem busFault_reply (a : Nat) (s : State) : (busFault a s).reply = s.reply := rfl
@[simp] theorem busFault_raced (a : Nat) (s : State) : (busFault a s).raced = s.raced := rfl
@[simp] theorem busFault_unobserved (a : Nat) (s : State) :
    (busFault a s).unobserved =
      { span := latchedSpan s.latched, raised := s.ctrl.ieErr && !s.irq } :: s.unobserved := rfl
@[simp] theorem busFault_draws (a : Nat) (s : State) : (busFault a s).draws = s.draws := rfl

/-! ## withReply -/

@[simp] theorem withReply_params (r : Reply) (s : State) : (withReply r s).params = s.params := rfl
@[simp] theorem withReply_ctrl (r : Reply) (s : State) : (withReply r s).ctrl = s.ctrl := rfl
@[simp] theorem withReply_status (r : Reply) (s : State) : (withReply r s).status = s.status := rfl
@[simp] theorem withReply_thresh (r : Reply) (s : State) : (withReply r s).thresh = s.thresh := rfl
@[simp] theorem withReply_src (r : Reply) (s : State) : (withReply r s).src = s.src := rfl
@[simp] theorem withReply_dst (r : Reply) (s : State) : (withReply r s).dst = s.dst := rfl
@[simp] theorem withReply_len (r : Reply) (s : State) : (withReply r s).len = s.len := rfl
@[simp] theorem withReply_scalar (r : Reply) (s : State) : (withReply r s).scalar = s.scalar := rfl
@[simp] theorem withReply_opnd (r : Reply) (s : State) : (withReply r s).opnd = s.opnd := rfl
@[simp] theorem withReply_result (r : Reply) (s : State) : (withReply r s).result = s.result := rfl
@[simp] theorem withReply_fault (r : Reply) (s : State) : (withReply r s).fault = s.fault := rfl
@[simp] theorem withReply_tblAddr (r : Reply) (s : State) : (withReply r s).tblAddr = s.tblAddr := rfl
@[simp] theorem withReply_logTbl (r : Reply) (s : State) : (withReply r s).logTbl = s.logTbl := rfl
@[simp] theorem withReply_expTbl (r : Reply) (s : State) : (withReply r s).expTbl = s.expTbl := rfl
@[simp] theorem withReply_latched (r : Reply) (s : State) : (withReply r s).latched = s.latched := rfl
@[simp] theorem withReply_dt (r : Reply) (s : State) : (withReply r s).dt = s.dt := rfl
@[simp] theorem withReply_am (r : Reply) (s : State) : (withReply r s).am = s.am := rfl
@[simp] theorem withReply_k (r : Reply) (s : State) : (withReply r s).k = s.k := rfl
@[simp] theorem withReply_mem (r : Reply) (s : State) : (withReply r s).mem = s.mem := rfl
@[simp] theorem withReply_busMap (r : Reply) (s : State) : (withReply r s).busMap = s.busMap := rfl
@[simp] theorem withReply_inReset (r : Reply) (s : State) : (withReply r s).inReset = s.inReset := rfl
@[simp] theorem withReply_inputs (r : Reply) (s : State) : (withReply r s).inputs = s.inputs := rfl
@[simp] theorem withReply_reply (r : Reply) (s : State) : (withReply r s).reply = r := rfl
@[simp] theorem withReply_raced (r : Reply) (s : State) : (withReply r s).raced = s.raced := rfl
@[simp] theorem withReply_unobserved (r : Reply) (s : State) : (withReply r s).unobserved = s.unobserved := rfl
@[simp] theorem withReply_draws (r : Reply) (s : State) : (withReply r s).draws = s.draws := rfl

/-! ## withInputs -/

@[simp] theorem withInputs_params (es : List Event) (s : State) : (withInputs es s).params = s.params := rfl
@[simp] theorem withInputs_ctrl (es : List Event) (s : State) : (withInputs es s).ctrl = s.ctrl := rfl
@[simp] theorem withInputs_status (es : List Event) (s : State) : (withInputs es s).status = s.status := rfl
@[simp] theorem withInputs_thresh (es : List Event) (s : State) : (withInputs es s).thresh = s.thresh := rfl
@[simp] theorem withInputs_src (es : List Event) (s : State) : (withInputs es s).src = s.src := rfl
@[simp] theorem withInputs_dst (es : List Event) (s : State) : (withInputs es s).dst = s.dst := rfl
@[simp] theorem withInputs_len (es : List Event) (s : State) : (withInputs es s).len = s.len := rfl
@[simp] theorem withInputs_scalar (es : List Event) (s : State) : (withInputs es s).scalar = s.scalar := rfl
@[simp] theorem withInputs_opnd (es : List Event) (s : State) : (withInputs es s).opnd = s.opnd := rfl
@[simp] theorem withInputs_result (es : List Event) (s : State) : (withInputs es s).result = s.result := rfl
@[simp] theorem withInputs_fault (es : List Event) (s : State) : (withInputs es s).fault = s.fault := rfl
@[simp] theorem withInputs_tblAddr (es : List Event) (s : State) : (withInputs es s).tblAddr = s.tblAddr := rfl
@[simp] theorem withInputs_logTbl (es : List Event) (s : State) : (withInputs es s).logTbl = s.logTbl := rfl
@[simp] theorem withInputs_expTbl (es : List Event) (s : State) : (withInputs es s).expTbl = s.expTbl := rfl
@[simp] theorem withInputs_latched (es : List Event) (s : State) : (withInputs es s).latched = s.latched := rfl
@[simp] theorem withInputs_dt (es : List Event) (s : State) : (withInputs es s).dt = s.dt := rfl
@[simp] theorem withInputs_am (es : List Event) (s : State) : (withInputs es s).am = s.am := rfl
@[simp] theorem withInputs_k (es : List Event) (s : State) : (withInputs es s).k = s.k := rfl
@[simp] theorem withInputs_mem (es : List Event) (s : State) : (withInputs es s).mem = s.mem := rfl
@[simp] theorem withInputs_busMap (es : List Event) (s : State) : (withInputs es s).busMap = s.busMap := rfl
@[simp] theorem withInputs_inReset (es : List Event) (s : State) : (withInputs es s).inReset = s.inReset := rfl
@[simp] theorem withInputs_inputs (es : List Event) (s : State) : (withInputs es s).inputs = es := rfl
@[simp] theorem withInputs_reply (es : List Event) (s : State) : (withInputs es s).reply = s.reply := rfl
@[simp] theorem withInputs_raced (es : List Event) (s : State) : (withInputs es s).raced = s.raced := rfl
@[simp] theorem withInputs_unobserved (es : List Event) (s : State) : (withInputs es s).unobserved = s.unobserved := rfl
@[simp] theorem withInputs_draws (es : List Event) (s : State) : (withInputs es s).draws = s.draws := rfl

/-! ## latch -/

@[simp] theorem latch_params (m : Mode) (e : Engine) (g : Gran) (s : State) : (latch m e g s).params = s.params := rfl
@[simp] theorem latch_ctrl (m : Mode) (e : Engine) (g : Gran) (s : State) : (latch m e g s).ctrl = s.ctrl := rfl
@[simp] theorem latch_status (m : Mode) (e : Engine) (g : Gran) (s : State) : (latch m e g s).status = s.status := rfl
@[simp] theorem latch_thresh (m : Mode) (e : Engine) (g : Gran) (s : State) : (latch m e g s).thresh = s.thresh := rfl
@[simp] theorem latch_src (m : Mode) (e : Engine) (g : Gran) (s : State) : (latch m e g s).src = s.src := rfl
@[simp] theorem latch_dst (m : Mode) (e : Engine) (g : Gran) (s : State) : (latch m e g s).dst = s.dst := rfl
@[simp] theorem latch_len (m : Mode) (e : Engine) (g : Gran) (s : State) : (latch m e g s).len = s.len := rfl
@[simp] theorem latch_scalar (m : Mode) (e : Engine) (g : Gran) (s : State) : (latch m e g s).scalar = s.scalar := rfl
@[simp] theorem latch_opnd (m : Mode) (e : Engine) (g : Gran) (s : State) : (latch m e g s).opnd = s.opnd := rfl
@[simp] theorem latch_result (m : Mode) (e : Engine) (g : Gran) (s : State) : (latch m e g s).result = s.result := rfl
@[simp] theorem latch_fault (m : Mode) (e : Engine) (g : Gran) (s : State) : (latch m e g s).fault = s.fault := rfl
@[simp] theorem latch_tblAddr (m : Mode) (e : Engine) (g : Gran) (s : State) : (latch m e g s).tblAddr = s.tblAddr := rfl
@[simp] theorem latch_logTbl (m : Mode) (e : Engine) (g : Gran) (s : State) : (latch m e g s).logTbl = s.logTbl := rfl
@[simp] theorem latch_expTbl (m : Mode) (e : Engine) (g : Gran) (s : State) : (latch m e g s).expTbl = s.expTbl := rfl
@[simp] theorem latch_latched (m : Mode) (e : Engine) (g : Gran) (s : State) : (latch m e g s).latched = ⟨s.src, s.dst, s.len, s.scalar, m, e, g, chunkWidth s.params e⟩ := rfl
@[simp] theorem latch_dt (m : Mode) (e : Engine) (g : Gran) (s : State) : (latch m e g s).dt = s.dt := rfl
@[simp] theorem latch_am (m : Mode) (e : Engine) (g : Gran) (s : State) : (latch m e g s).am = s.am := rfl
@[simp] theorem latch_k (m : Mode) (e : Engine) (g : Gran) (s : State) : (latch m e g s).k = s.k := rfl
@[simp] theorem latch_mem (m : Mode) (e : Engine) (g : Gran) (s : State) : (latch m e g s).mem = s.mem := rfl
@[simp] theorem latch_busMap (m : Mode) (e : Engine) (g : Gran) (s : State) : (latch m e g s).busMap = s.busMap := rfl
@[simp] theorem latch_inReset (m : Mode) (e : Engine) (g : Gran) (s : State) : (latch m e g s).inReset = s.inReset := rfl
@[simp] theorem latch_inputs (m : Mode) (e : Engine) (g : Gran) (s : State) : (latch m e g s).inputs = s.inputs := rfl
@[simp] theorem latch_reply (m : Mode) (e : Engine) (g : Gran) (s : State) : (latch m e g s).reply = s.reply := rfl
@[simp] theorem latch_raced (m : Mode) (e : Engine) (g : Gran) (s : State) : (latch m e g s).raced = s.raced := rfl
@[simp] theorem latch_unobserved (m : Mode) (e : Engine) (g : Gran) (s : State) : (latch m e g s).unobserved = s.unobserved := rfl
@[simp] theorem latch_draws (m : Mode) (e : Engine) (g : Gran) (s : State) : (latch m e g s).draws = s.draws := rfl

/-! ## fillDT -/

@[simp] theorem fillDT_params (g : Gran) (a : Elem) (s : State) : (fillDT g a s).params = s.params := rfl
@[simp] theorem fillDT_ctrl (g : Gran) (a : Elem) (s : State) : (fillDT g a s).ctrl = s.ctrl := rfl
@[simp] theorem fillDT_status (g : Gran) (a : Elem) (s : State) : (fillDT g a s).status = s.status := rfl
@[simp] theorem fillDT_thresh (g : Gran) (a : Elem) (s : State) : (fillDT g a s).thresh = s.thresh := rfl
@[simp] theorem fillDT_src (g : Gran) (a : Elem) (s : State) : (fillDT g a s).src = s.src := rfl
@[simp] theorem fillDT_dst (g : Gran) (a : Elem) (s : State) : (fillDT g a s).dst = s.dst := rfl
@[simp] theorem fillDT_len (g : Gran) (a : Elem) (s : State) : (fillDT g a s).len = s.len := rfl
@[simp] theorem fillDT_scalar (g : Gran) (a : Elem) (s : State) : (fillDT g a s).scalar = s.scalar := rfl
@[simp] theorem fillDT_opnd (g : Gran) (a : Elem) (s : State) : (fillDT g a s).opnd = s.opnd := rfl
@[simp] theorem fillDT_result (g : Gran) (a : Elem) (s : State) : (fillDT g a s).result = s.result := rfl
@[simp] theorem fillDT_fault (g : Gran) (a : Elem) (s : State) : (fillDT g a s).fault = s.fault := rfl
@[simp] theorem fillDT_tblAddr (g : Gran) (a : Elem) (s : State) : (fillDT g a s).tblAddr = s.tblAddr := rfl
@[simp] theorem fillDT_logTbl (g : Gran) (a : Elem) (s : State) : (fillDT g a s).logTbl = s.logTbl := rfl
@[simp] theorem fillDT_expTbl (g : Gran) (a : Elem) (s : State) : (fillDT g a s).expTbl = s.expTbl := rfl
@[simp] theorem fillDT_latched (g : Gran) (a : Elem) (s : State) : (fillDT g a s).latched = s.latched := rfl
@[simp] theorem fillDT_dt (g : Gran) (a : Elem) (s : State) : (fillDT g a s).dt = (buildDT s g a s.draws).1 := rfl
@[simp] theorem fillDT_am (g : Gran) (a : Elem) (s : State) : (fillDT g a s).am = s.am := rfl
@[simp] theorem fillDT_k (g : Gran) (a : Elem) (s : State) : (fillDT g a s).k = s.k := rfl
@[simp] theorem fillDT_mem (g : Gran) (a : Elem) (s : State) : (fillDT g a s).mem = s.mem := rfl
@[simp] theorem fillDT_busMap (g : Gran) (a : Elem) (s : State) : (fillDT g a s).busMap = s.busMap := rfl
@[simp] theorem fillDT_inReset (g : Gran) (a : Elem) (s : State) : (fillDT g a s).inReset = s.inReset := rfl
@[simp] theorem fillDT_inputs (g : Gran) (a : Elem) (s : State) : (fillDT g a s).inputs = s.inputs := rfl
@[simp] theorem fillDT_reply (g : Gran) (a : Elem) (s : State) : (fillDT g a s).reply = s.reply := rfl
@[simp] theorem fillDT_raced (g : Gran) (a : Elem) (s : State) : (fillDT g a s).raced = s.raced := rfl
@[simp] theorem fillDT_unobserved (g : Gran) (a : Elem) (s : State) : (fillDT g a s).unobserved = s.unobserved := rfl
@[simp] theorem fillDT_draws (g : Gran) (a : Elem) (s : State) : (fillDT g a s).draws = (buildDT s g a s.draws).2 := rfl

/-! ## fillAM -/

@[simp] theorem fillAM_params (a : Elem) (s : State) : (fillAM a s).params = s.params := rfl
@[simp] theorem fillAM_ctrl (a : Elem) (s : State) : (fillAM a s).ctrl = s.ctrl := rfl
@[simp] theorem fillAM_status (a : Elem) (s : State) : (fillAM a s).status = s.status := rfl
@[simp] theorem fillAM_thresh (a : Elem) (s : State) : (fillAM a s).thresh = s.thresh := rfl
@[simp] theorem fillAM_src (a : Elem) (s : State) : (fillAM a s).src = s.src := rfl
@[simp] theorem fillAM_dst (a : Elem) (s : State) : (fillAM a s).dst = s.dst := rfl
@[simp] theorem fillAM_len (a : Elem) (s : State) : (fillAM a s).len = s.len := rfl
@[simp] theorem fillAM_scalar (a : Elem) (s : State) : (fillAM a s).scalar = s.scalar := rfl
@[simp] theorem fillAM_opnd (a : Elem) (s : State) : (fillAM a s).opnd = s.opnd := rfl
@[simp] theorem fillAM_result (a : Elem) (s : State) : (fillAM a s).result = s.result := rfl
@[simp] theorem fillAM_fault (a : Elem) (s : State) : (fillAM a s).fault = s.fault := rfl
@[simp] theorem fillAM_tblAddr (a : Elem) (s : State) : (fillAM a s).tblAddr = s.tblAddr := rfl
@[simp] theorem fillAM_logTbl (a : Elem) (s : State) : (fillAM a s).logTbl = s.logTbl := rfl
@[simp] theorem fillAM_expTbl (a : Elem) (s : State) : (fillAM a s).expTbl = s.expTbl := rfl
@[simp] theorem fillAM_latched (a : Elem) (s : State) : (fillAM a s).latched = s.latched := rfl
@[simp] theorem fillAM_dt (a : Elem) (s : State) : (fillAM a s).dt = s.dt := rfl
@[simp] theorem fillAM_am (a : Elem) (s : State) : (fillAM a s).am = buildAM s.params.poly a := rfl
@[simp] theorem fillAM_k (a : Elem) (s : State) : (fillAM a s).k = s.k := rfl
@[simp] theorem fillAM_mem (a : Elem) (s : State) : (fillAM a s).mem = s.mem := rfl
@[simp] theorem fillAM_busMap (a : Elem) (s : State) : (fillAM a s).busMap = s.busMap := rfl
@[simp] theorem fillAM_inReset (a : Elem) (s : State) : (fillAM a s).inReset = s.inReset := rfl
@[simp] theorem fillAM_inputs (a : Elem) (s : State) : (fillAM a s).inputs = s.inputs := rfl
@[simp] theorem fillAM_reply (a : Elem) (s : State) : (fillAM a s).reply = s.reply := rfl
@[simp] theorem fillAM_raced (a : Elem) (s : State) : (fillAM a s).raced = s.raced := rfl
@[simp] theorem fillAM_unobserved (a : Elem) (s : State) : (fillAM a s).unobserved = s.unobserved := rfl
@[simp] theorem fillAM_draws (a : Elem) (s : State) : (fillAM a s).draws = s.draws := rfl

/-! ## muleRun -/

@[simp] theorem muleRun_params (m : Mode) (e : Engine) (s : State) : (muleRun m e s).params = s.params := rfl
@[simp] theorem muleRun_ctrl (m : Mode) (e : Engine) (s : State) : (muleRun m e s).ctrl = s.ctrl := rfl
@[simp] theorem muleRun_status (m : Mode) (e : Engine) (s : State) : (muleRun m e s).status = s.status := rfl
@[simp] theorem muleRun_thresh (m : Mode) (e : Engine) (s : State) : (muleRun m e s).thresh = s.thresh := rfl
@[simp] theorem muleRun_src (m : Mode) (e : Engine) (s : State) : (muleRun m e s).src = s.src := rfl
@[simp] theorem muleRun_dst (m : Mode) (e : Engine) (s : State) : (muleRun m e s).dst = s.dst := rfl
@[simp] theorem muleRun_len (m : Mode) (e : Engine) (s : State) : (muleRun m e s).len = s.len := rfl
@[simp] theorem muleRun_scalar (m : Mode) (e : Engine) (s : State) : (muleRun m e s).scalar = s.scalar := rfl
@[simp] theorem muleRun_opnd (m : Mode) (e : Engine) (s : State) : (muleRun m e s).opnd = s.opnd := rfl
@[simp] theorem muleRun_result (m : Mode) (e : Engine) (s : State) : (muleRun m e s).result = muleResult m s.result (prod s e s.opnd s.scalar false s.draws).1 := rfl
@[simp] theorem muleRun_fault (m : Mode) (e : Engine) (s : State) : (muleRun m e s).fault = s.fault := rfl
@[simp] theorem muleRun_tblAddr (m : Mode) (e : Engine) (s : State) : (muleRun m e s).tblAddr = s.tblAddr := rfl
@[simp] theorem muleRun_logTbl (m : Mode) (e : Engine) (s : State) : (muleRun m e s).logTbl = s.logTbl := rfl
@[simp] theorem muleRun_expTbl (m : Mode) (e : Engine) (s : State) : (muleRun m e s).expTbl = s.expTbl := rfl
@[simp] theorem muleRun_latched (m : Mode) (e : Engine) (s : State) : (muleRun m e s).latched = s.latched := rfl
@[simp] theorem muleRun_dt (m : Mode) (e : Engine) (s : State) : (muleRun m e s).dt = s.dt := rfl
@[simp] theorem muleRun_am (m : Mode) (e : Engine) (s : State) : (muleRun m e s).am = s.am := rfl
@[simp] theorem muleRun_k (m : Mode) (e : Engine) (s : State) : (muleRun m e s).k = s.k := rfl
@[simp] theorem muleRun_mem (m : Mode) (e : Engine) (s : State) : (muleRun m e s).mem = s.mem := rfl
@[simp] theorem muleRun_busMap (m : Mode) (e : Engine) (s : State) : (muleRun m e s).busMap = s.busMap := rfl
@[simp] theorem muleRun_inReset (m : Mode) (e : Engine) (s : State) : (muleRun m e s).inReset = s.inReset := rfl
@[simp] theorem muleRun_inputs (m : Mode) (e : Engine) (s : State) : (muleRun m e s).inputs = s.inputs := rfl
@[simp] theorem muleRun_reply (m : Mode) (e : Engine) (s : State) : (muleRun m e s).reply = s.reply := rfl
@[simp] theorem muleRun_raced (m : Mode) (e : Engine) (s : State) : (muleRun m e s).raced = s.raced := rfl
@[simp] theorem muleRun_unobserved (m : Mode) (e : Engine) (s : State) : (muleRun m e s).unobserved = s.unobserved := rfl
@[simp] theorem muleRun_draws (m : Mode) (e : Engine) (s : State) : (muleRun m e s).draws = (prod s e s.opnd s.scalar false s.draws).2 := rfl

/-! ## drawDst -/

@[simp] theorem drawDst_params (s : State) : (drawDst s).params = s.params := rfl
@[simp] theorem drawDst_ctrl (s : State) : (drawDst s).ctrl = s.ctrl := rfl
@[simp] theorem drawDst_status (s : State) : (drawDst s).status = s.status := rfl
@[simp] theorem drawDst_thresh (s : State) : (drawDst s).thresh = s.thresh := rfl
@[simp] theorem drawDst_src (s : State) : (drawDst s).src = s.src := rfl
@[simp] theorem drawDst_dst (s : State) : (drawDst s).dst = s.dst := rfl
@[simp] theorem drawDst_len (s : State) : (drawDst s).len = s.len := rfl
@[simp] theorem drawDst_scalar (s : State) : (drawDst s).scalar = s.scalar := rfl
@[simp] theorem drawDst_opnd (s : State) : (drawDst s).opnd = s.opnd := rfl
@[simp] theorem drawDst_result (s : State) : (drawDst s).result = s.result := rfl
@[simp] theorem drawDst_fault (s : State) : (drawDst s).fault = s.fault := rfl
@[simp] theorem drawDst_tblAddr (s : State) : (drawDst s).tblAddr = s.tblAddr := rfl
@[simp] theorem drawDst_logTbl (s : State) : (drawDst s).logTbl = s.logTbl := rfl
@[simp] theorem drawDst_expTbl (s : State) : (drawDst s).expTbl = s.expTbl := rfl
@[simp] theorem drawDst_latched (s : State) : (drawDst s).latched = s.latched := rfl
@[simp] theorem drawDst_dt (s : State) : (drawDst s).dt = s.dt := rfl
@[simp] theorem drawDst_am (s : State) : (drawDst s).am = s.am := rfl
@[simp] theorem drawDst_k (s : State) : (drawDst s).k = s.k := rfl
@[simp] theorem drawDst_mem (s : State) : (drawDst s).mem = (drawBytes s.mem s.latched.dst.toNat s.latched.len.toNat s.draws).1 := rfl
@[simp] theorem drawDst_busMap (s : State) : (drawDst s).busMap = s.busMap := rfl
@[simp] theorem drawDst_inReset (s : State) : (drawDst s).inReset = s.inReset := rfl
@[simp] theorem drawDst_inputs (s : State) : (drawDst s).inputs = s.inputs := rfl
@[simp] theorem drawDst_reply (s : State) : (drawDst s).reply = s.reply := rfl
@[simp] theorem drawDst_raced (s : State) : (drawDst s).raced = s.raced := rfl
@[simp] theorem drawDst_unobserved (s : State) : (drawDst s).unobserved = s.unobserved := rfl
@[simp] theorem drawDst_draws (s : State) : (drawDst s).draws = (drawBytes s.mem s.latched.dst.toNat s.latched.len.toNat s.draws).2 := rfl

/-! ## storeChunk -/

@[simp] theorem storeChunk_params (s : State) : (storeChunk s).params = s.params := rfl
@[simp] theorem storeChunk_ctrl (s : State) : (storeChunk s).ctrl = s.ctrl := rfl
@[simp] theorem storeChunk_status (s : State) : (storeChunk s).status = s.status := rfl
@[simp] theorem storeChunk_thresh (s : State) : (storeChunk s).thresh = s.thresh := rfl
@[simp] theorem storeChunk_src (s : State) : (storeChunk s).src = s.src := rfl
@[simp] theorem storeChunk_dst (s : State) : (storeChunk s).dst = s.dst := rfl
@[simp] theorem storeChunk_len (s : State) : (storeChunk s).len = s.len := rfl
@[simp] theorem storeChunk_scalar (s : State) : (storeChunk s).scalar = s.scalar := rfl
@[simp] theorem storeChunk_opnd (s : State) : (storeChunk s).opnd = s.opnd := rfl
@[simp] theorem storeChunk_result (s : State) : (storeChunk s).result = s.result := rfl
@[simp] theorem storeChunk_fault (s : State) : (storeChunk s).fault = s.fault := rfl
@[simp] theorem storeChunk_tblAddr (s : State) : (storeChunk s).tblAddr = s.tblAddr := rfl
@[simp] theorem storeChunk_logTbl (s : State) : (storeChunk s).logTbl = s.logTbl := rfl
@[simp] theorem storeChunk_expTbl (s : State) : (storeChunk s).expTbl = s.expTbl := rfl
@[simp] theorem storeChunk_latched (s : State) : (storeChunk s).latched = s.latched := rfl
@[simp] theorem storeChunk_dt (s : State) : (storeChunk s).dt = s.dt := rfl
@[simp] theorem storeChunk_am (s : State) : (storeChunk s).am = s.am := rfl
@[simp] theorem storeChunk_k (s : State) : (storeChunk s).k = s.k + chunkLen s := rfl
@[simp] theorem storeChunk_mem (s : State) : (storeChunk s).mem = if writesDest s.latched then writeElems s.mem (s.latched.dst.toNat + s.k) (chunkValues s).1 else s.mem := rfl
@[simp] theorem storeChunk_busMap (s : State) : (storeChunk s).busMap = s.busMap := rfl
@[simp] theorem storeChunk_inReset (s : State) : (storeChunk s).inReset = s.inReset := rfl
@[simp] theorem storeChunk_inputs (s : State) : (storeChunk s).inputs = s.inputs := rfl
@[simp] theorem storeChunk_reply (s : State) : (storeChunk s).reply = s.reply := rfl
@[simp] theorem storeChunk_raced (s : State) : (storeChunk s).raced = s.raced := rfl
@[simp] theorem storeChunk_unobserved (s : State) : (storeChunk s).unobserved = s.unobserved := rfl
@[simp] theorem storeChunk_draws (s : State) : (storeChunk s).draws = (chunkValues s).2 := rfl

/-! ## tearChunk -/

@[simp] theorem tearChunk_params (s : State) : (tearChunk s).params = s.params := rfl
@[simp] theorem tearChunk_ctrl (s : State) : (tearChunk s).ctrl = s.ctrl := rfl
@[simp] theorem tearChunk_status (s : State) : (tearChunk s).status = s.status := rfl
@[simp] theorem tearChunk_thresh (s : State) : (tearChunk s).thresh = s.thresh := rfl
@[simp] theorem tearChunk_src (s : State) : (tearChunk s).src = s.src := rfl
@[simp] theorem tearChunk_dst (s : State) : (tearChunk s).dst = s.dst := rfl
@[simp] theorem tearChunk_len (s : State) : (tearChunk s).len = s.len := rfl
@[simp] theorem tearChunk_scalar (s : State) : (tearChunk s).scalar = s.scalar := rfl
@[simp] theorem tearChunk_opnd (s : State) : (tearChunk s).opnd = s.opnd := rfl
@[simp] theorem tearChunk_result (s : State) : (tearChunk s).result = s.result := rfl
@[simp] theorem tearChunk_fault (s : State) : (tearChunk s).fault = s.fault := rfl
@[simp] theorem tearChunk_tblAddr (s : State) : (tearChunk s).tblAddr = s.tblAddr := rfl
@[simp] theorem tearChunk_logTbl (s : State) : (tearChunk s).logTbl = s.logTbl := rfl
@[simp] theorem tearChunk_expTbl (s : State) : (tearChunk s).expTbl = s.expTbl := rfl
@[simp] theorem tearChunk_latched (s : State) : (tearChunk s).latched = s.latched := rfl
@[simp] theorem tearChunk_dt (s : State) : (tearChunk s).dt = s.dt := rfl
@[simp] theorem tearChunk_am (s : State) : (tearChunk s).am = s.am := rfl
@[simp] theorem tearChunk_k (s : State) : (tearChunk s).k = s.k := rfl
@[simp] theorem tearChunk_busMap (s : State) : (tearChunk s).busMap = s.busMap := rfl
@[simp] theorem tearChunk_inReset (s : State) : (tearChunk s).inReset = s.inReset := rfl
@[simp] theorem tearChunk_inputs (s : State) : (tearChunk s).inputs = s.inputs := rfl
@[simp] theorem tearChunk_reply (s : State) : (tearChunk s).reply = s.reply := rfl
@[simp] theorem tearChunk_raced (s : State) : (tearChunk s).raced = s.raced := rfl
@[simp] theorem tearChunk_unobserved (s : State) : (tearChunk s).unobserved = s.unobserved := rfl

/-! ## resetEvent -/

@[simp] theorem resetEvent_params (s : State) : (resetEvent s).params = s.params := rfl
@[simp] theorem resetEvent_busMap (s : State) : (resetEvent s).busMap = s.busMap := rfl
@[simp] theorem resetEvent_inputs (s : State) : (resetEvent s).inputs = s.inputs := rfl
@[simp] theorem resetEvent_reply (s : State) : (resetEvent s).reply = s.reply := rfl

/-! ## buildDerived: only DT, AM and the free values change -/

@[simp] theorem buildDerived_params (e : Engine) (g : Gran) (a : Elem) (s : State) :
    (buildDerived e g a s).params = s.params := by
  unfold buildDerived; split
  · rfl
  · cases e <;> rfl

@[simp] theorem buildDerived_ctrl (e : Engine) (g : Gran) (a : Elem) (s : State) :
    (buildDerived e g a s).ctrl = s.ctrl := by
  unfold buildDerived; split
  · rfl
  · cases e <;> rfl

@[simp] theorem buildDerived_status (e : Engine) (g : Gran) (a : Elem) (s : State) :
    (buildDerived e g a s).status = s.status := by
  unfold buildDerived; split
  · rfl
  · cases e <;> rfl

@[simp] theorem buildDerived_thresh (e : Engine) (g : Gran) (a : Elem) (s : State) :
    (buildDerived e g a s).thresh = s.thresh := by
  unfold buildDerived; split
  · rfl
  · cases e <;> rfl

@[simp] theorem buildDerived_src (e : Engine) (g : Gran) (a : Elem) (s : State) :
    (buildDerived e g a s).src = s.src := by
  unfold buildDerived; split
  · rfl
  · cases e <;> rfl

@[simp] theorem buildDerived_dst (e : Engine) (g : Gran) (a : Elem) (s : State) :
    (buildDerived e g a s).dst = s.dst := by
  unfold buildDerived; split
  · rfl
  · cases e <;> rfl

@[simp] theorem buildDerived_len (e : Engine) (g : Gran) (a : Elem) (s : State) :
    (buildDerived e g a s).len = s.len := by
  unfold buildDerived; split
  · rfl
  · cases e <;> rfl

@[simp] theorem buildDerived_scalar (e : Engine) (g : Gran) (a : Elem) (s : State) :
    (buildDerived e g a s).scalar = s.scalar := by
  unfold buildDerived; split
  · rfl
  · cases e <;> rfl

@[simp] theorem buildDerived_opnd (e : Engine) (g : Gran) (a : Elem) (s : State) :
    (buildDerived e g a s).opnd = s.opnd := by
  unfold buildDerived; split
  · rfl
  · cases e <;> rfl

@[simp] theorem buildDerived_result (e : Engine) (g : Gran) (a : Elem) (s : State) :
    (buildDerived e g a s).result = s.result := by
  unfold buildDerived; split
  · rfl
  · cases e <;> rfl

@[simp] theorem buildDerived_fault (e : Engine) (g : Gran) (a : Elem) (s : State) :
    (buildDerived e g a s).fault = s.fault := by
  unfold buildDerived; split
  · rfl
  · cases e <;> rfl

@[simp] theorem buildDerived_tblAddr (e : Engine) (g : Gran) (a : Elem) (s : State) :
    (buildDerived e g a s).tblAddr = s.tblAddr := by
  unfold buildDerived; split
  · rfl
  · cases e <;> rfl

@[simp] theorem buildDerived_logTbl (e : Engine) (g : Gran) (a : Elem) (s : State) :
    (buildDerived e g a s).logTbl = s.logTbl := by
  unfold buildDerived; split
  · rfl
  · cases e <;> rfl

@[simp] theorem buildDerived_expTbl (e : Engine) (g : Gran) (a : Elem) (s : State) :
    (buildDerived e g a s).expTbl = s.expTbl := by
  unfold buildDerived; split
  · rfl
  · cases e <;> rfl

@[simp] theorem buildDerived_latched (e : Engine) (g : Gran) (a : Elem) (s : State) :
    (buildDerived e g a s).latched = s.latched := by
  unfold buildDerived; split
  · rfl
  · cases e <;> rfl

@[simp] theorem buildDerived_k (e : Engine) (g : Gran) (a : Elem) (s : State) :
    (buildDerived e g a s).k = s.k := by
  unfold buildDerived; split
  · rfl
  · cases e <;> rfl

@[simp] theorem buildDerived_mem (e : Engine) (g : Gran) (a : Elem) (s : State) :
    (buildDerived e g a s).mem = s.mem := by
  unfold buildDerived; split
  · rfl
  · cases e <;> rfl

@[simp] theorem buildDerived_busMap (e : Engine) (g : Gran) (a : Elem) (s : State) :
    (buildDerived e g a s).busMap = s.busMap := by
  unfold buildDerived; split
  · rfl
  · cases e <;> rfl

@[simp] theorem buildDerived_inReset (e : Engine) (g : Gran) (a : Elem) (s : State) :
    (buildDerived e g a s).inReset = s.inReset := by
  unfold buildDerived; split
  · rfl
  · cases e <;> rfl

@[simp] theorem buildDerived_inputs (e : Engine) (g : Gran) (a : Elem) (s : State) :
    (buildDerived e g a s).inputs = s.inputs := by
  unfold buildDerived; split
  · rfl
  · cases e <;> rfl

@[simp] theorem buildDerived_reply (e : Engine) (g : Gran) (a : Elem) (s : State) :
    (buildDerived e g a s).reply = s.reply := by
  unfold buildDerived; split
  · rfl
  · cases e <;> rfl

@[simp] theorem buildDerived_raced (e : Engine) (g : Gran) (a : Elem) (s : State) :
    (buildDerived e g a s).raced = s.raced := by
  unfold buildDerived; split
  · rfl
  · cases e <;> rfl

@[simp] theorem buildDerived_unobserved (e : Engine) (g : Gran) (a : Elem) (s : State) :
    (buildDerived e g a s).unobserved = s.unobserved := by
  unfold buildDerived; split
  · rfl
  · cases e <;> rfl

/-! ## settleRace: only memory, the free values and the race mark change -/

@[simp] theorem settleRace_params (s : State) : (settleRace s).params = s.params := by
  unfold settleRace; split <;> rfl

@[simp] theorem settleRace_ctrl (s : State) : (settleRace s).ctrl = s.ctrl := by
  unfold settleRace; split <;> rfl

@[simp] theorem settleRace_status (s : State) : (settleRace s).status = s.status := by
  unfold settleRace; split <;> rfl

@[simp] theorem settleRace_thresh (s : State) : (settleRace s).thresh = s.thresh := by
  unfold settleRace; split <;> rfl

@[simp] theorem settleRace_src (s : State) : (settleRace s).src = s.src := by
  unfold settleRace; split <;> rfl

@[simp] theorem settleRace_dst (s : State) : (settleRace s).dst = s.dst := by
  unfold settleRace; split <;> rfl

@[simp] theorem settleRace_len (s : State) : (settleRace s).len = s.len := by
  unfold settleRace; split <;> rfl

@[simp] theorem settleRace_scalar (s : State) : (settleRace s).scalar = s.scalar := by
  unfold settleRace; split <;> rfl

@[simp] theorem settleRace_opnd (s : State) : (settleRace s).opnd = s.opnd := by
  unfold settleRace; split <;> rfl

@[simp] theorem settleRace_result (s : State) : (settleRace s).result = s.result := by
  unfold settleRace; split <;> rfl

@[simp] theorem settleRace_fault (s : State) : (settleRace s).fault = s.fault := by
  unfold settleRace; split <;> rfl

@[simp] theorem settleRace_tblAddr (s : State) : (settleRace s).tblAddr = s.tblAddr := by
  unfold settleRace; split <;> rfl

@[simp] theorem settleRace_logTbl (s : State) : (settleRace s).logTbl = s.logTbl := by
  unfold settleRace; split <;> rfl

@[simp] theorem settleRace_expTbl (s : State) : (settleRace s).expTbl = s.expTbl := by
  unfold settleRace; split <;> rfl

@[simp] theorem settleRace_latched (s : State) : (settleRace s).latched = s.latched := by
  unfold settleRace; split <;> rfl

@[simp] theorem settleRace_dt (s : State) : (settleRace s).dt = s.dt := by
  unfold settleRace; split <;> rfl

@[simp] theorem settleRace_am (s : State) : (settleRace s).am = s.am := by
  unfold settleRace; split <;> rfl

@[simp] theorem settleRace_k (s : State) : (settleRace s).k = s.k := by
  unfold settleRace; split <;> rfl

@[simp] theorem settleRace_busMap (s : State) : (settleRace s).busMap = s.busMap := by
  unfold settleRace; split <;> rfl

@[simp] theorem settleRace_inReset (s : State) : (settleRace s).inReset = s.inReset := by
  unfold settleRace; split <;> rfl

@[simp] theorem settleRace_inputs (s : State) : (settleRace s).inputs = s.inputs := by
  unfold settleRace; split <;> rfl

@[simp] theorem settleRace_reply (s : State) : (settleRace s).reply = s.reply := by
  unfold settleRace; split <;> rfl

@[simp] theorem settleRace_raced (s : State) : (settleRace s).raced = false := by
  unfold settleRace; split
  · rfl
  · simpa using ‹¬s.raced = true›

@[simp] theorem settleRace_unobserved (s : State) : (settleRace s).unobserved = s.unobserved := by
  unfold settleRace; split <;> rfl

/-! ## accept: what an accepted MULR changes (40_commands.md R136) -/

@[simp] theorem accept_params (m : Mode) (e : Engine) (g : Gran) (s : State) :
    (accept m e g s).params = s.params := by simp [accept]

@[simp] theorem accept_ctrl (m : Mode) (e : Engine) (g : Gran) (s : State) :
    (accept m e g s).ctrl = s.ctrl := by simp [accept]

@[simp] theorem accept_status (m : Mode) (e : Engine) (g : Gran) (s : State) :
    (accept m e g s).status = { s.status with busy := true } := by simp [accept]

@[simp] theorem accept_thresh (m : Mode) (e : Engine) (g : Gran) (s : State) :
    (accept m e g s).thresh = s.thresh := by simp [accept]

@[simp] theorem accept_src (m : Mode) (e : Engine) (g : Gran) (s : State) :
    (accept m e g s).src = s.src := by simp [accept]

@[simp] theorem accept_dst (m : Mode) (e : Engine) (g : Gran) (s : State) :
    (accept m e g s).dst = s.dst := by simp [accept]

@[simp] theorem accept_len (m : Mode) (e : Engine) (g : Gran) (s : State) :
    (accept m e g s).len = s.len := by simp [accept]

@[simp] theorem accept_scalar (m : Mode) (e : Engine) (g : Gran) (s : State) :
    (accept m e g s).scalar = s.scalar := by simp [accept]

@[simp] theorem accept_opnd (m : Mode) (e : Engine) (g : Gran) (s : State) :
    (accept m e g s).opnd = s.opnd := by simp [accept]

@[simp] theorem accept_result (m : Mode) (e : Engine) (g : Gran) (s : State) :
    (accept m e g s).result = s.result := by simp [accept]

@[simp] theorem accept_fault (m : Mode) (e : Engine) (g : Gran) (s : State) :
    (accept m e g s).fault = s.fault := by simp [accept]

@[simp] theorem accept_tblAddr (m : Mode) (e : Engine) (g : Gran) (s : State) :
    (accept m e g s).tblAddr = s.tblAddr := by simp [accept]

@[simp] theorem accept_logTbl (m : Mode) (e : Engine) (g : Gran) (s : State) :
    (accept m e g s).logTbl = s.logTbl := by simp [accept]

@[simp] theorem accept_expTbl (m : Mode) (e : Engine) (g : Gran) (s : State) :
    (accept m e g s).expTbl = s.expTbl := by simp [accept]

@[simp] theorem accept_latched (m : Mode) (e : Engine) (g : Gran) (s : State) :
    (accept m e g s).latched = ⟨s.src, s.dst, s.len, s.scalar, m, e, g, chunkWidth s.params e⟩ := by simp [accept]

@[simp] theorem accept_k (m : Mode) (e : Engine) (g : Gran) (s : State) :
    (accept m e g s).k = 0 := by simp [accept]

@[simp] theorem accept_mem (m : Mode) (e : Engine) (g : Gran) (s : State) :
    (accept m e g s).mem = s.mem := by simp [accept]

@[simp] theorem accept_busMap (m : Mode) (e : Engine) (g : Gran) (s : State) :
    (accept m e g s).busMap = s.busMap := by simp [accept]

@[simp] theorem accept_inReset (m : Mode) (e : Engine) (g : Gran) (s : State) :
    (accept m e g s).inReset = s.inReset := by simp [accept]

@[simp] theorem accept_inputs (m : Mode) (e : Engine) (g : Gran) (s : State) :
    (accept m e g s).inputs = s.inputs := by simp [accept]

@[simp] theorem accept_reply (m : Mode) (e : Engine) (g : Gran) (s : State) :
    (accept m e g s).reply = s.reply := by simp [accept]

@[simp] theorem accept_raced (m : Mode) (e : Engine) (g : Gran) (s : State) :
    (accept m e g s).raced = false := by simp [accept]

@[simp] theorem accept_unobserved (m : Mode) (e : Engine) (g : Gran) (s : State) :
    (accept m e g s).unobserved = s.unobserved := by simp [accept]

/-! ## tblDataStore and tblDataLoad -/

@[simp] theorem tblDataStore_params (w : Word) (s : State) : (tblDataStore w s).params = s.params := by
  unfold tblDataStore; split <;> rfl

@[simp] theorem tblDataLoad_params (s : State) : (tblDataLoad s).2.params = s.params := by
  unfold tblDataLoad; split <;> rfl

@[simp] theorem tblDataStore_ctrl (w : Word) (s : State) : (tblDataStore w s).ctrl = s.ctrl := by
  unfold tblDataStore; split <;> rfl

@[simp] theorem tblDataLoad_ctrl (s : State) : (tblDataLoad s).2.ctrl = s.ctrl := by
  unfold tblDataLoad; split <;> rfl

@[simp] theorem tblDataStore_status (w : Word) (s : State) : (tblDataStore w s).status = s.status := by
  unfold tblDataStore; split <;> rfl

@[simp] theorem tblDataLoad_status (s : State) : (tblDataLoad s).2.status = s.status := by
  unfold tblDataLoad; split <;> rfl

@[simp] theorem tblDataStore_thresh (w : Word) (s : State) : (tblDataStore w s).thresh = s.thresh := by
  unfold tblDataStore; split <;> rfl

@[simp] theorem tblDataLoad_thresh (s : State) : (tblDataLoad s).2.thresh = s.thresh := by
  unfold tblDataLoad; split <;> rfl

@[simp] theorem tblDataStore_src (w : Word) (s : State) : (tblDataStore w s).src = s.src := by
  unfold tblDataStore; split <;> rfl

@[simp] theorem tblDataLoad_src (s : State) : (tblDataLoad s).2.src = s.src := by
  unfold tblDataLoad; split <;> rfl

@[simp] theorem tblDataStore_dst (w : Word) (s : State) : (tblDataStore w s).dst = s.dst := by
  unfold tblDataStore; split <;> rfl

@[simp] theorem tblDataLoad_dst (s : State) : (tblDataLoad s).2.dst = s.dst := by
  unfold tblDataLoad; split <;> rfl

@[simp] theorem tblDataStore_len (w : Word) (s : State) : (tblDataStore w s).len = s.len := by
  unfold tblDataStore; split <;> rfl

@[simp] theorem tblDataLoad_len (s : State) : (tblDataLoad s).2.len = s.len := by
  unfold tblDataLoad; split <;> rfl

@[simp] theorem tblDataStore_scalar (w : Word) (s : State) : (tblDataStore w s).scalar = s.scalar := by
  unfold tblDataStore; split <;> rfl

@[simp] theorem tblDataLoad_scalar (s : State) : (tblDataLoad s).2.scalar = s.scalar := by
  unfold tblDataLoad; split <;> rfl

@[simp] theorem tblDataStore_opnd (w : Word) (s : State) : (tblDataStore w s).opnd = s.opnd := by
  unfold tblDataStore; split <;> rfl

@[simp] theorem tblDataLoad_opnd (s : State) : (tblDataLoad s).2.opnd = s.opnd := by
  unfold tblDataLoad; split <;> rfl

@[simp] theorem tblDataStore_result (w : Word) (s : State) : (tblDataStore w s).result = s.result := by
  unfold tblDataStore; split <;> rfl

@[simp] theorem tblDataLoad_result (s : State) : (tblDataLoad s).2.result = s.result := by
  unfold tblDataLoad; split <;> rfl

@[simp] theorem tblDataStore_fault (w : Word) (s : State) : (tblDataStore w s).fault = s.fault := by
  unfold tblDataStore; split <;> rfl

@[simp] theorem tblDataLoad_fault (s : State) : (tblDataLoad s).2.fault = s.fault := by
  unfold tblDataLoad; split <;> rfl

@[simp] theorem tblDataLoad_logTbl (s : State) : (tblDataLoad s).2.logTbl = s.logTbl := by
  unfold tblDataLoad; split <;> rfl

@[simp] theorem tblDataLoad_expTbl (s : State) : (tblDataLoad s).2.expTbl = s.expTbl := by
  unfold tblDataLoad; split <;> rfl

@[simp] theorem tblDataStore_latched (w : Word) (s : State) : (tblDataStore w s).latched = s.latched := by
  unfold tblDataStore; split <;> rfl

@[simp] theorem tblDataLoad_latched (s : State) : (tblDataLoad s).2.latched = s.latched := by
  unfold tblDataLoad; split <;> rfl

@[simp] theorem tblDataStore_dt (w : Word) (s : State) : (tblDataStore w s).dt = s.dt := by
  unfold tblDataStore; split <;> rfl

@[simp] theorem tblDataLoad_dt (s : State) : (tblDataLoad s).2.dt = s.dt := by
  unfold tblDataLoad; split <;> rfl

@[simp] theorem tblDataStore_am (w : Word) (s : State) : (tblDataStore w s).am = s.am := by
  unfold tblDataStore; split <;> rfl

@[simp] theorem tblDataLoad_am (s : State) : (tblDataLoad s).2.am = s.am := by
  unfold tblDataLoad; split <;> rfl

@[simp] theorem tblDataStore_k (w : Word) (s : State) : (tblDataStore w s).k = s.k := by
  unfold tblDataStore; split <;> rfl

@[simp] theorem tblDataLoad_k (s : State) : (tblDataLoad s).2.k = s.k := by
  unfold tblDataLoad; split <;> rfl

@[simp] theorem tblDataStore_mem (w : Word) (s : State) : (tblDataStore w s).mem = s.mem := by
  unfold tblDataStore; split <;> rfl

@[simp] theorem tblDataLoad_mem (s : State) : (tblDataLoad s).2.mem = s.mem := by
  unfold tblDataLoad; split <;> rfl

@[simp] theorem tblDataStore_busMap (w : Word) (s : State) : (tblDataStore w s).busMap = s.busMap := by
  unfold tblDataStore; split <;> rfl

@[simp] theorem tblDataLoad_busMap (s : State) : (tblDataLoad s).2.busMap = s.busMap := by
  unfold tblDataLoad; split <;> rfl

@[simp] theorem tblDataStore_inReset (w : Word) (s : State) : (tblDataStore w s).inReset = s.inReset := by
  unfold tblDataStore; split <;> rfl

@[simp] theorem tblDataLoad_inReset (s : State) : (tblDataLoad s).2.inReset = s.inReset := by
  unfold tblDataLoad; split <;> rfl

@[simp] theorem tblDataStore_inputs (w : Word) (s : State) : (tblDataStore w s).inputs = s.inputs := by
  unfold tblDataStore; split <;> rfl

@[simp] theorem tblDataLoad_inputs (s : State) : (tblDataLoad s).2.inputs = s.inputs := by
  unfold tblDataLoad; split <;> rfl

@[simp] theorem tblDataStore_reply (w : Word) (s : State) : (tblDataStore w s).reply = s.reply := by
  unfold tblDataStore; split <;> rfl

@[simp] theorem tblDataLoad_reply (s : State) : (tblDataLoad s).2.reply = s.reply := by
  unfold tblDataLoad; split <;> rfl

@[simp] theorem tblDataStore_raced (w : Word) (s : State) : (tblDataStore w s).raced = s.raced := by
  unfold tblDataStore; split <;> rfl

@[simp] theorem tblDataStore_unobserved (w : Word) (s : State) : (tblDataStore w s).unobserved = s.unobserved := by
  unfold tblDataStore; split <;> rfl

@[simp] theorem tblDataLoad_raced (s : State) : (tblDataLoad s).2.raced = s.raced := by
  unfold tblDataLoad; split <;> rfl

@[simp] theorem tblDataLoad_unobserved (s : State) : (tblDataLoad s).2.unobserved = s.unobserved := by
  unfold tblDataLoad; split <;> rfl

@[simp] theorem tblDataStore_draws (w : Word) (s : State) : (tblDataStore w s).draws = s.draws := by
  unfold tblDataStore; split <;> rfl

@[simp] theorem tblDataStore_tblAddr (w : Word) (s : State) : (tblDataStore w s).tblAddr = s.tblAddr.advance := by
  unfold tblDataStore; split <;> rfl

@[simp] theorem tblDataLoad_tblAddr (s : State) : (tblDataLoad s).2.tblAddr = s.tblAddr.advance := by
  unfold tblDataLoad; split <;> rfl

/-! ## readReg: only TBL_ADDR and the free values can change (20_memory.md R77) -/

@[simp] theorem readReg_params (r : Reg) (s : State) : (readReg r s).2.params = s.params := by
  cases r <;> simp [readReg]

@[simp] theorem readReg_ctrl (r : Reg) (s : State) : (readReg r s).2.ctrl = s.ctrl := by
  cases r <;> simp [readReg]

@[simp] theorem readReg_status (r : Reg) (s : State) : (readReg r s).2.status = s.status := by
  cases r <;> simp [readReg]

@[simp] theorem readReg_thresh (r : Reg) (s : State) : (readReg r s).2.thresh = s.thresh := by
  cases r <;> simp [readReg]

@[simp] theorem readReg_src (r : Reg) (s : State) : (readReg r s).2.src = s.src := by
  cases r <;> simp [readReg]

@[simp] theorem readReg_dst (r : Reg) (s : State) : (readReg r s).2.dst = s.dst := by
  cases r <;> simp [readReg]

@[simp] theorem readReg_len (r : Reg) (s : State) : (readReg r s).2.len = s.len := by
  cases r <;> simp [readReg]

@[simp] theorem readReg_scalar (r : Reg) (s : State) : (readReg r s).2.scalar = s.scalar := by
  cases r <;> simp [readReg]

@[simp] theorem readReg_opnd (r : Reg) (s : State) : (readReg r s).2.opnd = s.opnd := by
  cases r <;> simp [readReg]

@[simp] theorem readReg_result (r : Reg) (s : State) : (readReg r s).2.result = s.result := by
  cases r <;> simp [readReg]

@[simp] theorem readReg_fault (r : Reg) (s : State) : (readReg r s).2.fault = s.fault := by
  cases r <;> simp [readReg]

@[simp] theorem readReg_logTbl (r : Reg) (s : State) : (readReg r s).2.logTbl = s.logTbl := by
  cases r <;> simp [readReg]

@[simp] theorem readReg_expTbl (r : Reg) (s : State) : (readReg r s).2.expTbl = s.expTbl := by
  cases r <;> simp [readReg]

@[simp] theorem readReg_latched (r : Reg) (s : State) : (readReg r s).2.latched = s.latched := by
  cases r <;> simp [readReg]

@[simp] theorem readReg_dt (r : Reg) (s : State) : (readReg r s).2.dt = s.dt := by
  cases r <;> simp [readReg]

@[simp] theorem readReg_am (r : Reg) (s : State) : (readReg r s).2.am = s.am := by
  cases r <;> simp [readReg]

@[simp] theorem readReg_k (r : Reg) (s : State) : (readReg r s).2.k = s.k := by
  cases r <;> simp [readReg]

@[simp] theorem readReg_mem (r : Reg) (s : State) : (readReg r s).2.mem = s.mem := by
  cases r <;> simp [readReg]

@[simp] theorem readReg_busMap (r : Reg) (s : State) : (readReg r s).2.busMap = s.busMap := by
  cases r <;> simp [readReg]

@[simp] theorem readReg_inReset (r : Reg) (s : State) : (readReg r s).2.inReset = s.inReset := by
  cases r <;> simp [readReg]

@[simp] theorem readReg_inputs (r : Reg) (s : State) : (readReg r s).2.inputs = s.inputs := by
  cases r <;> simp [readReg]

@[simp] theorem readReg_reply (r : Reg) (s : State) : (readReg r s).2.reply = s.reply := by
  cases r <;> simp [readReg]

@[simp] theorem readReg_raced (r : Reg) (s : State) : (readReg r s).2.raced = s.raced := by
  cases r <;> simp [readReg]

@[simp] theorem readReg_unobserved (r : Reg) (s : State) : (readReg r s).2.unobserved = s.unobserved := by
  cases r <;> simp [readReg]

/-! ## drawSpan -/

@[simp] theorem drawSpan_params (p : Span) (s : State) : (drawSpan p s).params = s.params := rfl
@[simp] theorem drawSpan_ctrl (p : Span) (s : State) : (drawSpan p s).ctrl = s.ctrl := rfl
@[simp] theorem drawSpan_status (p : Span) (s : State) : (drawSpan p s).status = s.status := rfl
@[simp] theorem drawSpan_thresh (p : Span) (s : State) : (drawSpan p s).thresh = s.thresh := rfl
@[simp] theorem drawSpan_src (p : Span) (s : State) : (drawSpan p s).src = s.src := rfl
@[simp] theorem drawSpan_dst (p : Span) (s : State) : (drawSpan p s).dst = s.dst := rfl
@[simp] theorem drawSpan_len (p : Span) (s : State) : (drawSpan p s).len = s.len := rfl
@[simp] theorem drawSpan_scalar (p : Span) (s : State) : (drawSpan p s).scalar = s.scalar := rfl
@[simp] theorem drawSpan_opnd (p : Span) (s : State) : (drawSpan p s).opnd = s.opnd := rfl
@[simp] theorem drawSpan_result (p : Span) (s : State) : (drawSpan p s).result = s.result := rfl
@[simp] theorem drawSpan_fault (p : Span) (s : State) : (drawSpan p s).fault = s.fault := rfl
@[simp] theorem drawSpan_tblAddr (p : Span) (s : State) : (drawSpan p s).tblAddr = s.tblAddr := rfl
@[simp] theorem drawSpan_logTbl (p : Span) (s : State) : (drawSpan p s).logTbl = s.logTbl := rfl
@[simp] theorem drawSpan_expTbl (p : Span) (s : State) : (drawSpan p s).expTbl = s.expTbl := rfl
@[simp] theorem drawSpan_latched (p : Span) (s : State) : (drawSpan p s).latched = s.latched := rfl
@[simp] theorem drawSpan_dt (p : Span) (s : State) : (drawSpan p s).dt = s.dt := rfl
@[simp] theorem drawSpan_am (p : Span) (s : State) : (drawSpan p s).am = s.am := rfl
@[simp] theorem drawSpan_k (p : Span) (s : State) : (drawSpan p s).k = s.k := rfl
@[simp] theorem drawSpan_busMap (p : Span) (s : State) : (drawSpan p s).busMap = s.busMap := rfl
@[simp] theorem drawSpan_inReset (p : Span) (s : State) : (drawSpan p s).inReset = s.inReset := rfl
@[simp] theorem drawSpan_inputs (p : Span) (s : State) : (drawSpan p s).inputs = s.inputs := rfl
@[simp] theorem drawSpan_reply (p : Span) (s : State) : (drawSpan p s).reply = s.reply := rfl
@[simp] theorem drawSpan_raced (p : Span) (s : State) : (drawSpan p s).raced = s.raced := rfl
@[simp] theorem drawSpan_unobserved (p : Span) (s : State) : (drawSpan p s).unobserved = s.unobserved := rfl

/-! ## drawSpans: only memory and the free values change -/

@[simp] theorem drawSpans_params (ps : List Span) (s : State) : (drawSpans ps s).params = s.params := by
  induction ps generalizing s <;> simp [drawSpans, *]

@[simp] theorem drawSpans_ctrl (ps : List Span) (s : State) : (drawSpans ps s).ctrl = s.ctrl := by
  induction ps generalizing s <;> simp [drawSpans, *]

@[simp] theorem drawSpans_status (ps : List Span) (s : State) : (drawSpans ps s).status = s.status := by
  induction ps generalizing s <;> simp [drawSpans, *]

@[simp] theorem drawSpans_thresh (ps : List Span) (s : State) : (drawSpans ps s).thresh = s.thresh := by
  induction ps generalizing s <;> simp [drawSpans, *]

@[simp] theorem drawSpans_src (ps : List Span) (s : State) : (drawSpans ps s).src = s.src := by
  induction ps generalizing s <;> simp [drawSpans, *]

@[simp] theorem drawSpans_dst (ps : List Span) (s : State) : (drawSpans ps s).dst = s.dst := by
  induction ps generalizing s <;> simp [drawSpans, *]

@[simp] theorem drawSpans_len (ps : List Span) (s : State) : (drawSpans ps s).len = s.len := by
  induction ps generalizing s <;> simp [drawSpans, *]

@[simp] theorem drawSpans_scalar (ps : List Span) (s : State) : (drawSpans ps s).scalar = s.scalar := by
  induction ps generalizing s <;> simp [drawSpans, *]

@[simp] theorem drawSpans_opnd (ps : List Span) (s : State) : (drawSpans ps s).opnd = s.opnd := by
  induction ps generalizing s <;> simp [drawSpans, *]

@[simp] theorem drawSpans_result (ps : List Span) (s : State) : (drawSpans ps s).result = s.result := by
  induction ps generalizing s <;> simp [drawSpans, *]

@[simp] theorem drawSpans_fault (ps : List Span) (s : State) : (drawSpans ps s).fault = s.fault := by
  induction ps generalizing s <;> simp [drawSpans, *]

@[simp] theorem drawSpans_tblAddr (ps : List Span) (s : State) : (drawSpans ps s).tblAddr = s.tblAddr := by
  induction ps generalizing s <;> simp [drawSpans, *]

@[simp] theorem drawSpans_logTbl (ps : List Span) (s : State) : (drawSpans ps s).logTbl = s.logTbl := by
  induction ps generalizing s <;> simp [drawSpans, *]

@[simp] theorem drawSpans_expTbl (ps : List Span) (s : State) : (drawSpans ps s).expTbl = s.expTbl := by
  induction ps generalizing s <;> simp [drawSpans, *]

@[simp] theorem drawSpans_latched (ps : List Span) (s : State) : (drawSpans ps s).latched = s.latched := by
  induction ps generalizing s <;> simp [drawSpans, *]

@[simp] theorem drawSpans_dt (ps : List Span) (s : State) : (drawSpans ps s).dt = s.dt := by
  induction ps generalizing s <;> simp [drawSpans, *]

@[simp] theorem drawSpans_am (ps : List Span) (s : State) : (drawSpans ps s).am = s.am := by
  induction ps generalizing s <;> simp [drawSpans, *]

@[simp] theorem drawSpans_k (ps : List Span) (s : State) : (drawSpans ps s).k = s.k := by
  induction ps generalizing s <;> simp [drawSpans, *]

@[simp] theorem drawSpans_busMap (ps : List Span) (s : State) : (drawSpans ps s).busMap = s.busMap := by
  induction ps generalizing s <;> simp [drawSpans, *]

@[simp] theorem drawSpans_inReset (ps : List Span) (s : State) : (drawSpans ps s).inReset = s.inReset := by
  induction ps generalizing s <;> simp [drawSpans, *]

@[simp] theorem drawSpans_inputs (ps : List Span) (s : State) : (drawSpans ps s).inputs = s.inputs := by
  induction ps generalizing s <;> simp [drawSpans, *]

@[simp] theorem drawSpans_reply (ps : List Span) (s : State) : (drawSpans ps s).reply = s.reply := by
  induction ps generalizing s <;> simp [drawSpans, *]

@[simp] theorem drawSpans_raced (ps : List Span) (s : State) : (drawSpans ps s).raced = s.raced := by
  induction ps generalizing s <;> simp [drawSpans, *]

@[simp] theorem drawSpans_unobserved (ps : List Span) (s : State) : (drawSpans ps s).unobserved = s.unobserved := by
  induction ps generalizing s <;> simp [drawSpans, *]


/-! ## leaveUnobserved: only the list of unobserved ends changes -/

@[simp] theorem leaveUnobserved_params (r : Bool) (s : State) : (leaveUnobserved r s).params = s.params := rfl
@[simp] theorem leaveUnobserved_ctrl (r : Bool) (s : State) : (leaveUnobserved r s).ctrl = s.ctrl := rfl
@[simp] theorem leaveUnobserved_status (r : Bool) (s : State) : (leaveUnobserved r s).status = s.status := rfl
@[simp] theorem leaveUnobserved_thresh (r : Bool) (s : State) : (leaveUnobserved r s).thresh = s.thresh := rfl
@[simp] theorem leaveUnobserved_src (r : Bool) (s : State) : (leaveUnobserved r s).src = s.src := rfl
@[simp] theorem leaveUnobserved_dst (r : Bool) (s : State) : (leaveUnobserved r s).dst = s.dst := rfl
@[simp] theorem leaveUnobserved_len (r : Bool) (s : State) : (leaveUnobserved r s).len = s.len := rfl
@[simp] theorem leaveUnobserved_scalar (r : Bool) (s : State) : (leaveUnobserved r s).scalar = s.scalar := rfl
@[simp] theorem leaveUnobserved_opnd (r : Bool) (s : State) : (leaveUnobserved r s).opnd = s.opnd := rfl
@[simp] theorem leaveUnobserved_result (r : Bool) (s : State) : (leaveUnobserved r s).result = s.result := rfl
@[simp] theorem leaveUnobserved_fault (r : Bool) (s : State) : (leaveUnobserved r s).fault = s.fault := rfl
@[simp] theorem leaveUnobserved_tblAddr (r : Bool) (s : State) : (leaveUnobserved r s).tblAddr = s.tblAddr := rfl
@[simp] theorem leaveUnobserved_logTbl (r : Bool) (s : State) : (leaveUnobserved r s).logTbl = s.logTbl := rfl
@[simp] theorem leaveUnobserved_expTbl (r : Bool) (s : State) : (leaveUnobserved r s).expTbl = s.expTbl := rfl
@[simp] theorem leaveUnobserved_latched (r : Bool) (s : State) : (leaveUnobserved r s).latched = s.latched := rfl
@[simp] theorem leaveUnobserved_dt (r : Bool) (s : State) : (leaveUnobserved r s).dt = s.dt := rfl
@[simp] theorem leaveUnobserved_am (r : Bool) (s : State) : (leaveUnobserved r s).am = s.am := rfl
@[simp] theorem leaveUnobserved_k (r : Bool) (s : State) : (leaveUnobserved r s).k = s.k := rfl
@[simp] theorem leaveUnobserved_mem (r : Bool) (s : State) : (leaveUnobserved r s).mem = s.mem := rfl
@[simp] theorem leaveUnobserved_busMap (r : Bool) (s : State) : (leaveUnobserved r s).busMap = s.busMap := rfl
@[simp] theorem leaveUnobserved_inReset (r : Bool) (s : State) : (leaveUnobserved r s).inReset = s.inReset := rfl
@[simp] theorem leaveUnobserved_inputs (r : Bool) (s : State) : (leaveUnobserved r s).inputs = s.inputs := rfl
@[simp] theorem leaveUnobserved_reply (r : Bool) (s : State) : (leaveUnobserved r s).reply = s.reply := rfl
@[simp] theorem leaveUnobserved_raced (r : Bool) (s : State) : (leaveUnobserved r s).raced = s.raced := rfl
@[simp] theorem leaveUnobserved_draws (r : Bool) (s : State) : (leaveUnobserved r s).draws = s.draws := rfl
@[simp] theorem leaveUnobserved_unobserved (r : Bool) (s : State) :
    (leaveUnobserved r s).unobserved = { span := latchedSpan s.latched, raised := r } :: s.unobserved := rfl

/-! ## observeIdle: only the list of unobserved ends changes -/

@[simp] theorem observeIdle_params (s : State) : (observeIdle s).params = s.params := rfl
@[simp] theorem observeIdle_ctrl (s : State) : (observeIdle s).ctrl = s.ctrl := rfl
@[simp] theorem observeIdle_status (s : State) : (observeIdle s).status = s.status := rfl
@[simp] theorem observeIdle_thresh (s : State) : (observeIdle s).thresh = s.thresh := rfl
@[simp] theorem observeIdle_src (s : State) : (observeIdle s).src = s.src := rfl
@[simp] theorem observeIdle_dst (s : State) : (observeIdle s).dst = s.dst := rfl
@[simp] theorem observeIdle_len (s : State) : (observeIdle s).len = s.len := rfl
@[simp] theorem observeIdle_scalar (s : State) : (observeIdle s).scalar = s.scalar := rfl
@[simp] theorem observeIdle_opnd (s : State) : (observeIdle s).opnd = s.opnd := rfl
@[simp] theorem observeIdle_result (s : State) : (observeIdle s).result = s.result := rfl
@[simp] theorem observeIdle_fault (s : State) : (observeIdle s).fault = s.fault := rfl
@[simp] theorem observeIdle_tblAddr (s : State) : (observeIdle s).tblAddr = s.tblAddr := rfl
@[simp] theorem observeIdle_logTbl (s : State) : (observeIdle s).logTbl = s.logTbl := rfl
@[simp] theorem observeIdle_expTbl (s : State) : (observeIdle s).expTbl = s.expTbl := rfl
@[simp] theorem observeIdle_latched (s : State) : (observeIdle s).latched = s.latched := rfl
@[simp] theorem observeIdle_dt (s : State) : (observeIdle s).dt = s.dt := rfl
@[simp] theorem observeIdle_am (s : State) : (observeIdle s).am = s.am := rfl
@[simp] theorem observeIdle_k (s : State) : (observeIdle s).k = s.k := rfl
@[simp] theorem observeIdle_mem (s : State) : (observeIdle s).mem = s.mem := rfl
@[simp] theorem observeIdle_busMap (s : State) : (observeIdle s).busMap = s.busMap := rfl
@[simp] theorem observeIdle_inReset (s : State) : (observeIdle s).inReset = s.inReset := rfl
@[simp] theorem observeIdle_inputs (s : State) : (observeIdle s).inputs = s.inputs := rfl
@[simp] theorem observeIdle_reply (s : State) : (observeIdle s).reply = s.reply := rfl
@[simp] theorem observeIdle_raced (s : State) : (observeIdle s).raced = s.raced := rfl
@[simp] theorem observeIdle_draws (s : State) : (observeIdle s).draws = s.draws := rfl
@[simp] theorem observeIdle_unobserved (s : State) :
    (observeIdle s).unobserved = if s.status.busy then s.unobserved else [] := rfl

/-! ## observeIrq: only the list of unobserved ends changes -/

@[simp] theorem observeIrq_params (s : State) : (observeIrq s).params = s.params := rfl
@[simp] theorem observeIrq_ctrl (s : State) : (observeIrq s).ctrl = s.ctrl := rfl
@[simp] theorem observeIrq_status (s : State) : (observeIrq s).status = s.status := rfl
@[simp] theorem observeIrq_thresh (s : State) : (observeIrq s).thresh = s.thresh := rfl
@[simp] theorem observeIrq_src (s : State) : (observeIrq s).src = s.src := rfl
@[simp] theorem observeIrq_dst (s : State) : (observeIrq s).dst = s.dst := rfl
@[simp] theorem observeIrq_len (s : State) : (observeIrq s).len = s.len := rfl
@[simp] theorem observeIrq_scalar (s : State) : (observeIrq s).scalar = s.scalar := rfl
@[simp] theorem observeIrq_opnd (s : State) : (observeIrq s).opnd = s.opnd := rfl
@[simp] theorem observeIrq_result (s : State) : (observeIrq s).result = s.result := rfl
@[simp] theorem observeIrq_fault (s : State) : (observeIrq s).fault = s.fault := rfl
@[simp] theorem observeIrq_tblAddr (s : State) : (observeIrq s).tblAddr = s.tblAddr := rfl
@[simp] theorem observeIrq_logTbl (s : State) : (observeIrq s).logTbl = s.logTbl := rfl
@[simp] theorem observeIrq_expTbl (s : State) : (observeIrq s).expTbl = s.expTbl := rfl
@[simp] theorem observeIrq_latched (s : State) : (observeIrq s).latched = s.latched := rfl
@[simp] theorem observeIrq_dt (s : State) : (observeIrq s).dt = s.dt := rfl
@[simp] theorem observeIrq_am (s : State) : (observeIrq s).am = s.am := rfl
@[simp] theorem observeIrq_k (s : State) : (observeIrq s).k = s.k := rfl
@[simp] theorem observeIrq_mem (s : State) : (observeIrq s).mem = s.mem := rfl
@[simp] theorem observeIrq_busMap (s : State) : (observeIrq s).busMap = s.busMap := rfl
@[simp] theorem observeIrq_inReset (s : State) : (observeIrq s).inReset = s.inReset := rfl
@[simp] theorem observeIrq_inputs (s : State) : (observeIrq s).inputs = s.inputs := rfl
@[simp] theorem observeIrq_reply (s : State) : (observeIrq s).reply = s.reply := rfl
@[simp] theorem observeIrq_raced (s : State) : (observeIrq s).raced = s.raced := rfl
@[simp] theorem observeIrq_draws (s : State) : (observeIrq s).draws = s.draws := rfl
@[simp] theorem observeIrq_unobserved (s : State) :
    (observeIrq s).unobserved =
      if s.ctrl.ieDone && s.ctrl.ieErr then [] else s.unobserved.filter (! ·.raised) := rfl

/-! ## noteIrq: only the list of unobserved ends changes -/

@[simp] theorem noteIrq_params (s : State) : (noteIrq s).params = s.params := rfl
@[simp] theorem noteIrq_ctrl (s : State) : (noteIrq s).ctrl = s.ctrl := rfl
@[simp] theorem noteIrq_status (s : State) : (noteIrq s).status = s.status := rfl
@[simp] theorem noteIrq_thresh (s : State) : (noteIrq s).thresh = s.thresh := rfl
@[simp] theorem noteIrq_src (s : State) : (noteIrq s).src = s.src := rfl
@[simp] theorem noteIrq_dst (s : State) : (noteIrq s).dst = s.dst := rfl
@[simp] theorem noteIrq_len (s : State) : (noteIrq s).len = s.len := rfl
@[simp] theorem noteIrq_scalar (s : State) : (noteIrq s).scalar = s.scalar := rfl
@[simp] theorem noteIrq_opnd (s : State) : (noteIrq s).opnd = s.opnd := rfl
@[simp] theorem noteIrq_result (s : State) : (noteIrq s).result = s.result := rfl
@[simp] theorem noteIrq_fault (s : State) : (noteIrq s).fault = s.fault := rfl
@[simp] theorem noteIrq_tblAddr (s : State) : (noteIrq s).tblAddr = s.tblAddr := rfl
@[simp] theorem noteIrq_logTbl (s : State) : (noteIrq s).logTbl = s.logTbl := rfl
@[simp] theorem noteIrq_expTbl (s : State) : (noteIrq s).expTbl = s.expTbl := rfl
@[simp] theorem noteIrq_latched (s : State) : (noteIrq s).latched = s.latched := rfl
@[simp] theorem noteIrq_dt (s : State) : (noteIrq s).dt = s.dt := rfl
@[simp] theorem noteIrq_am (s : State) : (noteIrq s).am = s.am := rfl
@[simp] theorem noteIrq_k (s : State) : (noteIrq s).k = s.k := rfl
@[simp] theorem noteIrq_mem (s : State) : (noteIrq s).mem = s.mem := rfl
@[simp] theorem noteIrq_busMap (s : State) : (noteIrq s).busMap = s.busMap := rfl
@[simp] theorem noteIrq_inReset (s : State) : (noteIrq s).inReset = s.inReset := rfl
@[simp] theorem noteIrq_inputs (s : State) : (noteIrq s).inputs = s.inputs := rfl
@[simp] theorem noteIrq_reply (s : State) : (noteIrq s).reply = s.reply := rfl
@[simp] theorem noteIrq_raced (s : State) : (noteIrq s).raced = s.raced := rfl
@[simp] theorem noteIrq_draws (s : State) : (noteIrq s).draws = s.draws := rfl
@[simp] theorem noteIrq_unobserved (s : State) :
    (noteIrq s).unobserved = s.unobserved.map fun p => { p with raised := p.raised && s.irq } := rfl

/-! ## learn: only the list of unobserved ends changes -/

@[simp] theorem learn_params (r : Reg) (s : State) : (learn r s).params = s.params := by
  unfold learn; split <;> rfl

@[simp] theorem learn_ctrl (r : Reg) (s : State) : (learn r s).ctrl = s.ctrl := by
  unfold learn; split <;> rfl

@[simp] theorem learn_status (r : Reg) (s : State) : (learn r s).status = s.status := by
  unfold learn; split <;> rfl

@[simp] theorem learn_thresh (r : Reg) (s : State) : (learn r s).thresh = s.thresh := by
  unfold learn; split <;> rfl

@[simp] theorem learn_src (r : Reg) (s : State) : (learn r s).src = s.src := by
  unfold learn; split <;> rfl

@[simp] theorem learn_dst (r : Reg) (s : State) : (learn r s).dst = s.dst := by
  unfold learn; split <;> rfl

@[simp] theorem learn_len (r : Reg) (s : State) : (learn r s).len = s.len := by
  unfold learn; split <;> rfl

@[simp] theorem learn_scalar (r : Reg) (s : State) : (learn r s).scalar = s.scalar := by
  unfold learn; split <;> rfl

@[simp] theorem learn_opnd (r : Reg) (s : State) : (learn r s).opnd = s.opnd := by
  unfold learn; split <;> rfl

@[simp] theorem learn_result (r : Reg) (s : State) : (learn r s).result = s.result := by
  unfold learn; split <;> rfl

@[simp] theorem learn_fault (r : Reg) (s : State) : (learn r s).fault = s.fault := by
  unfold learn; split <;> rfl

@[simp] theorem learn_tblAddr (r : Reg) (s : State) : (learn r s).tblAddr = s.tblAddr := by
  unfold learn; split <;> rfl

@[simp] theorem learn_logTbl (r : Reg) (s : State) : (learn r s).logTbl = s.logTbl := by
  unfold learn; split <;> rfl

@[simp] theorem learn_expTbl (r : Reg) (s : State) : (learn r s).expTbl = s.expTbl := by
  unfold learn; split <;> rfl

@[simp] theorem learn_latched (r : Reg) (s : State) : (learn r s).latched = s.latched := by
  unfold learn; split <;> rfl

@[simp] theorem learn_dt (r : Reg) (s : State) : (learn r s).dt = s.dt := by
  unfold learn; split <;> rfl

@[simp] theorem learn_am (r : Reg) (s : State) : (learn r s).am = s.am := by
  unfold learn; split <;> rfl

@[simp] theorem learn_k (r : Reg) (s : State) : (learn r s).k = s.k := by
  unfold learn; split <;> rfl

@[simp] theorem learn_mem (r : Reg) (s : State) : (learn r s).mem = s.mem := by
  unfold learn; split <;> rfl

@[simp] theorem learn_busMap (r : Reg) (s : State) : (learn r s).busMap = s.busMap := by
  unfold learn; split <;> rfl

@[simp] theorem learn_inReset (r : Reg) (s : State) : (learn r s).inReset = s.inReset := by
  unfold learn; split <;> rfl

@[simp] theorem learn_inputs (r : Reg) (s : State) : (learn r s).inputs = s.inputs := by
  unfold learn; split <;> rfl

@[simp] theorem learn_reply (r : Reg) (s : State) : (learn r s).reply = s.reply := by
  unfold learn; split <;> rfl

@[simp] theorem learn_raced (r : Reg) (s : State) : (learn r s).raced = s.raced := by
  unfold learn; split <;> rfl

@[simp] theorem learn_draws (r : Reg) (s : State) : (learn r s).draws = s.draws := by
  unfold learn; split <;> rfl

/-! ## takeIrq: only the list of unobserved ends changes -/

@[simp] theorem takeIrq_params (s : State) : (takeIrq s).params = s.params := by
  unfold takeIrq; split <;> rfl

@[simp] theorem takeIrq_ctrl (s : State) : (takeIrq s).ctrl = s.ctrl := by
  unfold takeIrq; split <;> rfl

@[simp] theorem takeIrq_status (s : State) : (takeIrq s).status = s.status := by
  unfold takeIrq; split <;> rfl

@[simp] theorem takeIrq_thresh (s : State) : (takeIrq s).thresh = s.thresh := by
  unfold takeIrq; split <;> rfl

@[simp] theorem takeIrq_src (s : State) : (takeIrq s).src = s.src := by
  unfold takeIrq; split <;> rfl

@[simp] theorem takeIrq_dst (s : State) : (takeIrq s).dst = s.dst := by
  unfold takeIrq; split <;> rfl

@[simp] theorem takeIrq_len (s : State) : (takeIrq s).len = s.len := by
  unfold takeIrq; split <;> rfl

@[simp] theorem takeIrq_scalar (s : State) : (takeIrq s).scalar = s.scalar := by
  unfold takeIrq; split <;> rfl

@[simp] theorem takeIrq_opnd (s : State) : (takeIrq s).opnd = s.opnd := by
  unfold takeIrq; split <;> rfl

@[simp] theorem takeIrq_result (s : State) : (takeIrq s).result = s.result := by
  unfold takeIrq; split <;> rfl

@[simp] theorem takeIrq_fault (s : State) : (takeIrq s).fault = s.fault := by
  unfold takeIrq; split <;> rfl

@[simp] theorem takeIrq_tblAddr (s : State) : (takeIrq s).tblAddr = s.tblAddr := by
  unfold takeIrq; split <;> rfl

@[simp] theorem takeIrq_logTbl (s : State) : (takeIrq s).logTbl = s.logTbl := by
  unfold takeIrq; split <;> rfl

@[simp] theorem takeIrq_expTbl (s : State) : (takeIrq s).expTbl = s.expTbl := by
  unfold takeIrq; split <;> rfl

@[simp] theorem takeIrq_latched (s : State) : (takeIrq s).latched = s.latched := by
  unfold takeIrq; split <;> rfl

@[simp] theorem takeIrq_dt (s : State) : (takeIrq s).dt = s.dt := by
  unfold takeIrq; split <;> rfl

@[simp] theorem takeIrq_am (s : State) : (takeIrq s).am = s.am := by
  unfold takeIrq; split <;> rfl

@[simp] theorem takeIrq_k (s : State) : (takeIrq s).k = s.k := by
  unfold takeIrq; split <;> rfl

@[simp] theorem takeIrq_mem (s : State) : (takeIrq s).mem = s.mem := by
  unfold takeIrq; split <;> rfl

@[simp] theorem takeIrq_busMap (s : State) : (takeIrq s).busMap = s.busMap := by
  unfold takeIrq; split <;> rfl

@[simp] theorem takeIrq_inReset (s : State) : (takeIrq s).inReset = s.inReset := by
  unfold takeIrq; split <;> rfl

@[simp] theorem takeIrq_inputs (s : State) : (takeIrq s).inputs = s.inputs := by
  unfold takeIrq; split <;> rfl

@[simp] theorem takeIrq_reply (s : State) : (takeIrq s).reply = s.reply := by
  unfold takeIrq; split <;> rfl

@[simp] theorem takeIrq_raced (s : State) : (takeIrq s).raced = s.raced := by
  unfold takeIrq; split <;> rfl

@[simp] theorem takeIrq_draws (s : State) : (takeIrq s).draws = s.draws := by
  unfold takeIrq; split <;> rfl

end Sys2Proof.Machine
end

