-- ==== Sys2Proof/Laws/Ops.lean ====
section
/-! SUPPORT. What each shared operation can do, said once: engine resolution, acceptance, MULE, the unit's phases and steps, the CMD write, and the step itself. -/

namespace Sys2Proof.Machine

open Sys2Proof.Config

/-! ## The commands -/

/-- Every command is NOP, SEL, or a MULR or MULE with a mode, a selection and a granularity. -/
theorem instr_cases (i : Instr) : i = .nop ∨ i = .sel ∨ ∃ op m e g, i = mulInstr op m e g := by
  cases i
  case nop => exact .inl rfl
  case sel => exact .inr (.inl rfl)
  all_goals
    rename_i g
    refine .inr (.inr ?_)
    first
      | exact ⟨.mulr, .assign, .auto, g, rfl⟩
      | exact ⟨.mulr, .assign, .named .log, g, rfl⟩
      | exact ⟨.mulr, .assign, .named .shufN, g, rfl⟩
      | exact ⟨.mulr, .assign, .named .shufW, g, rfl⟩
      | exact ⟨.mulr, .assign, .named .clmul, g, rfl⟩
      | exact ⟨.mulr, .assign, .named .affine, g, rfl⟩
      | exact ⟨.mulr, .accumulate, .auto, g, rfl⟩
      | exact ⟨.mulr, .accumulate, .named .log, g, rfl⟩
      | exact ⟨.mulr, .accumulate, .named .shufN, g, rfl⟩
      | exact ⟨.mulr, .accumulate, .named .shufW, g, rfl⟩
      | exact ⟨.mulr, .accumulate, .named .clmul, g, rfl⟩
      | exact ⟨.mulr, .accumulate, .named .affine, g, rfl⟩
      | exact ⟨.mule, .assign, .auto, g, rfl⟩
      | exact ⟨.mule, .assign, .named .log, g, rfl⟩
      | exact ⟨.mule, .assign, .named .shufN, g, rfl⟩
      | exact ⟨.mule, .assign, .named .shufW, g, rfl⟩
      | exact ⟨.mule, .assign, .named .clmul, g, rfl⟩
      | exact ⟨.mule, .assign, .named .affine, g, rfl⟩
      | exact ⟨.mule, .accumulate, .auto, g, rfl⟩
      | exact ⟨.mule, .accumulate, .named .log, g, rfl⟩
      | exact ⟨.mule, .accumulate, .named .shufN, g, rfl⟩
      | exact ⟨.mule, .accumulate, .named .shufW, g, rfl⟩
      | exact ⟨.mule, .accumulate, .named .clmul, g, rfl⟩
      | exact ⟨.mule, .accumulate, .named .affine, g, rfl⟩

/-- Every MULR is an acceptance with its mode, selection and granularity. -/
theorem exec_mulr (m : Mode) (e : EngSel) (g : Gran) (s : State) :
    exec (mulInstr .mulr m e g) s = mulrAccept m e g s := by
  cases m <;> cases e <;> first | rfl | (rename_i e; cases e <;> rfl)

/-- Every MULE is `mule` with its mode, selection and granularity. -/
theorem exec_mule (m : Mode) (e : EngSel) (g : Gran) (s : State) :
    exec (mulInstr .mule m e g) s = mule m e g s := by
  cases m <;> cases e <;> first | rfl | (rename_i e; cases e <;> rfl)

/-! ## Resolution, acceptance, MULE -/

theorem resolve_auto (s : State) (len : Word) : resolve s .auto len = some (select s len) := rfl

theorem resolve_named (s : State) (e : Engine) (len : Word) :
    resolve s (.named e) len = if present s.params e then some e else none := rfl

/-- What MULR acceptance can do (40_commands.md R136, 60_exceptions.md R303). -/
theorem mulrAccept_cases (m : Mode) (sel : EngSel) (g : Gran) (s : State) :
    (resolve s sel s.len = none ∧ mulrAccept m sel g s = .next (raiseError .engineAbsent s)) ∨
    (∃ e c, resolve s sel s.len = some e ∧ operandError s = some c ∧
      mulrAccept m sel g s = .next (raiseError c (setLastEngine e s))) ∨
    (∃ e, resolve s sel s.len = some e ∧ operandError s = none ∧
      mulrAccept m sel g s = .next (accept m e g (setLastEngine e s))) := by
  unfold mulrAccept
  cases hr : resolve s sel s.len with
  | none => exact .inl ⟨rfl, rfl⟩
  | some e =>
    cases ho : operandError s with
    | some c => exact .inr (.inl ⟨e, c, rfl, rfl, rfl⟩)
    | none => exact .inr (.inr ⟨e, rfl, rfl, rfl⟩)

/-- What MULE can do (40_commands.md R141). -/
theorem mule_cases (m : Mode) (sel : EngSel) (g : Gran) (s : State) :
    (resolve s sel 2 = none ∧ mule m sel g s = .next (raiseError .engineAbsent s)) ∨
    (∃ e, resolve s sel 2 = some e ∧
      mule m sel g s = .next (endOk (muleRun m e (buildDerived e g s.scalar (latch m e g (setLastEngine e s)))))) := by
  unfold mule
  cases hr : resolve s sel 2 with
  | none => exact .inl ⟨rfl, rfl⟩
  | some e => exact .inr ⟨e, rfl, rfl⟩

open Classical in
/-- The operand checks in their order (60_exceptions.md R303), in the terms of the statements. -/
theorem operandError_eq (s : State) : operandError s =
    if ¬ LenEven s then some .oddLen
    else if ¬ InAddressSpace s then some .range
    else if ¬ NoPartialOverlap s then some .overlap
    else none := by
  have h1 : oddLength s = true ↔ ¬ LenEven s := by
    simp [oddLength, LenEven, BitVec.getLsbD, Nat.testBit]
  have h2 : outOfRange s = true ↔ ¬ InAddressSpace s := by
    simp [outOfRange, InAddressSpace]
    omega
  have h3 : partialOverlap s = true ↔ ¬ NoPartialOverlap s := by
    simp [partialOverlap, NoPartialOverlap, rangesMeet]
    omega
  unfold operandError
  simp only [h1, h2, h3]

/-- A resolved engine is present (40_commands.md R132, R133). -/
theorem present_of_resolve {s : State} {sel : EngSel} {len : Word} {e : Engine} (h : resolve s sel len = some e) :
    present s.params e = true := by
  cases sel with
  | auto =>
    injection h with h
    subst h
    unfold select
    split
    · simpa [present]
    split
    · rename_i h
      simp at h
      simp [present, h]
    split
    · rename_i h
      simp at h
      simp [present, h]
    split
    · simpa [present]
    · rfl
  | named e' =>
    simp only [resolve] at h
    split at h
    · injection h with h
      subst h
      assumption
    · cases h

/-- Building the derived state touches DT, AM and the count of free values only (40_commands.md R143). -/
theorem buildDerived_frame (e : Engine) (g : Gran) (a : Elem) (s : State) :
    buildDerived e g a s =
      { s with
        dt := (buildDerived e g a s).dt
        am := (buildDerived e g a s).am
        draws := (buildDerived e g a s).draws } := by
  unfold buildDerived
  split
  · rfl
  · cases e <;> rfl

/-- Settling a race touches memory, the race mark and the count of free values only (20_memory.md R83). -/
theorem settleRace_frame (s : State) :
    settleRace s =
      { s with mem := (settleRace s).mem, raced := (settleRace s).raced, draws := (settleRace s).draws } := by
  unfold settleRace
  split <;> rfl

/-! ## Free values -/

/-- A map that draws nothing is a plain map. -/
theorem mapDraw_pure {α β : Type} {f : α → Nat → β × Nat} {g : α → β} (l : List α) (d : Nat)
    (h : ∀ x ∈ l, ∀ d, f x d = (g x, d)) : mapDraw f l d = (l.map g, d) := by
  induction l with
  | nil => rfl
  | cons x xs ih =>
    have hx := h x (by simp)
    have ih := ih fun y hy => h y (by simp [hy])
    simp [mapDraw, hx, ih]

/-- A map that may draw gives one value for each element. -/
@[simp] theorem length_mapDraw {α β : Type} (f : α → Nat → β × Nat) (l : List α) (d : Nat) :
    (mapDraw f l d).1.length = l.length := by
  induction l generalizing d with
  | nil => rfl
  | cons x xs ih => simp [mapDraw, ih]

/-- A map of a function that never takes a draw back takes none back. -/
theorem mapDraw_le {α β : Type} {f : α → Nat → β × Nat} (h : ∀ x d, d ≤ (f x d).2) (l : List α) (d : Nat) :
    d ≤ (mapDraw f l d).2 := by
  induction l generalizing d with
  | nil => exact le_refl _
  | cons x xs ih => exact le_trans (h x d) (ih _)

/-- Each value of such a map is the function's at some count between the first and the last. -/
theorem mapDraw_get {α β : Type} {f : α → Nat → β × Nat} (h : ∀ x d, d ≤ (f x d).2) (l : List α) (d j : Nat)
    (hj : j < l.length) :
    ∃ d', d ≤ d' ∧ (f l[j] d').2 ≤ (mapDraw f l d).2 ∧ (mapDraw f l d).1[j]? = some (f l[j] d').1 := by
  induction l generalizing d j with
  | nil => simp at hj
  | cons x xs ih =>
    cases j with
    | zero => exact ⟨d, le_refl _, mapDraw_le h _ _, rfl⟩
    | succ j =>
      obtain ⟨d', h1, h2, h3⟩ := ih (f x d).2 j (by simpa using hj)
      exact ⟨d', le_trans (h x d) h1, h2, h3⟩

/-- The index of the antilog table is at most 65534 (41_log_table_unit.md R171). -/
theorem logIndex_ne (lx la : Elem) : logIndex lx la ≠ 65535 := by
  intro h
  have := congrArg BitVec.toNat h
  simp only [logIndex, BitVec.toNat_ofNat] at this
  have hlt : (lx.toNat + la.toNat) % 65535 < 65535 := Nat.mod_lt _ (by norm_num)
  rw [Nat.mod_eq_of_lt (by omega)] at this
  simp at this
  omega

/-- On loaded tables the table product draws nothing. -/
theorem logmul_loaded {s : State} (h : TablesLoaded s) (x a : Elem) (d : Nat) :
    logmul s.logTbl s.expTbl x a d = (tableProduct s x a, d) := by
  unfold tableProduct logmul
  split
  · rfl
  · rename_i hxa
    push Not at hxa
    obtain ⟨lx, hx⟩ := Option.ne_none_iff_exists'.1 (h.1 x hxa.1)
    obtain ⟨la, ha⟩ := Option.ne_none_iff_exists'.1 (h.1 a hxa.2)
    obtain ⟨v, hv⟩ := Option.ne_none_iff_exists'.1 (h.2 (logIndex lx la) (logIndex_ne lx la))
    simp [hx, ha, hv]

/-- A table product that draws nothing is the same whatever the count of free values. -/
theorem logmul_fixed {logT expT : Table} {x a : Elem} (h : (logmul logT expT x a 0).2 = 0) (d : Nat) :
    logmul logT expT x a d = ((logmul logT expT x a 0).1, d) := by
  revert h
  unfold logmul
  split
  · exact fun _ => rfl
  · split
    · split <;> simp
    · simp

/-- An element product that draws nothing is the same whatever the count of free values. -/
theorem prod_fixed {s : State} {e : Engine} {x a : Elem} {part : Bool} (h : (prod s e x a part 0).2 = 0) (d : Nat) :
    prod s e x a part d = ((prod s e x a part 0).1, d) := by
  revert h
  unfold prod
  split
  · exact fun _ => rfl
  · split
    · exact fun _ => rfl
    · cases e <;> simp only [fLog]
      · exact fun h => logmul_fixed h d
      · split
        · exact fun h => logmul_fixed h d
        · exact fun _ => rfl
      · split
        · exact fun h => logmul_fixed h d
        · exact fun _ => rfl
      · exact fun _ => trivial
      · exact fun _ => trivial

/-- A scalar that short-circuits reads no table entry (40_commands.md R140). -/
theorem noFreeProducts_of_shortCircuit {s : State} (h : s.latched.scalar = 0 ∨ s.latched.scalar = 1) :
    NoFreeProducts s := by
  intro o _ _ _
  rcases h with h | h <;> simp [prod, h]

/-- AFFINE and CLMUL read no table entry (43_affine.md R220, 44_clmul.md R240). -/
theorem noFreeProducts_of_engine {s : State} (h : s.latched.eng = .affine ∨ s.latched.eng = .clmul) :
    NoFreeProducts s := by
  intro o _ _ _
  unfold prod
  split
  · rfl
  · split
    · rfl
    · rcases h with h | h <;> simp [h]

/-- The full chunks of a shuffle engine read DT, not the tables (42_table_shuffle.md R193). -/
theorem noFreeProducts_of_shuffle {s : State} (h : s.latched.eng = .shufN ∨ s.latched.eng = .shufW)
    (hfull : ∀ o, s.k ≤ o → o < s.latched.len.toNat → partialAt s o = false) : NoFreeProducts s := by
  intro o h1 h2 _
  rw [hfull o h1 h2]
  unfold prod
  split
  · rfl
  · split
    · rfl
    · rcases h with h | h <;> simp [h]

/-- On loaded tables an element product draws nothing. -/
theorem prod_loaded {s : State} (h : TablesLoaded s) (e : Engine) (x a : Elem) (part : Bool) (d : Nat) :
    prod s e x a part d = ((prod s e x a part 0).1, d) := by
  apply prod_fixed
  unfold prod
  split
  · rfl
  · split
    · rfl
    · cases e <;> simp only [fLog, logmul_loaded h] <;> split <;> rfl

/-- No element product takes a draw back. -/
theorem prod_le (s : State) (e : Engine) (x a : Elem) (part : Bool) (d : Nat) : d ≤ (prod s e x a part d).2 := by
  have hlog (x a : Elem) (d : Nat) : d ≤ (logmul s.logTbl s.expTbl x a d).2 := by
    unfold logmul
    repeat' split
    all_goals first | exact le_refl _ | exact Nat.le_succ _
  unfold prod
  split
  · exact le_refl _
  · split
    · exact le_refl _
    · cases e <;> simp only [fLog] <;>
        first | exact le_refl _ | exact hlog _ _ _ | (split <;> first | exact le_refl _ | exact hlog _ _ _)

/-- On loaded tables no product draws. -/
theorem noFreeProducts_of_loaded {s : State} (h : TablesLoaded s) : NoFreeProducts s :=
  fun _ _ _ _ => by rw [prod_loaded h]

/-! ## The unit -/

/-- How a phase can end (60_exceptions.md R304; 93 U25). -/
theorem phase_cases (s : State) (wr : Bool) (addrs : List Nat) (d : Nat) :
    (phase s wr addrs d = .done ∧ (∀ a ∈ addrs, elemFaults s wr a = false) ∧ (∀ a ∈ addrs, elemSilent s wr a = false)) ∨
    (phase s wr addrs d = .waiting ∧ ∃ a ∈ addrs, elemSilent s wr a = true) ∨
    (∃ a ∈ addrs, phase s wr addrs d = .faulted a ∧ elemFaults s wr a = true) := by
  unfold phase
  cases hb : addrs.filter (elemFaults s wr) with
  | nil =>
    have hno : ∀ a ∈ addrs, elemFaults s wr a = false := by
      intro a ha
      simpa using List.filter_eq_nil_iff.1 hb a ha
    cases hm : addrs.any (elemSilent s wr) with
    | false => exact .inl ⟨rfl, hno, by simpa using hm⟩
    | true => exact .inr (.inl ⟨rfl, by simpa using hm⟩)
  | cons b bs =>
    simp only
    split
    · rename_i hm
      simp only [Bool.and_eq_true, List.any_eq_true] at hm
      exact .inr (.inl ⟨rfl, hm.1⟩)
    · refine .inr (.inr ⟨_, ?_, rfl, ?_⟩)
      all_goals
        have hlt : freeIndex d % (b :: bs).length < (b :: bs).length := Nat.mod_lt _ (by simp)
        have hmem : (b :: bs).getD (freeIndex d % (b :: bs).length) b ∈ addrs.filter (elemFaults s wr) := by
          rw [hb, List.getD_eq_getElem _ _ hlt]
          exact List.getElem_mem hlt
        have := List.mem_filter.1 hmem
      · exact this.1
      · exact this.2

/-- A phase none of whose accesses faults or stays unanswered succeeds. -/
theorem phase_done {s : State} {wr : Bool} {addrs : List Nat} (d : Nat)
    (hf : ∀ a ∈ addrs, elemFaults s wr a = false) (hs : ∀ a ∈ addrs, elemSilent s wr a = false) :
    phase s wr addrs d = .done := by
  rcases phase_cases s wr addrs d with h | ⟨_, a, ha, h⟩ | ⟨a, ha, _, h⟩
  · exact h.1
  · simp [hs a ha] at h
  · simp [hf a ha] at h

/-- A phase with a faulting access and none that stays unanswered reports a faulting address. -/
theorem phase_faulted {s : State} {wr : Bool} {addrs : List Nat} (d : Nat)
    (hf : ∃ a ∈ addrs, elemFaults s wr a = true) (hs : ∀ a ∈ addrs, elemSilent s wr a = false) :
    ∃ a ∈ addrs, phase s wr addrs d = .faulted a ∧ elemFaults s wr a = true := by
  obtain ⟨b, hb, hbf⟩ := hf
  rcases phase_cases s wr addrs d with h | ⟨_, a, ha, h⟩ | h
  · simp [h.2.1 b hb] at hbf
  · simp [hs a ha] at h
  · exact h

/-- What a chunk step can do (40_commands.md R146, 60_exceptions.md R304); whatever it does but refuse, it draws the
destinations of the ended commands that its accesses race with (70_reset_and_hazards.md R346). -/
theorem chunkStep_cases (s : State) :
    chunkStep s = .refused .windowInMemory ∨
    (∃ ps, (ps = lateReads s ∨ ps = lateAccesses s) ∧ chunkStep s = .next (drawSpans ps s)) ∨
    (∃ a ∈ chunkReads s, elemFaults s false a = true ∧
      chunkStep s = .next (settleRace (busFault a (drawSpans (lateReads s) { s with draws := s.draws + 1 })))) ∨
    (∃ a ∈ chunkWrites s, elemFaults s true a = true ∧
      chunkStep s = .next (settleRace (busFault a (drawSpans (lateAccesses s) (tearChunk s))))) ∨
    chunkStep s = .next (drawSpans (lateAccesses s) (storeChunk s)) := by
  unfold chunkStep
  split
  · exact .inl rfl
  · rcases phase_cases s false (chunkReads s) s.draws with h | h | ⟨a, ha, h, hf⟩
    · rcases phase_cases s true (chunkWrites s) (chunkValues s).2 with h' | h' | ⟨a, ha, h', hf⟩
      · refine .inr (.inr (.inr (.inr ?_)))
        simp [h.1, h'.1]
      · refine .inr (.inl ⟨_, .inr rfl, ?_⟩)
        simp [h.1, h'.1]
      · refine .inr (.inr (.inr (.inl ⟨a, ha, hf, ?_⟩)))
        simp [h.1, h']
    · refine .inr (.inl ⟨_, .inl rfl, ?_⟩)
      simp [h.1]
    · refine .inr (.inr (.inl ⟨a, ha, hf, ?_⟩))
      simp [h]

/-- What the unit's step can do (40_commands.md R144, R146). -/
theorem unitStep_cases (s : State) :
    (s.k = s.latched.len.toNat ∧ unitStep s = .next (settleRace (completeCommand s))) ∨
    (s.k ≠ s.latched.len.toNat ∧ unitStep s = chunkStep s) := by
  unfold unitStep
  by_cases h : s.k = s.latched.len.toNat <;> simp [h]

/-- What the unit's turn can do. -/
theorem unitMove_cases (s : State) :
    (s.status.busy = true ∧ s.inReset = false ∧ unitMove s = unitStep s) ∨ unitMove s = .next s := by
  unfold unitMove
  cases hb : s.status.busy <;> cases hr : s.inReset <;> simp

/-! ## The CMD write and the step -/

/-- What a CMD write can do (40_commands.md R130). -/
theorem cmdWrite_cases (w : Word) (s : State) :
    (s.status.busy = true ∧ cmdWrite w s = .next (dropWrite s)) ∨
    (s.status.busy = false ∧ ∃ e, decode w = .error e ∧ cmdWrite w s = .next (raiseError (.ofDecode e) s)) ∨
    (s.status.busy = false ∧ ∃ i, decode w = .ok i ∧ cmdWrite w s = exec i s) := by
  unfold cmdWrite
  cases hb : s.status.busy with
  | true => exact .inl ⟨rfl, rfl⟩
  | false =>
    cases hd : decode w with
    | error e => exact .inr (.inl ⟨rfl, e, rfl, rfl⟩)
    | ok i => exact .inr (.inr ⟨rfl, i, rfl, rfl⟩)

/-- The step is the unit's turn where no event waits, else the first event. -/
theorem step_nil {s : State} (h : s.inputs = []) : step s = unitMove s := by
  simp [step, stepOnce, h]

theorem step_cons {s : State} {e : Event} {es : List Event} (h : s.inputs = e :: es) :
    step s = event e (withInputs es s) := by
  simp [step, stepOnce, h]

/-- A register's bus address is decoded as that register, wherever the window stands. -/
theorem portAccess_reg (s : State) (r : Reg) : portAccess s (regAddr s.params r) .w32 = .reg r := by
  have h : portOffset s (regAddr s.params r) = r.offset := by
    unfold portOffset regAddr
    rw [add_sub_cancel_left]
    cases r <;> decide
  simp only [portAccess, h]
  cases r <;> decide

/-- One step of a run that answers a next state. -/
theorem run_succ {s t : State} (n : Nat) (h : step s = .next t) :
    Host.Core.run Sys2Proof.core (n + 1) s = Host.Core.run Sys2Proof.core n t := by
  have key : ∀ (M : Host.Core) (s t : M.State), M.step s = .next t → M.run (n + 1) s = M.run n t := by
    intro M s t h
    simp only [Host.Core.run, h]
  exact key Sys2Proof.core s t h

end Sys2Proof.Machine
end

