-- ==== Sys2Proof/Laws/PerInstr.lean ====
section
/-! SUPPORT. What is said of every command as syntax, one lemma for each constructor: its fields are legal, and its word is the one its row of opcode_table.json fixes, with GRAN in bit 12. -/

namespace Sys2Proof.Laws

/-- The fixed bits of a command's row in opcode_table.json: which they are, and their values. -/
def opcodeRow : Instr → Word × Word
  | .nop => (0xFFFFFFFF, 0x00000000)
  | .sel => (0xFFFFFFFF, 0x00000003)
  | .mulrAsgAuto _ => (0xFFFFEFFF, 0x00000001)
  | .mulrAsgLog _ => (0xFFFFEFFF, 0x00000101)
  | .mulrAsgShufn _ => (0xFFFFEFFF, 0x00000201)
  | .mulrAsgShufw _ => (0xFFFFEFFF, 0x00000301)
  | .mulrAsgClmul _ => (0xFFFFEFFF, 0x00000401)
  | .mulrAsgAffine _ => (0xFFFFEFFF, 0x00000501)
  | .mulrAccAuto _ => (0xFFFFEFFF, 0x00000011)
  | .mulrAccLog _ => (0xFFFFEFFF, 0x00000111)
  | .mulrAccShufn _ => (0xFFFFEFFF, 0x00000211)
  | .mulrAccShufw _ => (0xFFFFEFFF, 0x00000311)
  | .mulrAccClmul _ => (0xFFFFEFFF, 0x00000411)
  | .mulrAccAffine _ => (0xFFFFEFFF, 0x00000511)
  | .muleAsgAuto _ => (0xFFFFEFFF, 0x00000002)
  | .muleAsgLog _ => (0xFFFFEFFF, 0x00000102)
  | .muleAsgShufn _ => (0xFFFFEFFF, 0x00000202)
  | .muleAsgShufw _ => (0xFFFFEFFF, 0x00000302)
  | .muleAsgClmul _ => (0xFFFFEFFF, 0x00000402)
  | .muleAsgAffine _ => (0xFFFFEFFF, 0x00000502)
  | .muleAccAuto _ => (0xFFFFEFFF, 0x00000012)
  | .muleAccLog _ => (0xFFFFEFFF, 0x00000112)
  | .muleAccShufn _ => (0xFFFFEFFF, 0x00000212)
  | .muleAccShufw _ => (0xFFFFEFFF, 0x00000312)
  | .muleAccClmul _ => (0xFFFFEFFF, 0x00000412)
  | .muleAccAffine _ => (0xFFFFEFFF, 0x00000512)

/-- A command's fields are legal, its word has its row's fixed bits, and the one bit left is GRAN
(30_encoding.md R101 to R107). -/
def OpcodeRow.Statement (i : Instr) : Prop :=
  i.wf = true ∧ encode i &&& (opcodeRow i).1 = (opcodeRow i).2 ∧
    encode i &&& ~~~(opcodeRow i).1 = i.gran.code.setWidth 32 <<< 12

theorem OpcodeRow.nop : OpcodeRow.Statement .nop := by unfold OpcodeRow.Statement; decide

theorem OpcodeRow.sel : OpcodeRow.Statement .sel := by unfold OpcodeRow.Statement; decide

theorem OpcodeRow.mulrAsgAuto (g : Gran) : OpcodeRow.Statement (.mulrAsgAuto g) := by cases g <;> unfold OpcodeRow.Statement <;> decide

theorem OpcodeRow.mulrAsgLog (g : Gran) : OpcodeRow.Statement (.mulrAsgLog g) := by cases g <;> unfold OpcodeRow.Statement <;> decide

theorem OpcodeRow.mulrAsgShufn (g : Gran) : OpcodeRow.Statement (.mulrAsgShufn g) := by cases g <;> unfold OpcodeRow.Statement <;> decide

theorem OpcodeRow.mulrAsgShufw (g : Gran) : OpcodeRow.Statement (.mulrAsgShufw g) := by cases g <;> unfold OpcodeRow.Statement <;> decide

theorem OpcodeRow.mulrAsgClmul (g : Gran) : OpcodeRow.Statement (.mulrAsgClmul g) := by cases g <;> unfold OpcodeRow.Statement <;> decide

theorem OpcodeRow.mulrAsgAffine (g : Gran) : OpcodeRow.Statement (.mulrAsgAffine g) := by cases g <;> unfold OpcodeRow.Statement <;> decide

theorem OpcodeRow.mulrAccAuto (g : Gran) : OpcodeRow.Statement (.mulrAccAuto g) := by cases g <;> unfold OpcodeRow.Statement <;> decide

theorem OpcodeRow.mulrAccLog (g : Gran) : OpcodeRow.Statement (.mulrAccLog g) := by cases g <;> unfold OpcodeRow.Statement <;> decide

theorem OpcodeRow.mulrAccShufn (g : Gran) : OpcodeRow.Statement (.mulrAccShufn g) := by cases g <;> unfold OpcodeRow.Statement <;> decide

theorem OpcodeRow.mulrAccShufw (g : Gran) : OpcodeRow.Statement (.mulrAccShufw g) := by cases g <;> unfold OpcodeRow.Statement <;> decide

theorem OpcodeRow.mulrAccClmul (g : Gran) : OpcodeRow.Statement (.mulrAccClmul g) := by cases g <;> unfold OpcodeRow.Statement <;> decide

theorem OpcodeRow.mulrAccAffine (g : Gran) : OpcodeRow.Statement (.mulrAccAffine g) := by cases g <;> unfold OpcodeRow.Statement <;> decide

theorem OpcodeRow.muleAsgAuto (g : Gran) : OpcodeRow.Statement (.muleAsgAuto g) := by cases g <;> unfold OpcodeRow.Statement <;> decide

theorem OpcodeRow.muleAsgLog (g : Gran) : OpcodeRow.Statement (.muleAsgLog g) := by cases g <;> unfold OpcodeRow.Statement <;> decide

theorem OpcodeRow.muleAsgShufn (g : Gran) : OpcodeRow.Statement (.muleAsgShufn g) := by cases g <;> unfold OpcodeRow.Statement <;> decide

theorem OpcodeRow.muleAsgShufw (g : Gran) : OpcodeRow.Statement (.muleAsgShufw g) := by cases g <;> unfold OpcodeRow.Statement <;> decide

theorem OpcodeRow.muleAsgClmul (g : Gran) : OpcodeRow.Statement (.muleAsgClmul g) := by cases g <;> unfold OpcodeRow.Statement <;> decide

theorem OpcodeRow.muleAsgAffine (g : Gran) : OpcodeRow.Statement (.muleAsgAffine g) := by cases g <;> unfold OpcodeRow.Statement <;> decide

theorem OpcodeRow.muleAccAuto (g : Gran) : OpcodeRow.Statement (.muleAccAuto g) := by cases g <;> unfold OpcodeRow.Statement <;> decide

theorem OpcodeRow.muleAccLog (g : Gran) : OpcodeRow.Statement (.muleAccLog g) := by cases g <;> unfold OpcodeRow.Statement <;> decide

theorem OpcodeRow.muleAccShufn (g : Gran) : OpcodeRow.Statement (.muleAccShufn g) := by cases g <;> unfold OpcodeRow.Statement <;> decide

theorem OpcodeRow.muleAccShufw (g : Gran) : OpcodeRow.Statement (.muleAccShufw g) := by cases g <;> unfold OpcodeRow.Statement <;> decide

theorem OpcodeRow.muleAccClmul (g : Gran) : OpcodeRow.Statement (.muleAccClmul g) := by cases g <;> unfold OpcodeRow.Statement <;> decide

theorem OpcodeRow.muleAccAffine (g : Gran) : OpcodeRow.Statement (.muleAccAffine g) := by cases g <;> unfold OpcodeRow.Statement <;> decide

/-- The typed syntax admits no command with illegal fields. -/
theorem instr_wf (i : Instr) : i.wf = true := by
  cases i <;> rfl

end Sys2Proof.Laws
end

