-- ==== Sys2Proof/Laws/Port.lean ====
section
/-! SUPPORT. Laws of the register port: the implemented bits of the address registers and what a written register reads back. -/

namespace Sys2Proof.Machine

open Sys2Proof.Config

/-- An address register keeps its low P_AW bits (10_state.md R32). -/
theorem getLsbD_maskAddr (p : Params) (a : Addr) (i : Nat) :
    (maskAddr p a).getLsbD i = (a.getLsbD i && decide (i < p.aw)) := by
  rw [maskAddr, BitVec.getLsbD_and, BitVec.getLsbD_ofNat, Nat.testBit_two_pow_sub_one]
  by_cases h : i < 64
  · simp [h]
  · simp [BitVec.getLsbD_of_ge a i (by omega)]

theorem toNat_maskAddr {p : Params} (h : p.aw ≤ 64) (a : Addr) : (maskAddr p a).toNat = a.toNat % 2 ^ p.aw := by
  have h2 : 2 ^ p.aw ≤ 2 ^ 64 := Nat.pow_le_pow_right (by omega) h
  have h3 := Nat.two_pow_pos p.aw
  rw [maskAddr, BitVec.toNat_and, BitVec.toNat_ofNat, Nat.mod_eq_of_lt (by omega), Nat.and_two_pow_sub_one_eq_mod]

/-- The low half takes a write of the low half whole (10_state.md R32; P_AW is at least 32). -/
theorem loHalf_setLo {p : Params} (h : 32 ≤ p.aw) (a : Addr) (w : Word) : loHalf (setLo p a w) = w := by
  refine BitVec.eq_of_getLsbD_eq fun i hi => ?_
  rw [loHalf, BitVec.getLsbD_extractLsb', setLo, getLsbD_maskAddr, BitVec.getLsbD_append]
  have : i < p.aw := by omega
  simp [hi, this]

/-- A write of the low half leaves the high half. -/
theorem hiHalf_setLo {p : Params} {a : Addr} (ha : a.toNat < 2 ^ p.aw) (w : Word) :
    hiHalf (setLo p a w) = hiHalf a := by
  refine BitVec.eq_of_getLsbD_eq fun i hi => ?_
  rw [hiHalf, hiHalf, BitVec.getLsbD_extractLsb', BitVec.getLsbD_extractLsb', setLo, getLsbD_maskAddr,
    BitVec.getLsbD_append]
  by_cases h1 : 32 + i < p.aw
  · simp [hi, h1]
  · have hz : a.getLsbD (32 + i) = false :=
      Nat.testBit_lt_two_pow (lt_of_lt_of_le ha (Nat.pow_le_pow_right (by omega) (by omega)))
    simp [hi, h1, hz]

/-- A write of the high half leaves the low half. -/
theorem loHalf_setHi {p : Params} (h : 32 ≤ p.aw) (a : Addr) (w : Word) : loHalf (setHi p a w) = loHalf a := by
  refine BitVec.eq_of_getLsbD_eq fun i hi => ?_
  rw [loHalf, loHalf, BitVec.getLsbD_extractLsb', BitVec.getLsbD_extractLsb', setHi, getLsbD_maskAddr,
    BitVec.getLsbD_append]
  have : i < p.aw := by omega
  simp [hi, this]

/-- The high half takes a write on its implemented bits (10_state.md R32). -/
theorem hiHalf_setHi (p : Params) (a : Addr) (w : Word) :
    hiHalf (setHi p a w) = w &&& BitVec.ofNat 32 (2 ^ (p.aw - 32) - 1) := by
  refine BitVec.eq_of_getLsbD_eq fun i hi => ?_
  rw [hiHalf, BitVec.getLsbD_extractLsb', setHi, getLsbD_maskAddr, BitVec.getLsbD_append, BitVec.getLsbD_and,
    BitVec.getLsbD_ofNat, Nat.testBit_two_pow_sub_one]
  have : 32 + i < p.aw ↔ i < p.aw - 32 := by omega
  simp [hi, this]

/-- CTRL reads back its three bits (10_state.md R23). -/
theorem ctrl_word_ofWord (w : Word) : (Ctrl.ofWord w).word = w &&& 0x7 := by
  refine BitVec.eq_of_getLsbD_eq fun i hi => ?_
  unfold Ctrl.ofWord Ctrl.word bitAt
  interval_cases i <;> simp [BitVec.getElem_ofBool]

/-- TBL_ADDR reads back its 17 bits (10_state.md R41). -/
theorem tblAddr_word_ofWord (w : Word) : (TblAddr.ofWord w).word = w &&& 0x1FFFF := by
  refine BitVec.eq_of_getLsbD_eq fun i hi => ?_
  unfold TblAddr.ofWord TblAddr.word bitAt
  interval_cases i <;> simp [BitVec.getElem_ofBool]

/-- SCALAR and OPND read back their 16 bits (10_state.md R35, R36). -/
theorem setWidth_low (w : Word) : (w.setWidth 16).setWidth 32 = w &&& 0xFFFF := by
  refine BitVec.eq_of_getLsbD_eq fun i hi => ?_
  interval_cases i <;> simp

end Sys2Proof.Machine
end

