-- ==== Sys2Proof/Laws/Races.lean ====
section
/-! SUPPORT. What a race leaves: the bytes that take any value, and all others; the range checks in the terms of the statements. -/

namespace Sys2Proof.Machine

open Sys2Proof.Config

/-- Two ranges meet where they have a byte in common. -/
theorem rangesMeet_iff (a m b n : Nat) :
    rangesMeet a m b n = true ↔ ∃ x, (a ≤ x ∧ x < a + m) ∧ (b ≤ x ∧ x < b + n) := by
  simp only [rangesMeet, Bool.and_eq_true, decide_eq_true_eq]
  constructor
  · intro h
    exact ⟨max a b, by omega, by omega⟩
  · rintro ⟨x, h⟩
    omega

/-- An access off the register window does not touch it (20_memory.md R78). -/
theorem RangeOffWindow.touches {s : State} {a n : Nat} (h : RangeOffWindow s a n) : touchesWindow s a n = false := by
  refine Bool.eq_false_iff.2 fun hc => ?_
  simp only [touchesWindow, Bool.and_eq_true, rangesMeet_iff] at hc
  obtain ⟨hw, x, h1, h2⟩ := hc
  exact h x h1.1 h1.2 ⟨hw, h2⟩

/-- A chunk whose accesses are off the register window is not refused (20_memory.md R78). -/
theorem OffWindow.chunk {s : State} (h : OffWindow s (ChunkAccesses s)) :
    (chunkReads s ++ chunkWrites s).any (touchesWindow s · 2) = false := by
  refine List.any_eq_false.2 fun a ha => Bool.eq_false_iff.1 (RangeOffWindow.touches fun x h1 h2 => ?_)
  rcases List.mem_append.1 ha with ha | ha
  · exact h false x ⟨a, ha, h1, h2⟩
  · exact h true x ⟨a, ha, h1, h2⟩

/-- Accesses that are answered with ok are answered. -/
theorem AllAnswered.noneSilent {s : State} {acc : Bool → Nat → Prop} (h : AllAnswered s acc) : NoneSilent s acc :=
  fun wr x hx => by simp [h wr x hx]

/-- No element access of a chunk with no unanswered access is unanswered (93 U25). -/
theorem NoneSilent.chunk {s : State} (h : NoneSilent s (ChunkAccesses s)) :
    (∀ a ∈ chunkReads s, elemSilent s false a = false) ∧ (∀ a ∈ chunkWrites s, elemSilent s true a = false) := by
  constructor <;> intro a ha <;> simp only [elemSilent, Bool.or_eq_false_iff, beq_eq_false_iff_ne]
  · exact ⟨h false a ⟨a, ha, by omega, by omega⟩, h false (a + 1) ⟨a, ha, by omega, by omega⟩⟩
  · exact ⟨h true a ⟨a, ha, by omega, by omega⟩, h true (a + 1) ⟨a, ha, by omega, by omega⟩⟩

/-- No element access of a chunk whose accesses are answered with ok faults (20_memory.md R76). -/
theorem AllAnswered.chunk {s : State} (h : AllAnswered s (ChunkAccesses s)) :
    (∀ a ∈ chunkReads s, elemFaults s false a = false) ∧ (∀ a ∈ chunkWrites s, elemFaults s true a = false) := by
  constructor <;> intro a ha
  · simp [elemFaults, h false a ⟨a, ha, by omega, by omega⟩, h false (a + 1) ⟨a, ha, by omega, by omega⟩]
  · simp [elemFaults, h true a ⟨a, ha, by omega, by omega⟩, h true (a + 1) ⟨a, ha, by omega, by omega⟩]

theorem loadMeets_iff (p : Span) (a n : Nat) : loadMeets p a n = true ↔ LoadTouches p a n := by
  simp only [loadMeets, rangesMeet_iff, LoadTouches, InDst, and_assoc]

theorem storeMeets_iff (p : Span) (a n : Nat) : storeMeets p a n = true ↔ StoreTouches p a n := by
  simp only [storeMeets, Bool.or_eq_true, rangesMeet_iff, StoreTouches, InDst, InSrc]
  constructor
  · rintro (⟨x, h⟩ | ⟨x, h⟩)
    · exact ⟨x, h.1.1, h.1.2, .inl h.2⟩
    · exact ⟨x, h.1.1, h.1.2, .inr h.2⟩
  · rintro ⟨x, h1, h2, h | h⟩
    · exact .inl ⟨x, ⟨h1, h2⟩, h⟩
    · exact .inr ⟨x, ⟨h1, h2⟩, h⟩

theorem writesDest_iff (l : Latched) : writesDest l = true ↔ WritesMemory l := by
  simp only [writesDest, WritesMemory, Bool.not_eq_true', Bool.and_eq_false_iff, beq_eq_false_iff_ne]
  tauto

theorem loadMeets_one (p : Span) (a : Nat) : loadMeets p a 1 = true ↔ InDst p a := by
  rw [loadMeets_iff]
  constructor
  · rintro ⟨x, h1, h2, h⟩
    rwa [show x = a by omega] at h
  · exact fun h => ⟨a, le_refl _, by omega, h⟩

theorem lateByte_iff (s : State) (a : Nat) : lateByte s a = true ↔ ∃ p ∈ endedSpans s, InDst p a := by
  simp only [lateByte, List.any_eq_true, loadMeets_one]

theorem mem_lateReads {s : State} {p : Span} : p ∈ lateReads s ↔ p ∈ endedSpans s ∧ ChunkReadTouches p s := by
  simp only [lateReads, List.mem_filter, List.any_eq_true, loadMeets_iff, ChunkReadTouches]

theorem mem_lateAccesses {s : State} {p : Span} : p ∈ lateAccesses s ↔ p ∈ endedSpans s ∧ ChunkTouches p s := by
  simp only [lateAccesses, List.mem_filter, Bool.or_eq_true, List.any_eq_true, loadMeets_iff, storeMeets_iff,
    ChunkTouches, ChunkReadTouches]

/-- The free values that a run of bytes draws. -/
theorem drawBytes_draws (m : Memory) (a n d : Nat) : (drawBytes m a n d).2 = d + n := by
  induction n generalizing m a d with
  | zero => rfl
  | succ n ih => rw [drawBytes, ih]; omega

/-- A byte outside the destination of a command stays when its destination takes any value. -/
theorem readByte_drawSpan_outside {p : Span} {x : Nat} (h : ¬ InDst p x) (s : State) :
    readByte (drawSpan p s).mem x = readByte s.mem x := by
  apply readByte_drawBytes_outside
  unfold InDst at h
  omega

/-- A byte of the destination of a command takes a value drawn then. -/
theorem readByte_drawSpan_inside {p : Span} {x : Nat} (h : InDst p x) {s : State} (hm : s.mem.wf = true) :
    ∃ d, s.draws ≤ d ∧ d < (drawSpan p s).draws ∧ readByte (drawSpan p s).mem x = freeByte d := by
  obtain ⟨j, rfl⟩ := Nat.exists_eq_add_of_le h.1
  have hj : j < p.len.toNat := by have := h.2; omega
  refine ⟨s.draws + j, by omega, ?_, readByte_drawBytes_inside hm _ _ _ _ hj⟩
  show _ < (drawBytes _ _ _ _).2
  rw [drawBytes_draws]
  omega

theorem wf_drawSpans (ps : List Span) {s : State} (hm : s.mem.wf = true) : (drawSpans ps s).mem.wf = true := by
  induction ps generalizing s with
  | nil => exact hm
  | cons p ps ih => exact ih (s := drawSpan p s) (wf_drawBytes _ _ _ hm)

theorem draws_le_drawSpans (ps : List Span) (s : State) : s.draws ≤ (drawSpans ps s).draws := by
  induction ps generalizing s with
  | nil => exact le_refl _
  | cons p ps ih =>
    refine le_trans ?_ (ih (drawSpan p s))
    show _ ≤ (drawBytes _ _ _ _).2
    rw [drawBytes_draws]
    omega

/-- A byte in none of the destinations stays. -/
theorem readByte_drawSpans_outside {ps : List Span} {x : Nat} (h : ∀ p ∈ ps, ¬ InDst p x) (s : State) :
    readByte (drawSpans ps s).mem x = readByte s.mem x := by
  induction ps generalizing s with
  | nil => rfl
  | cons p ps ih =>
    rw [drawSpans, ih (fun q hq => h q (by simp [hq])), readByte_drawSpan_outside (h p (by simp))]

/-- A byte in one of the destinations takes a value drawn then. -/
theorem readByte_drawSpans_inside {ps : List Span} {x : Nat} (h : ∃ p ∈ ps, InDst p x) {s : State}
    (hm : s.mem.wf = true) :
    ∃ d, s.draws ≤ d ∧ d < (drawSpans ps s).draws ∧ readByte (drawSpans ps s).mem x = freeByte d := by
  induction ps generalizing s with
  | nil => simp at h
  | cons p ps ih =>
    by_cases hq : ∃ q ∈ ps, InDst q x
    · obtain ⟨d, h1, h2, h3⟩ := ih (s := drawSpan p s) hq (wf_drawBytes _ _ _ hm)
      exact ⟨d, le_trans (draws_le_drawSpans [p] s) h1, h2, h3⟩
    · have hp : InDst p x := by
        obtain ⟨q, hm, hx⟩ := h
        rcases List.mem_cons.1 hm with rfl | hm
        · exact hx
        · exact absurd ⟨q, hm, hx⟩ hq
      obtain ⟨d, h1, h2, h3⟩ := readByte_drawSpan_inside hp hm
      refine ⟨d, h1, lt_of_lt_of_le h2 (draws_le_drawSpans ps _), ?_⟩
      rw [drawSpans, readByte_drawSpans_outside (fun q hm hx => hq ⟨q, hm, hx⟩), h3]

/-- Drawing destinations touches memory and the count of free values only. -/
theorem drawSpans_frame (ps : List Span) (s : State) :
    drawSpans ps s = { s with mem := (drawSpans ps s).mem, draws := (drawSpans ps s).draws } := by
  induction ps generalizing s with
  | nil => rfl
  | cons p ps ih => rw [drawSpans, ih]; rfl

end Sys2Proof.Machine
end

