-- ==== Sys2Proof/Laws/Step.lean ====
section
/-! SUPPORT. What a step of the machine can do, said once: the unit's move, reset, a register write, another agent's access, or an event that touches nothing of the block but TBL_ADDR. -/

namespace Sys2Proof.Machine

open Sys2Proof.Config

/-- What the unit's move does when it does something (40_commands.md R144, R146; 60_exceptions.md R304). -/
inductive UnitOutcome (s t : State) : Prop where
  | waiting (hk : s.k ≠ s.latched.len.toNat) (ps : List Span) (hp : ps = lateReads s ∨ ps = lateAccesses s)
      (h : t = drawSpans ps s)
  | completed (hk : s.k = s.latched.len.toNat) (h : t = settleRace (completeCommand s))
  | readFault (a : Nat) (hk : s.k ≠ s.latched.len.toNat) (ha : a ∈ chunkReads s) (hf : elemFaults s false a = true)
      (h : t = settleRace (busFault a (drawSpans (lateReads s) { s with draws := s.draws + 1 })))
  | writeFault (a : Nat) (hk : s.k ≠ s.latched.len.toNat) (ha : a ∈ chunkWrites s) (hf : elemFaults s true a = true)
      (h : t = settleRace (busFault a (drawSpans (lateAccesses s) (tearChunk s))))
  | stored (hk : s.k ≠ s.latched.len.toNat) (h : t = drawSpans (lateAccesses s) (storeChunk s))

/-- What the unit's move can do: nothing, or one of the outcomes, with BUSY = 1 and reset released. -/
theorem unitMove_outcome {s t : State} (h : unitMove s = .next t) :
    t = s ∨ (s.status.busy = true ∧ s.inReset = false ∧ UnitOutcome s t) := by
  rcases unitMove_cases s with ⟨hb, hr, hu⟩ | hu
  · rw [hu] at h
    refine .inr ⟨hb, hr, ?_⟩
    rcases unitStep_cases s with ⟨hk, hs⟩ | ⟨hk, hs⟩
    · rw [hs] at h
      injection h with h
      exact .completed hk h.symm
    · rw [hs] at h
      rcases chunkStep_cases s with hc | ⟨ps, hp, hc⟩ | ⟨a, ha, hf, hc⟩ | ⟨a, ha, hf, hc⟩ | hc <;> rw [hc] at h
      · cases h
      · injection h with h
        exact .waiting hk ps hp h.symm
      · injection h with h
        exact .readFault a hk ha hf h.symm
      · injection h with h
        exact .writeFault a hk ha hf h.symm
      · injection h with h
        exact .stored hk h.symm
  · rw [hu] at h
    injection h with h
    exact .inl h.symm

/-- What a read of a register leaves behind: at most TBL_ADDR and the count of free values move (20_memory.md R77). -/
theorem readReg_frame (r : Reg) (s : State) :
    ∃ ta d, (readReg r s).2 = { s with tblAddr := ta, draws := d } := by
  cases r
  case tblData =>
    simp only [readReg, tblDataLoad]
    split
    · exact ⟨_, _, rfl⟩
    · exact ⟨_, _, rfl⟩
  all_goals exact ⟨_, _, rfl⟩

/-- What a host learns from a read leaves some of the unobserved ends, and touches nothing else. -/
theorem learn_frame (r : Reg) (s : State) : ∃ us ⊆ s.unobserved, learn r s = { s with unobserved := us } := by
  unfold learn
  split
  · refine ⟨_, ?_, rfl⟩
    split
    · exact fun _ h => h
    · exact List.nil_subset _
  · exact ⟨s.unobserved, fun _ h => h, rfl⟩

/-- Taking the interrupt leaves some of the unobserved ends, and touches nothing else. -/
theorem takeIrq_frame (s : State) : ∃ us ⊆ s.unobserved, takeIrq s = { s with unobserved := us } := by
  unfold takeIrq
  split
  · refine ⟨_, ?_, rfl⟩
    split
    · exact List.nil_subset _
    · exact fun _ h => (List.mem_filter.1 h).1
  · exact ⟨s.unobserved, fun _ h => h, rfl⟩

/-- What a step that answers a next state did. -/
inductive StepOutcome (s t : State) : Prop where
  /-- the unit moved -/
  | unit (es : List Event) (hm : UnitMoves s)
      (h : t = withInputs es s ∨ (s.status.busy = true ∧ s.inReset = false ∧ UnitOutcome (withInputs es s) t))
  /-- reset was asserted -/
  | reset (es : List Event) (hin : s.inputs = .resetAssert :: es) (h : t = resetEvent (withInputs es s))
  /-- a register was written -/
  | wrote (es : List Event) (r : Reg) (w : Word) (hw : WritesReg s r w) (hr : s.inReset = false)
      (h : writeReg r w (withReply .written (withInputs es s)) = .next t)
  /-- another agent stored to memory -/
  | store (es : List Event) (a : Nat) (bs : List Byte) (hin : s.inputs = .memStore a bs :: es)
      (h : t = drawSpans (lateStores s a bs.length)
        { s with
          mem := writeBytes s.mem a bs
          raced := s.raced || storeRaces s a bs.length
          reply := .written
          inputs := es })
  /-- another agent loaded from memory -/
  | load (es : List Event) (a n : Nat) (hin : s.inputs = .memLoad a n :: es)
      (h : t = drawSpans (lateLoads s a n)
        { s with
          reply := .bytes (loadBytes s a n s.draws).1
          draws := (loadBytes s a n s.draws).2
          raced := s.raced || loadRaces s a n
          inputs := es })
  /-- nothing of the block changed but TBL_ADDR, by a read; some ends may have been observed -/
  | quiet (ta : TblAddr) (d : Nat) (es : List Event) (rp : Reply) (us : List Ended)
      (hu : us ⊆ s.unobserved)
      (h : t = { s with tblAddr := ta, draws := d, inputs := es, reply := rp, unobserved := us })
  /-- reset was released -/
  | release (es : List Event) (h : t = { s with inputs := es, inReset := false })
  /-- the memory agent's answers changed -/
  | remap (es : List Event) (map : List Region) (h : t = { s with inputs := es, busMap := map })

theorem portAccess_withInputs (s : State) (es : List Event) (addr : Addr) (w : AccessWidth) :
    portAccess (withInputs es s) addr w = portAccess s addr w := rfl

/-- What a step can do. -/
theorem step_outcome {s t : State} (h : step s = .next t) : StepOutcome s t := by
  cases hin : s.inputs with
  | nil =>
    rw [step_nil hin] at h
    have hs : withInputs [] s = s := by
      cases s
      simp only at hin
      subst hin
      rfl
    have ho := unitMove_outcome h
    refine .unit [] (.inl hin) ?_
    rw [hs]
    exact ho
  | cons e es =>
    rw [step_cons hin] at h
    cases e with
    | portWrite addr width w =>
      simp only [event, portWrite, portAccess_withInputs] at h
      split at h
      · injection h with h
        exact .quiet s.tblAddr s.draws es s.reply _ (fun _ h => h) h.symm
      · split at h
        · cases h
        · injection h with h
          exact .quiet s.tblAddr s.draws es _ _ (fun _ h => h) h.symm
      · rename_i r hp
        split at h
        · cases h
        · rename_i hr
          have hw : width = .w32 := by
            unfold portAccess at hp
            split at hp
            · cases hp
            · split at hp
              · rename_i hc
                exact hc.1
              · cases hp
          subst hw
          exact .wrote es r w ⟨addr, es, hin, hp⟩ (by simpa [withInputs] using hr) h
    | portRead addr width =>
      simp only [event, portRead, portAccess_withInputs] at h
      split at h
      · injection h with h
        exact .quiet s.tblAddr s.draws es s.reply _ (fun _ h => h) h.symm
      · split at h
        · cases h
        · injection h with h
          exact .quiet s.tblAddr s.draws es _ _ (fun _ h => h) h.symm
      · rename_i r hp
        split at h
        · cases h
        · injection h with h
          obtain ⟨ta, d, hf⟩ := readReg_frame r (withInputs es s)
          obtain ⟨us, hu, hl⟩ := learn_frame r (readReg r (withInputs es s)).2
          rw [hl, hf] at h
          rw [hf] at hu
          exact .quiet ta d es _ us hu h.symm
    | poll addr mask value =>
      simp only [event, pollOnce, portAccess_withInputs] at h
      split at h
      · injection h with h
        exact .quiet s.tblAddr s.draws es s.reply _ (fun _ h => h) h.symm
      · split at h
        · cases h
        · injection h with h
          exact .quiet s.tblAddr s.draws es _ _ (fun _ h => h) h.symm
      · rename_i r hp
        obtain ⟨ta, d, hf⟩ := readReg_frame r (withInputs es s)
        obtain ⟨us, hu, hl⟩ := learn_frame r (readReg r (withInputs es s)).2
        rw [hf] at hu
        split at h
        · cases h
        · split at h
          · injection h with h
            rw [hl, hf] at h
            exact .quiet ta d es _ us hu h.symm
          · injection h with h
            rw [hl, hf] at h
            exact .quiet ta d _ _ us hu h.symm
    | memStore a bs =>
      simp only [event, memStore] at h
      split at h
      · cases h
      · split at h
        · cases h
        · injection h with h
          exact .store es a bs hin h.symm
    | memLoad a n =>
      simp only [event, memLoad] at h
      split at h
      · cases h
      · split at h
        · cases h
        · injection h with h
          refine .load es a n hin ?_
          rw [← h]
          have hl : ∀ n a d, loadBytes (withInputs es s) a n d = loadBytes s a n d := by
            intro n
            induction n with
            | zero => intro a d; rfl
            | succ n ih => intro a d; simp only [loadBytes, ih]; rfl
          simp only [hl]
          rfl
    | fence =>
      simp only [event] at h
      injection h with h
      exact .quiet s.tblAddr s.draws es s.reply _ (fun _ h => h) h.symm
    | irqTaken =>
      simp only [event] at h
      injection h with h
      obtain ⟨us, hu, ho⟩ := takeIrq_frame (withInputs es s)
      rw [ho] at h
      exact .quiet s.tblAddr s.draws es s.reply us hu h.symm
    | unitTurn =>
      simp only [event] at h
      exact .unit es (.inr ⟨es, hin⟩) (unitMove_outcome h)
    | resetAssert =>
      simp only [event] at h
      injection h with h
      exact .reset es hin h.symm
    | resetRelease =>
      simp only [event] at h
      injection h with h
      exact .release es h.symm
    | remap map =>
      simp only [event] at h
      injection h with h
      exact .remap es map h.symm

end Sys2Proof.Machine
end

