-- ==== Sys2Proof/Laws/Unit.lean ====
section
/-! SUPPORT. The geometry of a running command: what the invariant says of its chunks, and the values a chunk stores. -/

namespace Sys2Proof.Machine

open Sys2Proof.Config

/-- A legal chunk width is even and not 0 (00_scope.md R6, 40_commands.md R142). -/
theorem chunkWidth_even {p : Params} (h : p.widthsLegal = true) (e : Engine) :
    chunkWidth p e % 2 = 0 ∧ 0 < chunkWidth p e := by
  have key : ∀ lo vw, 2 ≤ lo → vwLegal lo vw = true → vw % 2 = 0 ∧ 0 < vw := by
    intro lo vw hlo h
    simp only [vwLegal, List.any_eq_true, List.mem_range, Bool.and_eq_true, beq_iff_eq, decide_eq_true_eq] at h
    obtain ⟨e, he, rfl, h⟩ := h
    cases e with
    | zero => omega
    | succ e => rw [Nat.pow_succ]; exact ⟨by omega, by have := Nat.two_pow_pos e; omega⟩
  simp only [Params.widthsLegal, Bool.and_eq_true] at h
  cases e
  · exact ⟨by simp [chunkWidth], by simp [chunkWidth]⟩
  · exact key 4 _ (by omega) h.1.1.1.1
  · exact key 4 _ (by omega) h.1.1.1.2
  · exact key 2 _ (by omega) h.1.2
  · exact key 2 _ (by omega) h.1.1.2

/-- What the invariant says of a running command. -/
structure Geometry (s : State) : Prop where
  vwEven : s.latched.vw % 2 = 0
  vwPos : 0 < s.latched.vw
  lenEven : s.latched.len.toNat % 2 = 0
  kLe : s.k ≤ s.latched.len.toNat
  kBound : s.k % s.latched.vw = 0 ∨ s.k = s.latched.len.toNat
  inside : s.latched.len.toNat = 0 ∨
    (s.latched.src.toNat + s.latched.len.toNat ≤ 2 ^ s.params.aw ∧
      s.latched.dst.toNat + s.latched.len.toNat ≤ 2 ^ s.params.aw)
  apart : s.latched.src = s.latched.dst ∨
    rangesMeet s.latched.src.toNat s.latched.len.toNat s.latched.dst.toNat s.latched.len.toNat = false
  engine : present s.params s.latched.eng = true
  last : s.status.lastEngine = s.latched.eng.code
  derived : derivedReady s = true
  noReset : s.inReset = false

theorem geometry {s : State} (hi : Inv s) (hb : s.status.busy = true) : Geometry s := by
  have hr := hi.running hb
  simp only [runningLegal, latchedLegal, progressLegal, Bool.and_eq_true, Bool.or_eq_true, beq_iff_eq,
    decide_eq_true_eq, Bool.not_eq_true'] at hr
  obtain ⟨⟨⟨⟨⟨⟨⟨⟨h1, h2⟩, h3⟩, h4⟩, h5⟩, h6⟩, h7, h8⟩, h9⟩, h10⟩ := hr
  have hl := hi.legal
  simp only [Params.legal, Bool.and_eq_true] at hl
  have hv := chunkWidth_even hl.2 s.latched.eng
  rw [← h5] at hv
  exact ⟨hv.1, hv.2, h1, h7, h8, h2, h3, h4, h9, h6, h10⟩

/-- A chunk before the end of the region is even, not empty, inside the region, and starts at a chunk boundary
(40_commands.md R142). -/
theorem Geometry.chunk {s : State} (g : Geometry s) (hk : s.k < s.latched.len.toNat) :
    s.k % 2 = 0 ∧ chunkLen s % 2 = 0 ∧ 0 < chunkLen s ∧ s.k + chunkLen s ≤ s.latched.len.toNat ∧
      s.k % s.latched.vw = 0 := by
  have hkv : s.k % s.latched.vw = 0 := by rcases g.kBound with h | h; exact h; omega
  have hk2 : s.k % 2 = 0 := by
    have h1 : 2 ∣ s.latched.vw := Nat.dvd_of_mod_eq_zero g.vwEven
    exact Nat.mod_eq_zero_of_dvd (h1.trans (Nat.dvd_of_mod_eq_zero hkv))
  have := g.lenEven
  have := g.vwEven
  have := g.vwPos
  refine ⟨hk2, ?_, ?_, ?_, hkv⟩ <;> unfold chunkLen <;> omega

/-- The elements of the chunk at K are partial where the chunk is (40_commands.md R138, R142). -/
theorem Geometry.partialAt_eq {s : State} (g : Geometry s) (hk : s.k < s.latched.len.toNat) {o : Nat} (h1 : s.k ≤ o)
    (h2 : o < s.k + chunkLen s) : partialAt s o = chunkPartial s := by
  obtain ⟨_, _, hpos, hle, hkv⟩ := g.chunk hk
  have hvp := g.vwPos
  obtain ⟨q, hq⟩ := Nat.dvd_of_mod_eq_zero hkv
  unfold partialAt chunkPartial
  congr 1
  apply propext
  have hcl : chunkLen s = min s.latched.vw (s.latched.len.toNat - s.k) := rfl
  generalize chunkLen s = c at *
  generalize s.latched.vw = v at *
  generalize s.latched.len.toNat = L at *
  have e1 : (q + 1) * v = v * q + v := by ring
  have e0 : q * v = v * q := by ring
  constructor
  · intro h
    by_contra hc
    have hq1 : q + 1 ≤ L / v := by
      rw [Nat.le_div_iff_mul_le hvp]
      omega
    have : (q + 1) * v ≤ L / v * v := Nat.mul_le_mul_right _ hq1
    omega
  · intro h
    have hq1 : L / v < q + 1 := by
      rw [Nat.div_lt_iff_lt_mul hvp]; omega
    have : L / v * v ≤ q * v := Nat.mul_le_mul_right _ (by omega)
    omega

/-! ## What the unit reads -/

/-- The low byte of two joined. -/
theorem extract_append_lo (h l : Byte) : (h ++ l : BitVec 16).extractLsb' 0 8 = l := by
  refine BitVec.eq_of_getLsbD_eq fun i hi => ?_
  rw [BitVec.getLsbD_extractLsb', BitVec.getLsbD_append]
  simp [hi]

/-- The high byte of two joined. -/
theorem extract_append_hi (h l : Byte) : (h ++ l : BitVec 16).extractLsb' 8 8 = h := by
  refine BitVec.eq_of_getLsbD_eq fun i hi => ?_
  rw [BitVec.getLsbD_extractLsb', BitVec.getLsbD_append]
  simp [hi]

/-- What the unit reads of a byte (20_memory.md R83, 70_reset_and_hazards.md R346). -/
theorem unitByte_reads (s : State) (a d : Nat) :
    d ≤ (unitByte s a d).2 ∧
      ∀ d0 e, d0 ≤ d → (unitByte s a d).2 ≤ e → UnitReads s d0 e a (unitByte s a d).1 := by
  unfold unitByte
  split
  · rename_i h
    refine ⟨Nat.le_succ _, fun d0 e h1 h2 => ⟨fun _ => ⟨d, h1, h2, rfl⟩, fun hn => ?_⟩⟩
    obtain ⟨p, hp, hx⟩ := (lateByte_iff s a).1 h
    exact absurd hx (hn p hp)
  · rename_i h
    exact ⟨le_refl _, fun d0 e _ _ => ⟨fun hn => absurd ((lateByte_iff s a).2 hn) h, fun _ => rfl⟩⟩

/-- What the unit reads of an element, byte by byte (20_memory.md R72). -/
theorem unitElem_reads (s : State) (a d : Nat) :
    d ≤ (unitElem s a d).2 ∧
      ∀ d0 e, d0 ≤ d → (unitElem s a d).2 ≤ e →
        UnitReads s d0 e a ((unitElem s a d).1.extractLsb' 0 8) ∧
          UnitReads s d0 e (a + 1) ((unitElem s a d).1.extractLsb' 8 8) := by
  have h1 := unitByte_reads s a d
  have h2 := unitByte_reads s (a + 1) (unitByte s a d).2
  refine ⟨le_trans h1.1 h2.1, fun d0 e hd he => ?_⟩
  simp only [unitElem, extract_append_lo, extract_append_hi]
  exact ⟨h1.2 d0 e hd (le_trans h2.1 he), h2.2 d0 e (le_trans hd h1.1) he⟩

/-- No element takes a draw back. -/
theorem elemValue_le (s : State) (o d : Nat) : d ≤ (elemValue s o d).2 := by
  have h (c : Bool) (a d : Nat) : d ≤ (if c then unitElem s a d else ((0 : Elem), d)).2 := by
    split
    · exact (unitElem_reads _ _ _).1
    · exact le_refl _
  exact le_trans (le_trans (h _ _ _) (h _ _ _)) (prod_le _ _ _ _ _ _)

/-- Where a command cannot race with an ended one, the unit reads memory as it stands. -/
theorem unitElem_eq {s : State} {a : Nat} (h : ∀ x, a ≤ x → x < a + 2 → ∀ p ∈ endedSpans s, ¬ InDst p x) (d : Nat) :
    unitElem s a d = (readElem s.mem a, d) := by
  have hl : ∀ x, a ≤ x → x < a + 2 → lateByte s x = false := fun x h1 h2 =>
    Bool.eq_false_iff.2 fun hc => by
      obtain ⟨p, hp, hx⟩ := (lateByte_iff s x).1 hc
      exact h x h1 h2 p hp hx
  simp [unitElem, unitByte, readElem, hl a (by omega) (by omega), hl (a + 1) (by omega) (by omega)]

/-- The bytes of a command that cannot race with an ended one (70_reset_and_hazards.md R346). -/
theorem NoLateRace.source {s : State} {l : Latched} (h : NoLateRace s l) (h0 : l.scalar ≠ 0) {x : Nat}
    (hx : InSrc (latchedSpan l) x) : ∀ p ∈ endedSpans s, ¬ InDst p x :=
  fun p hp hd => h p hp (.inl ⟨h0, x, hx, hd⟩)

theorem NoLateRace.target {s : State} {l : Latched} (h : NoLateRace s l) (hw : WritesMemory l) {x : Nat}
    (hx : InDst (latchedSpan l) x) : ∀ p ∈ endedSpans s, ¬ InDst p x :=
  fun p hp hd => h p hp (.inr ⟨hw, x, hx, .inr hd⟩)

/-- Where no free value is drawn, an element's new value is `latchedResult` (40_commands.md R137). -/
theorem elemValue_eq {s : State} (g : Geometry s) (hk : s.k < s.latched.len.toNat) (h : NoFreeProducts s)
    (hn : NoLateRace s s.latched) (hw : WritesMemory s.latched) {o : Nat} (ho : o ∈ chunkOffsets s) (d : Nat) :
    elemValue s o d =
      (latchedResult s (readElem s.mem (s.latched.src.toNat + o)) (readElem s.mem (s.latched.dst.toNat + o))
        (chunkPartial s), d) := by
  obtain ⟨hk2, _, _, hle, _⟩ := g.chunk hk
  simp only [chunkOffsets, List.mem_map, List.mem_range] at ho
  obtain ⟨j, hj, rfl⟩ := ho
  unfold elemValue
  by_cases h0 : s.latched.scalar = 0
  · cases hm : s.latched.mode
    · simp [latchedResult, latchedProduct, prod, readsSource, readsDest, hm, h0]
    · exact absurd ⟨h0, hm⟩ hw
  · have hr : readsSource s.latched = true := by simp [readsSource]; exact h0
    have hs := unitElem_eq (s := s) (a := s.latched.src.toNat + (s.k + 2 * j))
      (fun x h1 h2 => hn.source h0 ⟨by simp only [latchedSpan]; omega, by simp only [latchedSpan]; omega⟩)
    have ht := unitElem_eq (s := s) (a := s.latched.dst.toNat + (s.k + 2 * j))
      (fun x h1 h2 => hn.target hw ⟨by simp only [latchedSpan]; omega, by simp only [latchedSpan]; omega⟩)
    have hp := h (s.k + 2 * j) (by omega) (by omega) (by omega)
    rw [g.partialAt_eq hk (by omega) (by omega)] at hp
    simp only [hr, if_true, hs, ht, latchedResult, latchedProduct]
    cases hm : s.latched.mode
    · simp [readsDest, hm, prod_fixed hp d]
    · have hd : readsDest s.latched = true := by simp [readsDest, hm]; exact h0
      simp [hd, prod_fixed hp d]

/-- The values of a chunk that draws no free value (40_commands.md R146). -/
theorem chunkValues_eq {s : State} (g : Geometry s) (hk : s.k < s.latched.len.toNat) (h : NoFreeProducts s)
    (hn : NoLateRace s s.latched) (hw : WritesMemory s.latched) :
    chunkValues s =
      ((chunkOffsets s).map fun o =>
        latchedResult s (readElem s.mem (s.latched.src.toNat + o)) (readElem s.mem (s.latched.dst.toNat + o))
          (chunkPartial s), s.draws) := by
  unfold chunkValues
  exact mapDraw_pure _ _ fun o ho d => elemValue_eq g hk h hn hw ho d

/-- Such a chunk draws nothing, whether it writes or not. -/
theorem chunkValues_draws {s : State} (g : Geometry s) (hk : s.k < s.latched.len.toNat) (h : NoFreeProducts s)
    (hn : NoLateRace s s.latched) : (chunkValues s).2 = s.draws := by
  by_cases hw : WritesMemory s.latched
  · rw [chunkValues_eq g hk h hn hw]
  · have h0 : s.latched.scalar = 0 ∧ s.latched.mode = .accumulate := Classical.not_not.1 hw
    have he : ∀ o d, elemValue s o d = (0, d) := fun o d => by
      simp [elemValue, readsSource, readsDest, prod, h0.1]
    unfold chunkValues
    rw [mapDraw_pure _ _ fun o _ d => he o d]

@[simp] theorem length_chunkValues (s : State) : (chunkValues s).1.length = chunkLen s / 2 := by
  simp [chunkValues, chunkOffsets]

/-- The accesses of the chunk at K are accesses of the command from K on (20_memory.md R75, 40_commands.md R146). -/
theorem ChunkAccesses.command {s : State} (g : Geometry s) (hk : s.k < s.latched.len.toNat) {wr : Bool} {x : Nat}
    (h : ChunkAccesses s wr x) : CommandAccesses s.latched s.k wr x := by
  obtain ⟨_, _, _, hle, _⟩ := g.chunk hk
  have hoff : ∀ b : Nat, ∀ a ∈ (chunkOffsets s).map (b + ·), b + s.k ≤ a ∧ a + 2 ≤ b + s.latched.len.toNat := by
    intro b a ha
    simp only [chunkOffsets, List.mem_map, List.mem_range] at ha
    obtain ⟨_, ⟨j, hj, rfl⟩, rfl⟩ := ha
    omega
  cases wr <;> obtain ⟨a, ha, h1, h2⟩ := h
  · simp only [chunkReads, List.mem_append] at ha
    rcases ha with ha | ha <;> split at ha
    · rename_i hr
      have := hoff _ a ha
      exact ⟨by simpa [readsSource] using hr,
        .inl ⟨by omega, by simp only [latchedSpan]; omega, by simp only [latchedSpan]; omega⟩⟩
    · cases ha
    · rename_i hr
      simp only [readsDest, Bool.and_eq_true, bne_iff_ne, beq_iff_eq] at hr
      have := hoff _ a ha
      exact ⟨hr.2, .inr ⟨hr.1, by omega, by simp only [latchedSpan]; omega, by simp only [latchedSpan]; omega⟩⟩
    · cases ha
  · simp only [chunkWrites] at ha
    split at ha
    · rename_i hw
      have := hoff _ a ha
      exact ⟨(writesDest_iff _).1 hw, by omega, by simp only [latchedSpan]; omega, by simp only [latchedSpan]; omega⟩
    · cases ha

/-- The accesses of a command from a later offset are among those from an earlier one. -/
theorem CommandAccesses.mono {l : Latched} {k k' : Nat} (hk : k ≤ k') {wr : Bool} {x : Nat}
    (h : CommandAccesses l k' wr x) : CommandAccesses l k wr x := by
  cases wr
  · obtain ⟨h0, h | ⟨hm, h⟩⟩ := h
    · exact ⟨h0, .inl ⟨by omega, h.2⟩⟩
    · exact ⟨h0, .inr ⟨hm, by omega, h.2⟩⟩
  · exact ⟨h.1, by have := h.2.1; omega, h.2.2⟩

/-- What an access of the chunk touches, the command's accesses touch (20_memory.md R75). -/
theorem ChunkTouches.command {s : State} {p : Span} (g : Geometry s) (hk : s.k < s.latched.len.toNat)
    (h : ChunkTouches p s) : CommandTouches p s.latched := by
  obtain ⟨_, _, _, hle, _⟩ := g.chunk hk
  have hoff : ∀ b : Nat, ∀ a ∈ (chunkOffsets s).map (b + ·), b ≤ a ∧ a + 2 ≤ b + s.latched.len.toNat := by
    intro b a ha
    simp only [chunkOffsets, List.mem_map, List.mem_range] at ha
    obtain ⟨_, ⟨j, hj, rfl⟩, rfl⟩ := ha
    omega
  have hdst : ∀ a ∈ (chunkOffsets s).map (s.latched.dst.toNat + ·), ∀ x, a ≤ x → x < a + 2 →
      InDst (latchedSpan s.latched) x := fun a ha x h1 h2 => by
    have := hoff _ a ha
    exact ⟨by simp only [latchedSpan]; omega, by simp only [latchedSpan]; omega⟩
  rcases h with ⟨a, ha, x, h1, h2, hx⟩ | ⟨a, ha, x, h1, h2, hx⟩
  · simp only [chunkReads, List.mem_append] at ha
    rcases ha with ha | ha <;> split at ha
    · rename_i hr
      have := hoff _ a ha
      exact .inl ⟨by simpa [readsSource] using hr, x,
        ⟨by simp only [latchedSpan]; omega, by simp only [latchedSpan]; omega⟩, hx⟩
    · cases ha
    · rename_i hr
      simp only [readsDest, Bool.and_eq_true, bne_iff_ne] at hr
      exact .inr ⟨fun hc => hr.2 hc.1, x, hdst a ha x h1 h2, .inr hx⟩
    · cases ha
  · simp only [chunkWrites] at ha
    split at ha
    · rename_i hw
      exact .inr ⟨(writesDest_iff _).1 hw, x, hdst a ha x h1 h2, hx⟩
    · cases ha

/-- A command that cannot race with an ended one draws no destination but its own (70_reset_and_hazards.md R346). -/
theorem lateAccesses_nil {s : State} (g : Geometry s) (hk : s.k < s.latched.len.toNat) (h : NoLateRace s s.latched) :
    lateReads s = [] ∧ lateAccesses s = [] := by
  constructor <;> refine List.eq_nil_iff_forall_not_mem.2 fun p hp => ?_
  · obtain ⟨hp, ht⟩ := mem_lateReads.1 hp
    exact h p hp (ChunkTouches.command g hk (.inl ht))
  · obtain ⟨hp, ht⟩ := mem_lateAccesses.1 hp
    exact h p hp (ChunkTouches.command g hk ht)

/-- The accesses of a chunk stay below 2^P_AW (20_memory.md R71). -/
theorem Geometry.access_inside {s : State} (g : Geometry s) (hk : s.k < s.latched.len.toNat) :
    ∀ a ∈ chunkReads s ++ chunkWrites s, a + 2 ≤ 2 ^ s.params.aw := by
  intro a ha
  obtain ⟨_, _, hpos, hle, hkv⟩ := g.chunk hk
  have hoff : ∀ o ∈ chunkOffsets s, o + 2 ≤ s.latched.len.toNat := by
    intro o ho
    simp only [chunkOffsets, List.mem_map, List.mem_range] at ho
    obtain ⟨j, hj, rfl⟩ := ho
    omega
  have hin := g.inside
  have hs : ∀ a ∈ (chunkOffsets s).map (s.latched.src.toNat + ·), a + 2 ≤ 2 ^ s.params.aw := by
    intro a ha
    obtain ⟨o, ho, rfl⟩ := List.mem_map.1 ha
    have := hoff o ho
    omega
  have hd : ∀ a ∈ (chunkOffsets s).map (s.latched.dst.toNat + ·), a + 2 ≤ 2 ^ s.params.aw := by
    intro a ha
    obtain ⟨o, ho, rfl⟩ := List.mem_map.1 ha
    have := hoff o ho
    omega
  simp only [chunkReads, chunkWrites, List.mem_append] at ha
  rcases ha with (ha | ha) | ha <;> split at ha
  all_goals first
    | exact hs a ha
    | exact hd a ha
    | simp at ha

end Sys2Proof.Machine
end

