-- ==== Sys2Proof/Tests/Slice0.lean ====
section
/-! SUPPORT. Tests: words and values of spec/, and for each statement with hypotheses a concrete state that meets them. -/

namespace Sys2Proof.Tests

-- One proof after the other, so that the kernel checks that wait do not each hold a thread.
set_option Elab.async false

open Sys2Proof Sys2Proof.Machine Sys2Proof.Config

/-! ## Decoding (30_encoding.md R101 and the table of its section 4; each word is written out from its fields) -/

/-- OP 0 and OP 3, all other bits clear (R102). -/
theorem test_decode_nop_sel : decode 0x00000000 = .ok .nop ∧ decode 0x00000003 = .ok .sel := by decide

/-- OP 1, MODE 0, ENG 0 to 5 in bits 10:8, GRAN in bit 12. -/
theorem test_decode_mulr_assign :
    decode 0x00000001 = .ok (.mulrAsgAuto .nibble) ∧ decode 0x00001101 = .ok (.mulrAsgLog .byte) ∧
      decode 0x00000201 = .ok (.mulrAsgShufn .nibble) ∧ decode 0x00001301 = .ok (.mulrAsgShufw .byte) ∧
      decode 0x00000401 = .ok (.mulrAsgClmul .nibble) ∧ decode 0x00001501 = .ok (.mulrAsgAffine .byte) := by decide

/-- OP 1, MODE 1 in bits 5:4. -/
theorem test_decode_mulr_accumulate :
    decode 0x00001011 = .ok (.mulrAccAuto .byte) ∧ decode 0x00000111 = .ok (.mulrAccLog .nibble) ∧
      decode 0x00001211 = .ok (.mulrAccShufn .byte) ∧ decode 0x00000311 = .ok (.mulrAccShufw .nibble) ∧
      decode 0x00001411 = .ok (.mulrAccClmul .byte) ∧ decode 0x00000511 = .ok (.mulrAccAffine .nibble) := by decide

/-- OP 2, MODE 0. -/
theorem test_decode_mule_assign :
    decode 0x00000002 = .ok (.muleAsgAuto .nibble) ∧ decode 0x00001102 = .ok (.muleAsgLog .byte) ∧
      decode 0x00000202 = .ok (.muleAsgShufn .nibble) ∧ decode 0x00001302 = .ok (.muleAsgShufw .byte) ∧
      decode 0x00000402 = .ok (.muleAsgClmul .nibble) ∧ decode 0x00001502 = .ok (.muleAsgAffine .byte) := by decide

/-- OP 2, MODE 1. -/
theorem test_decode_mule_accumulate :
    decode 0x00001012 = .ok (.muleAccAuto .byte) ∧ decode 0x00000112 = .ok (.muleAccLog .nibble) ∧
      decode 0x00001212 = .ok (.muleAccShufn .byte) ∧ decode 0x00000312 = .ok (.muleAccShufw .nibble) ∧
      decode 0x00001412 = .ok (.muleAccClmul .byte) ∧ decode 0x00000512 = .ok (.muleAccAffine .nibble) := by decide

/-- The rejected words of 95_test_vectors.md section 6.1. -/
theorem test_decode_rejects :
    decode 0x00000004 = .error .badOp ∧ decode 0x0000000F = .error .badOp ∧ decode 0x00000010 = .error .badOp ∧
      decode 0x00000103 = .error .badOp ∧ decode 0x00001003 = .error .badOp ∧ decode 0x00000021 = .error .badMode ∧
      decode 0x00000031 = .error .badMode ∧ decode 0x00000601 = .error .badEngine ∧
      decode 0x00000712 = .error .badEngine ∧ decode 0x00000041 = .error .badOp ∧ decode 0x00000801 = .error .badOp ∧
      decode 0x00002001 = .error .badOp ∧ decode 0x80000002 = .error .badOp ∧ decode 0x00000631 = .error .badMode ∧
      decode 0x00000441 = .error .badOp := by decide

/-- The opcode table's bits reach the decoder, and what is no 32-bit word does not. -/
theorem test_decodeTableWord :
    decodeTableWord 32 0x00001311 = some (.mulrAccShufw .byte) ∧ decodeTableWord 32 0x00000041 = none ∧
      decodeBytes [0x12, 0x05, 0x00] = none ∧
      decodeBytes [0x12, 0x05, 0x00, 0x00] = some (.ok (.muleAccAffine .nibble)) := by decide

/-- The spellings of 30_encoding.md R110. -/
theorem test_spellings :
    spellings (.mulrAccShufw .byte) = ["MULR.ACC.SHUFW.B8"] ∧ spellings (.muleAsgClmul .byte) = [] ∧
      spellings (.muleAsgAuto .nibble) = ["MULE.ASG.AUTO", "MULE.ASG.AUTO.N4"] := by decide

/-! ## Well-formedness: one ill-formed term for each check -/

theorem smoke_fields_op : CmdFields.wf ⟨4, 0, 0, 0⟩ = false := by decide
theorem smoke_fields_nop_mode : CmdFields.wf ⟨0, 1, 0, 0⟩ = false := by decide
theorem smoke_fields_sel_eng : CmdFields.wf ⟨3, 0, 1, 0⟩ = false := by decide
theorem smoke_fields_sel_gran : CmdFields.wf ⟨3, 0, 0, 1⟩ = false := by decide
theorem smoke_fields_mode : CmdFields.wf ⟨1, 2, 0, 0⟩ = false := by decide
theorem smoke_fields_eng : CmdFields.wf ⟨2, 0, 6, 0⟩ = false := by decide
theorem smoke_spelling : (Instr.muleAsgLog .byte).spellable = false := by decide
theorem smoke_base : { Params.default with base := 0x80 }.baseAligned = false := by decide
theorem smoke_aw : { Params.default with aw := 31 }.awLegal = false := by decide
theorem smoke_monic : { Params.default with poly := 0x0100B }.polyMonic = false := by decide
theorem smoke_reducible : { Params.default with poly := 0x10001 }.polyIrreducible = false := by decide +kernel
theorem smoke_width : { Params.default with vwClmul := 24 }.widthsLegal = false := by decide
theorem smoke_wide_narrower : { Params.default with vwShufN := 32, vwShufW := 16 }.widthsLegal = false := by decide
theorem smoke_default_legal : Params.default.legal = true := by decide +kernel

/-! ## Field arithmetic (95_test_vectors.md sections 3 and 5) -/

theorem test_clmul16 : clmul16 0x1234 0x5678 = 0x05C58160 ∧ clmul16 0x8000 0x8000 = 0x40000000 := by decide +kernel
theorem test_gfmul : gfmul testPoly 0x1234 0x5678 = 0x6324 ∧ gfmul testPoly 0x8000 0x8000 = 0x8EFA := by decide +kernel
theorem test_xtime : xtime testPoly 0x8000 = 0x100B ∧ xtime testPoly 0xFFFF = 0xEFF5 := by decide +kernel
theorem test_fAff : fAff (buildAM testPoly 0x1234) 0x5678 = 0x6324 := by decide +kernel
theorem test_amBit : amBit (buildAM testPoly 3) 15 15 = true ∧ amBit (buildAM testPoly 3) 14 15 = false := by decide +kernel

/-! ## Small states -/

/-- The state after a step that answers one. -/
def after (r : Result) : State :=
  match r with
  | .next t => t
  | _ => State.reset

/-- Whether a step answers a next state. -/
def goesOn (r : Result) : Bool :=
  match r with
  | .next _ => true
  | _ => false

theorem eq_next {r : Result} (h : goesOn r = true) : r = .next (after r) := by
  cases r <;> first | rfl | cases h

/-- The table entries of 95_test_vectors.md sections 2, 4 and 6.7 behind 300 times 3: LOG of 300, 3, 0xC, 0x20,
0x100 and 0x2C, and EXP of each sum modulo 65535. -/
def entries : State :=
  { State.reset with
    logTbl := (((((Table.empty.write 300 22082).write 3 49594).write 0xC 49596).write 0x20 5).write 0x100 8).write 0x2C 1785
    expTbl := ((((Table.empty.write 6141 0x374).write 33655 0x14).write 49599 0x60).write 49602 0x300).write 51379 0x74
    opnd := 300, scalar := 3 }

/-- RESULT after a command. -/
def resultOf (i : Instr) (s : State) : Elem := (after (exec i s)).result

/-- STATUS after a command, as a word. -/
def statusOf (i : Instr) (s : State) : Word := (after (exec i s)).status.word

/-! ## NOP, SEL and MULE (40_commands.md R134, R135; 95_test_vectors.md sections 6.2 and 6.6) -/

theorem test_nop : statusOf .nop State.reset = 0x2 := by decide
theorem test_sel : statusOf .sel { State.reset with len := 2 } = 0x5002 := by decide

/-- SEL on CAP = 0x0F with THRESH = 64: the comparison is strict, and SLOW_WIDE rules SHUF_W out. -/
theorem test_sel_policy :
    let s := { State.reset with params := { Params.default with hasAffine := false }, thresh := 64 }
    statusOf .sel { s with len := 64 } = 0x4002 ∧ statusOf .sel { s with len := 66 } = 0x3002 ∧
      statusOf .sel { s with len := 66, ctrl := { s.ctrl with slowWide := true } } = 0x2002 := by decide

theorem test_mule_assign :
    resultOf (.muleAsgLog .nibble) entries = 0x374 ∧ resultOf (.muleAsgShufn .nibble) entries = 0x374 ∧
      resultOf (.muleAsgShufw .byte) entries = 0x374 ∧ resultOf (.muleAsgClmul .nibble) entries = 0x374 ∧
      resultOf (.muleAsgAffine .nibble) entries = 0x374 ∧ resultOf (.muleAsgAuto .nibble) entries = 0x374 := by
  decide +kernel

/-- The same with RESULT = 0x1374 before: 0x1374 XOR 0x0374 = 0x1000. -/
theorem test_mule_accumulate :
    let s := { entries with result := 0x1374 }
    resultOf (.muleAccLog .nibble) s = 0x1000 ∧ resultOf (.muleAccShufn .byte) s = 0x1000 ∧
      resultOf (.muleAccShufw .nibble) s = 0x1000 ∧ resultOf (.muleAccClmul .nibble) s = 0x1000 ∧
      resultOf (.muleAccAffine .byte) s = 0x1000 ∧ resultOf (.muleAccAuto .nibble) s = 0x1000 := by decide +kernel

theorem test_mule_status :
    statusOf (.muleAsgLog .nibble) entries = 0x1002 ∧ statusOf (.muleAsgShufn .nibble) entries = 0x2002 ∧
      statusOf (.muleAsgShufw .byte) entries = 0x3002 ∧ statusOf (.muleAsgClmul .nibble) entries = 0x4002 ∧
      statusOf (.muleAsgAffine .nibble) entries = 0x5002 ∧ statusOf (.muleAsgAuto .nibble) entries = 0x5002 := by
  decide +kernel

/-! ## MULR acceptance (95_test_vectors.md section 6.3) -/

/-- The base setup of section 6.3 with a length. -/
def setup (len : Word) : State := { entries with src := 0x1000, dst := 0x2000, len := len }

theorem test_mulr_accepted :
    statusOf (.mulrAsgLog .nibble) (setup 8) = 0x1001 ∧ statusOf (.mulrAsgShufn .nibble) (setup 8) = 0x2001 ∧
      statusOf (.mulrAsgShufw .byte) (setup 8) = 0x3001 ∧ statusOf (.mulrAsgClmul .nibble) (setup 8) = 0x4001 ∧
      statusOf (.mulrAsgAffine .nibble) (setup 8) = 0x5001 ∧ statusOf (.mulrAsgAuto .nibble) (setup 8) = 0x5001 ∧
      statusOf (.mulrAccLog .nibble) { setup 8 with dst := 0x1000 } = 0x1001 ∧
      statusOf (.mulrAccShufn .nibble) { setup 8 with dst := 0x1008 } = 0x2001 ∧
      statusOf (.mulrAccShufw .nibble) { setup 0 with dst := 0x1002 } = 0x3001 ∧
      statusOf (.mulrAccClmul .nibble) { setup 4 with src := 0xFFFFFFFFFFFFFFFC } = 0x4001 ∧
      statusOf (.mulrAccAffine .byte) (setup 0) = 0x5001 ∧ statusOf (.mulrAccAuto .byte) (setup 2) = 0x5001 := by
  decide +kernel

theorem test_mulr_rejected :
    statusOf (.mulrAsgLog .nibble) (setup 1025) = 0x1504 ∧ statusOf (.mulrAsgAuto .nibble) (setup 1025) = 0x5504 ∧
      statusOf (.mulrAsgShufw .nibble)
        { setup 3 with params := { Params.default with hasShufW := false } } = 0x0404 ∧
      statusOf (.mulrAsgClmul .nibble) { setup 6 with src := 0xFFFFFFFFFFFFFFFC } = 0x4604 ∧
      statusOf (.mulrAsgClmul .nibble)
        { setup 4 with params := { Params.default with aw := 32 }, dst := 0xFFFFFFFE } = 0x4604 ∧
      statusOf (.mulrAsgLog .nibble) { setup 8 with dst := 0x1002 } = 0x1704 := by decide +kernel

/-! ## The unit's steps (95_test_vectors.md sections 1, 6.4, 6.5) -/

/-- A command that has just been accepted, with the given memory. -/
def running (m : Mode) (e : Engine) (g : Gran) (len : Word) (scalar : Elem) (mem : Memory) : State :=
  after (mulrAccept m (.named e) g { setup len with scalar := scalar, mem := mem })

/-- The source elements [1, 2, 0, 300] at 0x1000, and [0x1111, 0x2222] at 0x2000. -/
def sourceMem : Memory :=
  [(0x1000, 1), (0x1002, 2), (0x1006, 0x2C), (0x1007, 1), (0x2000, 0x11), (0x2001, 0x11), (0x2002, 0x22), (0x2003, 0x22)]

/-- The bytes 0x2000 to 0x2007 after one step of the unit. -/
def dstAfter (s : State) : List Byte := readBytes (after (unitStep s)).mem 0x2000 8

/-- The source's worked example: 03 00 06 00 00 00 74 03; AFFINE and CLMUL take it as one chunk. -/
theorem test_chunk_assign :
    dstAfter (running .assign .clmul .nibble 8 3 sourceMem) = [3, 0, 6, 0, 0, 0, 0x74, 3] ∧
      dstAfter (running .assign .affine .nibble 8 3 sourceMem) = [3, 0, 6, 0, 0, 0, 0x74, 3] := by decide +kernel

theorem test_chunk_accumulate :
    dstAfter (running .accumulate .clmul .nibble 8 3 sourceMem) = [0x12, 0x11, 0x24, 0x22, 0, 0, 0x74, 3] := by
  decide +kernel

/-- The scalar 0 in ASSIGN zero-fills; in ACCUMULATE it changes nothing. -/
theorem test_chunk_zero :
    dstAfter (running .assign .log .nibble 2 0 sourceMem) = [0, 0, 0x22, 0x22, 0, 0, 0, 0] ∧
      dstAfter (running .accumulate .log .nibble 2 0 sourceMem) = [0x11, 0x11, 0x22, 0x22, 0, 0, 0, 0] := by
  decide +kernel

/-- Zero length: the first unit step completes (40_commands.md R145). -/
theorem test_complete :
    (after (unitStep (running .assign .log .nibble 0 3 []))).status.word = 0x1002 := by decide +kernel

/-! ## The register port (95_test_vectors.md section 6.8) -/

/-- A register's value. -/
def value (r : Reg) (s : State) : Word := (readReg r s).1

theorem test_reset_values :
    value .cap State.reset = 0x1F ∧ value .poly State.reset = 0x1100B ∧ value .status State.reset = 0 ∧
      value .ctrl State.reset = 0 ∧ value .thresh State.reset = 0 ∧ value .result State.reset = 0 := by decide

theorem test_offsets :
    regAt 0x000 = .cap ∧ regAt 0x00C = .status ∧ regAt 0x024 = .len ∧ regAt 0x034 = .cmd ∧ regAt 0x044 = .tblData ∧
      regAt 0x048 = .reserved ∧ regAt 0x0FC = .reserved ∧ Reg.offset .faultLo = 0x038 := by decide

theorem test_status_w1c :
    let s : State := { State.reset with status := ⟨false, true, true, true, 4, 3⟩ }
    value .status s = 0x340E ∧ value .status (after (writeReg .status 0x2 s)) = 0x340C ∧
      value .status (after (writeReg .status 0xFFFFFFFF s)) = 0x3400 := by decide

theorem test_tbl_data_wrap :
    let s := after (writeReg .tblData 0x1234 (after (writeReg .tblAddr 0x0000FFFF State.reset)))
    s.logTbl.read 0xFFFF = some 0x1234 ∧ value .tblAddr s = 0 ∧
      value .tblAddr (after (writeReg .tblData 1 (after (writeReg .tblAddr 0x0001FFFF s)))) = 0x00010000 := by
  decide +kernel

theorem test_irq :
    let s := after (exec .nop { State.reset with ctrl := ⟨true, false, false⟩ })
    s.irq = true ∧ (after (writeReg .ctrl 0 s)).irq = false ∧ (after (writeReg .status 2 s)).irq = false ∧
      s.irqRequest = some Params.default.irqRoute := by decide

theorem test_scalar_reserved : value .scalar (after (writeReg .scalar 0xFFFF1234 State.reset)) = 0x1234 := by decide

/-- A word placed by the host is the next command that runs. -/
theorem test_withFetchWord :
    (after (step (State.reset.withFetchWord 32 0x00000003))).status.word = 0x5002 := by decide +kernel

/-! ## Witnesses: for each statement with hypotheses, a state and operands that meet them -/

/-! ### Encoding and the CMD write -/

theorem witness_DecodedWordIsTheCommandsOnlyWord : decode 0x00001402 = .ok (.muleAsgClmul .byte) := by decide

/-- One word for each clause, at the ends of its range: OP 4 and 15; NOP and SEL with and without another bit; a
must-be-zero bit of MULR and MULE; MODE 2; ENG 6; MODE 1 with ENG 5. -/
theorem witness_DecodeVerdictFollowsTheFieldChecks :
    (4 ≤ (0x4 : Word).toNat % 16) ∧ (4 ≤ (0xF : Word).toNat % 16) ∧
    ((0x10 : Word).toNat % 16 = 0 ∧ (0x10 : Word).toNat / 16 ≠ 0) ∧
    ((0x0 : Word).toNat % 16 = 0 ∧ (0x0 : Word).toNat / 16 = 0) ∧
    ((0x80000003 : Word).toNat % 16 = 3 ∧ (0x80000003 : Word).toNat / 16 ≠ 0) ∧
    ((0x3 : Word).toNat % 16 = 3 ∧ (0x3 : Word).toNat / 16 = 0) ∧
    ((0x41 : Word).toNat % 16 = 1 ∧ (0x41 : Word).toNat / 64 % 4 ≠ 0) ∧
    ((0x802 : Word).toNat % 16 = 2 ∧ (0x802 : Word).toNat / 2048 % 2 ≠ 0) ∧
    ((0x2001 : Word).toNat % 16 = 1 ∧ (0x2001 : Word).toNat / 8192 ≠ 0) ∧
    ((0x22 : Word).toNat / 64 = 0 ∧ (0x22 : Word).toNat / 16 % 4 = 2) ∧
    ((0x611 : Word).toNat / 16 % 4 = 1 ∧ (0x611 : Word).toNat / 256 % 8 = 6) ∧
    ((0x1511 : Word).toNat / 64 % 4 = 0 ∧ (0x1511 : Word).toNat / 2048 % 2 = 0 ∧ (0x1511 : Word).toNat / 8192 = 0 ∧
      (0x1511 : Word).toNat / 16 % 4 = 1 ∧ (0x1511 : Word).toNat / 256 % 8 = 5) ∧
    ((0x2 : Word).toNat % 16 = 2 ∧ (0x2 : Word).toNat / 16 = 0) := by decide

/-- A host write of w to register r is the next event. -/
def writing (r : Reg) (w : Word) (s : State) : State := { s with inputs := [.portWrite (regAddr s.params r) .w32 w] }

/-- With no end unobserved, and with one. -/
theorem witness_StepRunsTheDecodedCommand :
    ∀ us ∈ [[], [(⟨⟨0x1000, 0x2000, 2⟩, true⟩ : Ended)]], ∃ (s : State) (w : Word) (i : Instr) (es : List Event), Ready s ∧
      s.inputs = .portWrite (regAddr s.params .cmd) .w32 w :: es ∧ decode w = .ok i ∧ s.unobserved = us := by
  intro us _
  exact ⟨writing .cmd 0x401 { State.reset with unobserved := us }, 0x401, .mulrAsgClmul .nibble, [], ⟨rfl, rfl⟩, rfl,
    by decide, rfl⟩

theorem witness_IllegalWordTakesItsError :
    ∀ e : DecodeError, ∃ (s : State) (w : Word) (es : List Event), Ready s ∧
      s.inputs = .portWrite (regAddr s.params .cmd) .w32 w :: es ∧ decode w = .error e := by
  intro e
  cases e
  · exact ⟨writing .cmd 0x441 State.reset, 0x441, [], ⟨rfl, rfl⟩, rfl, by decide⟩
  · exact ⟨writing .cmd 0x631 State.reset, 0x631, [], ⟨rfl, rfl⟩, rfl, by decide⟩
  · exact ⟨writing .cmd 0x712 State.reset, 0x712, [], ⟨rfl, rfl⟩, rfl, by decide⟩

/-- The status of a block that runs a command of engine e. -/
def busyStatus (e : Engine) : Status := ⟨true, false, false, false, 0, e.code⟩

/-- A running command, its fields given: on the default parameters, from 0x1000 to 0x2000, scalar 3. -/
def busyState (m : Mode) (e : Engine) (len : Word) (k : Nat) : State :=
  { State.reset with
    status := busyStatus e
    latched := ⟨0x1000, 0x2000, len, 3, m, e, .nibble, chunkWidth Params.default e⟩
    am := buildAM Params.default.poly 3
    k := k }

theorem witness_BusyBlockDropsCommandAndTableWrites :
    ∀ r ∈ [Reg.cmd, Reg.tblData], ∃ (s : State) (w : Word) (es : List Event),
      s.status.busy = true ∧ s.inReset = false ∧ s.inputs = .portWrite (regAddr s.params r) .w32 w :: es := by
  intro r _
  exact ⟨writing r 0 (busyState .assign .clmul 8 0), 0, [], rfl, rfl, rfl⟩

theorem witness_OtherWritesLeaveTheRunningCommandAlone : Reg.tblAddr ≠ .cmd ∧ Reg.tblAddr ≠ .tblData := by decide

/-! ### The dispatcher -/

/-- Parameters with no affine engine. -/
def noAffine : Params := { Params.default with hasAffine := false }

/-- One state for each step of the policy, THRESH = 64: at LEN = 66 and, where the comparison fails, LEN = 64. -/
theorem witness_SelectionFollowsThePriorityOrder :
    let s : State := { State.reset with thresh := 64 }
    let t : State := { s with params := noAffine }
    s.params.hasAffine = true ∧
      (t.params.hasAffine = false ∧ t.params.hasShufW = true ∧ t.thresh.toNat < (66 : Word).toNat ∧
        t.ctrl.slowWide = false) ∧
      (t.params.hasShufN = true ∧ ¬ t.thresh.toNat < (64 : Word).toNat ∧ t.params.hasClmul = true) ∧
      ((Ctrl.ofWord 4).slowWide = true ∧ t.thresh.toNat < (65 : Word).toNat) ∧
      { noAffine with hasClmul := false }.hasClmul = false := by decide

theorem witness_SelectionIsAPresentEngineOfItsInputs :
    ∃ (s t : State) (_ : Word), (∀ e, present t.params e = present s.params e) ∧ t.thresh = s.thresh ∧
      t.ctrl.slowWide = s.ctrl.slowWide ∧ t ≠ s :=
  ⟨State.reset, { State.reset with scalar := 5 }, 64, fun _ => rfl, rfl, rfl, by decide⟩

theorem witness_NamedAbsentEngineIsAnError : present noAffine .affine = false := by decide

/-! ### MULE -/

/-- A state with the tables of 95_test_vectors.md section 2. -/
def tabled : State := { State.reset with logTbl := testLog, expTbl := testExp }

theorem tabled_consistent : TablesConsistent tabled.params.poly tabled.logTbl tabled.expTbl := testTables_consistent

theorem tabled_loaded : TablesLoaded tabled := by
  constructor
  · intro i _
    show testLog.read i ≠ none
    rw [testLog, read_ofFn]
    exact Option.some_ne_none _
  · intro i _
    show testExp.read i ≠ none
    rw [testExp, read_ofFn]
    exact Option.some_ne_none _

theorem witness_MuleClmulGivesTheFieldProduct : State.reset.params.hasClmul = true := by decide

theorem witness_MuleAffineGivesTheFieldProduct :
    State.reset.params.hasAffine = true ∧ State.reset.params.polyMonic = true := by decide

/-- The scalars 0 and 1, the operand 0, entries that are all written, and each entry unwritten in turn. -/
theorem witness_MuleLogReadsTheTablesAsTheyStand :
    ({ entries with scalar := 0 }.scalar = 0) ∧ ({ entries with scalar := 1 }.scalar = 1) ∧
      (entries.scalar ≠ 0 ∧ entries.scalar ≠ 1 ∧ { entries with opnd := 0 }.opnd = 0) ∧
      (entries.opnd ≠ 0 ∧ entries.logTbl.read 300 = some 22082 ∧ entries.logTbl.read 3 = some 49594 ∧
        entries.expTbl.read (BitVec.ofNat 16 ((22082 + 49594) % 65535)) = some 0x374) ∧
      (entries.logTbl.read 301 = none ∧ State.reset.logTbl.read 3 = none ∧
        State.reset.expTbl.read (BitVec.ofNat 16 ((22082 + 49594) % 65535)) = none) := by decide +kernel

theorem witness_MuleShuffleCombinesPartialProducts :
    present tabled.params .shufN = true ∧ present tabled.params .shufW = true ∧
      ({ tabled with scalar := 0 }.scalar = 0) ∧ ({ tabled with scalar := 1 }.scalar = 1) ∧
      ({ tabled with scalar := 2 }.scalar ≠ 0 ∧ { tabled with scalar := 2 }.scalar ≠ 1 ∧
        TablesLoaded { tabled with scalar := 2 }) :=
  ⟨rfl, rfl, rfl, rfl, (by decide : (2 : Elem) ≠ 0), (by decide : (2 : Elem) ≠ 1), tabled_loaded⟩

/-! ### MULR acceptance -/

theorem legal_setup (len : Word) (he : len.toNat % 2 = 0) (hl : len.toNat ≤ 0x1000) :
    LenEven (setup len) ∧ InAddressSpace (setup len) ∧ NoPartialOverlap (setup len) := by
  refine ⟨he, .inr ⟨?_, ?_⟩, .inr (.inr (.inl ?_))⟩
  · show 0x1000 + len.toNat ≤ 2 ^ 64
    omega
  · show 0x2000 + len.toNat ≤ 2 ^ 64
    omega
  · show 0x1000 + len.toNat ≤ 0x2000
    omega

/-- Every engine is present, and the regions at 0x1000 and 0x2000 touch at LEN = 0x1000. -/
theorem witness_MulrWithLegalOperandsIsAccepted :
    (∀ e, present (setup 0x1000).params e = true) ∧ LenEven (setup 0x1000) ∧ InAddressSpace (setup 0x1000) ∧
      NoPartialOverlap (setup 0x1000) :=
  ⟨fun e => by cases e <;> rfl, legal_setup 0x1000 (by decide) (by decide)⟩

theorem witness_MulrAutoIsAcceptedOnTheSelectedEngine :
    LenEven (setup 0) ∧ InAddressSpace (setup 0) ∧ NoPartialOverlap (setup 0) :=
  legal_setup 0 (by decide) (by decide)

/-- The scalar 0, the scalar 2 with each engine, and loaded tables for the shuffle engines. -/
theorem witness_AcceptanceBuildsTheDerivedState :
    ∃ s : State, (∀ e, present s.params e = true) ∧ LenEven s ∧ InAddressSpace s ∧ NoPartialOverlap s ∧
      s.scalar ≠ 0 ∧ s.scalar ≠ 1 ∧ TablesLoaded s :=
  ⟨{ tabled with scalar := 2 }, fun e => by cases e <;> rfl, rfl, .inl rfl, .inl rfl, (by decide : (2 : Elem) ≠ 0),
    (by decide : (2 : Elem) ≠ 1), tabled_loaded⟩

/-- AUTO, whose choice is AFFINE there, and a named engine; an odd length; an even one that runs one byte pair past
2^64; regions that share two bytes. -/
theorem witness_MulrWithIllegalOperandsIsRejectedInOrder :
    ((Engine.affine = select (setup 1) (setup 1).len) ∧ present (setup 1).params .log = true ∧ ¬ LenEven (setup 1)) ∧
      (LenEven { setup 4 with src := 0xFFFFFFFFFFFFFFFE } ∧
        ¬ InAddressSpace { setup 4 with src := 0xFFFFFFFFFFFFFFFE }) ∧
      (LenEven { setup 8 with dst := 0x1006 } ∧ InAddressSpace { setup 8 with dst := 0x1006 } ∧
        ¬ NoPartialOverlap { setup 8 with dst := 0x1006 }) := by
  unfold LenEven InAddressSpace NoPartialOverlap
  decide

/-! ### Field arithmetic -/

theorem witness_ReductionIsTheUniqueRemainder :
    testPoly.getLsbD 16 = true ∧ (0x00010000 : BitVec 32) = polyMultiple testPoly 1 ^^^ (0x100B : Elem).setWidth 32 := by
  decide +kernel

theorem witness_FieldProductLaws : testPoly.getLsbD 16 = true := by decide

theorem witness_AffineMatrixGivesTheFieldProduct : testPoly.getLsbD 16 = true ∧ 15 < 16 := by decide

theorem witness_ConsistentTablesGiveTheFieldProduct :
    ∃ (poly : BitVec 17) (logT expT : Table), poly.getLsbD 16 = true ∧ TablesConsistent poly logT expT :=
  ⟨testPoly, testLog, testExp, by decide, testTables_consistent⟩

theorem witness_ShuffleOnConsistentTablesGivesTheFieldProduct :
    ∃ s : State, s.params.polyMonic = true ∧ TablesConsistent s.params.poly s.logTbl s.expTbl :=
  ⟨tabled, rfl, tabled_consistent⟩

/-- For each engine loaded tables; for AFFINE and CLMUL with any scalar, and for each engine with the scalars 0 and 1,
tables nothing has written. -/
theorem witness_EveryEngineGivesTheFieldProduct :
    (∃ s : State, s.params.polyMonic = true ∧ ∀ e a, ConsistentWhereRead s e a) ∧
      (∀ e a, e = Engine.affine ∨ e = .clmul ∨ a = (0 : Elem) ∨ a = 1 → ConsistentWhereRead State.reset e a) ∧
      ∀ g, ∃ s : State, s.latched.gran = g :=
  ⟨⟨tabled, rfl, fun _ _ _ _ _ => tabled_consistent⟩, fun e a h he h0 h1 => by
      rcases h with rfl | rfl | rfl | rfl
      · rcases he with he | he | he <;> cases he
      · rcases he with he | he | he <;> cases he
      · exact absurd rfl h0
      · exact absurd rfl h1,
    fun g => ⟨{ State.reset with latched := ⟨0, 0, 0, 0, .assign, .shufN, g, 16⟩ }, rfl⟩⟩

theorem witness_MuleIsTheSameOnEveryEngine :
    (∃ s : State, s.params.polyMonic = true ∧ ∀ e, ConsistentWhereRead s e s.scalar ∧ present s.params e = true) ∧
      ∀ e, ConsistentWhereRead State.reset e State.reset.scalar :=
  ⟨⟨tabled, rfl, fun e => ⟨fun _ _ _ => tabled_consistent, by cases e <;> rfl⟩⟩, fun _ _ h => absurd rfl h⟩

/-! ### Running commands -/

theorem inv_reset : Inv State.reset := by constructor <;> decide +kernel

theorem inv_tabled : Inv tabled where
  legal := inv_reset.legal
  memory := rfl
  logTable := wf_ofFn dlog 16 0
  expTable := wf_ofFn _ 16 0
  src := inv_reset.src
  dst := inv_reset.dst
  fault := inv_reset.fault
  errCode := inv_reset.errCode
  lastEngine := inv_reset.lastEngine
  raced := fun h => by cases h
  running := fun h => by cases h

theorem inv_busy {s : State} (hs : s = { State.reset with
      status := s.status, latched := s.latched, am := s.am, k := s.k, busMap := s.busMap, inputs := s.inputs
      raced := s.raced })
    (hb : s.status.busy = true) (hc : s.status.errCode.toNat ≤ 8) (hl : s.status.lastEngine.toNat ≤ 5)
    (hr : runningLegal s = true) : Inv s := by
  have hp : s.params = Params.default := by rw [hs]; rfl
  refine ⟨?_, ?_, ?_, ?_, ?_, ?_, ?_, hc, hl, fun _ => hb, fun _ => hr⟩
  · rw [hp]
    exact inv_reset.legal
  all_goals rw [hs]
  · exact inv_reset.memory
  · exact inv_reset.logTable
  · exact inv_reset.expTable
  · exact inv_reset.src
  · exact inv_reset.dst
  · exact inv_reset.fault

/-- A CLMUL command over 34 bytes at its first, full chunk; and at its last, partial one. -/
theorem inv_first : Inv (busyState .accumulate .clmul 34 0) :=
  inv_busy rfl rfl (by decide) (by decide) (by decide +kernel)

theorem inv_last : Inv (busyState .accumulate .clmul 34 32) :=
  inv_busy rfl rfl (by decide) (by decide) (by decide +kernel)

/-- A chunk each byte of whose element accesses is answered with ok. -/
theorem answered_chunk {s : State}
    (h : (∀ a ∈ chunkReads s, byteAnswer s false a = .ok ∧ byteAnswer s false (a + 1) = .ok) ∧
      ∀ a ∈ chunkWrites s, byteAnswer s true a = .ok ∧ byteAnswer s true (a + 1) = .ok) :
    AllAnswered s (ChunkAccesses s) := by
  have two {a x : Nat} (h1 : a ≤ x) (h2 : x < a + 2) : x = a ∨ x = a + 1 := by omega
  rintro (_ | _) x ⟨a, ha, h1, h2⟩ <;> rcases two h1 h2 with rfl | rfl
  · exact (h.1 _ ha).1
  · exact (h.1 _ ha).2
  · exact (h.2 _ ha).1
  · exact (h.2 _ ha).2

/-- A command each byte of whose regions is answered with ok, the source only where the scalar is not 0. -/
theorem answered_command {s : State} {l : Latched} {k : Nat}
    (hs : l.scalar ≠ 0 → ∀ j < l.len.toNat, byteAnswer s false (l.src.toNat + j) = .ok)
    (hd : ∀ wr, ∀ j < l.len.toNat, byteAnswer s wr (l.dst.toNat + j) = .ok) :
    AllAnswered s (CommandAccesses l k) := by
  have off {b x n : Nat} (h1 : b ≤ x) (h2 : x < b + n) : ∃ j < n, x = b + j := ⟨x - b, by omega, by omega⟩
  rintro (_ | _) x h
  · obtain ⟨h0, ⟨_, h1, h2⟩ | ⟨_, _, h1, h2⟩⟩ := h <;> obtain ⟨j, hj, rfl⟩ := off h1 h2
    · exact hs h0 j hj
    · exact hd false j hj
  · obtain ⟨_, _, h1, h2⟩ := h
    obtain ⟨j, hj, rfl⟩ := off h1 h2
    exact hd true j hj

/-- Where the platform does not map the window into memory, no access is on it. -/
theorem off_of {s : State} {acc : Bool → Nat → Prop} (h : s.params.windowInMemory = false) : OffWindow s acc :=
  fun _ _ _ hw => by rw [hw.1] at h; cases h

theorem rangeOff_of {s : State} {a n : Nat} (h : s.params.windowInMemory = false) : RangeOffWindow s a n :=
  fun _ _ _ hw => by rw [hw.1] at h; cases h

/-- With no end unobserved, no command races with an ended one. -/
theorem noLateRace_of {s : State} {l : Latched} (h : s.unobserved = []) : NoLateRace s l := by
  simp [NoLateRace, endedSpans, h]

/-- An ended command whose destination ends where the source of a running one begins, and whose source begins where its
destination ends, does not race with it. -/
theorem witness_NoLateRace_beside_an_ended_command :
    ∃ s : State, s.unobserved ≠ [] ∧ NoLateRace s s.latched :=
  ⟨{ busyState .accumulate .clmul 34 0 with unobserved := [⟨⟨0x2022, 0xFDE, 34⟩, false⟩] }, by decide, by
    have h : ∀ l : Latched, l.src = 0x1000 → l.dst = 0x2000 → l.len = 34 →
        ¬ CommandTouches ⟨0x2022, 0xFDE, 34⟩ l := by
      intro l h1 h2 h3 h
      simp only [CommandTouches, InSrc, InDst, latchedSpan, h1, h2, h3, show (0x1000 : Addr).toNat = 0x1000 from rfl,
        show (0x2000 : Addr).toNat = 0x2000 from rfl, show (0x2022 : Addr).toNat = 0x2022 from rfl,
        show (0xFDE : Addr).toNat = 0xFDE from rfl, show (34 : Word).toNat = 34 from rfl] at h
      rcases h with ⟨_, x, h⟩ | ⟨_, x, h⟩ <;> omega
    intro p hp
    simp only [endedSpans, List.map_cons, List.map_nil, List.mem_singleton] at hp
    subst hp
    exact h _ rfl rfl rfl⟩

/-- A command of the given engine with the scalar 1 on unwritten tables: it reads no table (40_commands.md R140). -/
def shortCircuited (e : Engine) (len : Word) : State :=
  { busyState .assign e len 0 with latched := ⟨0x1000, 0x2000, len, 1, .assign, e, .nibble, chunkWidth Params.default e⟩ }

theorem inv_shortCircuited (e : Engine) : Inv (shortCircuited e 34) := by
  cases e <;> exact inv_busy rfl rfl (by decide) (by decide) (by decide +kernel)

/-- A platform that backs the two regions of a command over 34 bytes, and its window beside them, and no other address. -/
def lonely : State :=
  { busyState .accumulate .clmul 34 0 with
    params := { Params.default with base := 0x2100, windowInMemory := true }
    busMap := [⟨0x1000, 34, .ok, .ok⟩, ⟨0x2000, 34, .ok, .ok⟩, ⟨0, 2 ^ 64, .error, .error⟩] }

/-- The scalar 0 in ASSIGN, its source unmapped (40_commands.md R140). -/
def unmappedSource : State :=
  { busyState .assign .clmul 34 0 with
    latched := ⟨0x1000, 0x2000, 34, 0, .assign, .clmul, .nibble, 16⟩
    busMap := [⟨0x1000, 34, .error, .error⟩] }

theorem inv_lonely : Inv lonely := by constructor <;> decide +kernel

theorem inv_unmappedSource : Inv unmappedSource := inv_busy rfl rfl (by decide) (by decide) (by decide +kernel)

theorem lonely_off {k : Nat} : OffWindow lonely (CommandAccesses lonely.latched k) := by
  rintro (_ | _) x h ⟨_, h1, h2⟩ <;>
    simp only [CommandAccesses, InSrc, InDst, latchedSpan, show lonely.latched.src.toNat = 0x1000 from rfl,
      show lonely.latched.dst.toNat = 0x2000 from rfl, show lonely.latched.len.toNat = 34 from rfl,
      show lonely.params.base.toNat = 0x2100 from rfl] at h h1 h2 <;> omega

theorem lonely_answered {k : Nat} : AllAnswered lonely (CommandAccesses lonely.latched k) :=
  answered_command (fun _ => by decide +kernel) (by decide +kernel)

/-- A full and a partial chunk; the scalar 1 on unwritten tables, on each engine; a first chunk of a region whose last
chunk is not backed (95_test_vectors.md P5), in one whose platform backs nothing else, and the scalar 0 with its source
unmapped. -/
theorem witness_ChunkStepWritesEveryResult :
    ∃ s u : State, (Inv s ∧ s.status.busy = true ∧ s.k < s.latched.len.toNat ∧ OffWindow s (ChunkAccesses s) ∧
        AllAnswered s (ChunkAccesses s) ∧ NoFreeProducts s ∧ NoLateRace s s.latched ∧ partialAt s s.k = false ∧
        byteAnswer s false 0x1020 = .error) ∧
      (Inv u ∧ u.status.busy = true ∧ u.k < u.latched.len.toNat ∧ OffWindow u (ChunkAccesses u) ∧
        AllAnswered u (ChunkAccesses u) ∧ NoFreeProducts u ∧ NoLateRace u u.latched ∧ partialAt u u.k = true) ∧
      (∀ e, ∃ v : State, Inv v ∧ v.status.busy = true ∧ v.k < v.latched.len.toNat ∧ OffWindow v (ChunkAccesses v) ∧
        AllAnswered v (ChunkAccesses v) ∧ NoFreeProducts v ∧ NoLateRace v v.latched ∧ v.latched.eng = e ∧
        ∀ i, v.logTbl.read i = none) ∧
      ∀ v ∈ [lonely, unmappedSource], Inv v ∧ v.status.busy = true ∧ v.k < v.latched.len.toNat ∧
        OffWindow v (ChunkAccesses v) ∧ AllAnswered v (ChunkAccesses v) ∧ NoFreeProducts v ∧ NoLateRace v v.latched := by
  refine ⟨{ busyState .accumulate .clmul 34 0 with busMap := [⟨0x1020, 2, .error, .error⟩] },
    busyState .accumulate .clmul 34 32,
    ⟨inv_busy rfl rfl (by decide) (by decide) (by decide +kernel), rfl, by decide, off_of rfl,
      answered_chunk (by decide +kernel), noFreeProducts_of_engine (.inr rfl), noLateRace_of rfl, by decide,
      by decide +kernel⟩,
    ⟨inv_last, rfl, by decide, off_of rfl, answered_chunk (by decide +kernel), noFreeProducts_of_engine (.inr rfl),
      noLateRace_of rfl, by decide⟩,
    fun e => ⟨shortCircuited e 34, inv_shortCircuited e, rfl, (by decide : 0 < (34 : Word).toNat), off_of rfl,
      answered_chunk (by cases e <;> decide +kernel), noFreeProducts_of_shortCircuit (.inr rfl), noLateRace_of rfl, rfl,
      Table.read_empty⟩, ?_⟩
  intro v hv
  rcases List.mem_pair.1 hv with rfl | rfl
  · exact ⟨inv_lonely, rfl, by decide,
      fun wr x h => lonely_off wr x (ChunkAccesses.command (geometry inv_lonely rfl) (by decide) h),
      answered_chunk (by decide +kernel), noFreeProducts_of_engine (.inr rfl), noLateRace_of rfl⟩
  · exact ⟨inv_unmappedSource, rfl, by decide, off_of rfl, answered_chunk (by decide +kernel),
      noFreeProducts_of_engine (.inr rfl), noLateRace_of rfl⟩

/-- The scalar 0 in each mode, and a scalar that is not 0 in each mode. -/
theorem witness_ChunkAccessesStayInTheirRegions :
    ∀ (m : Mode) (a : Elem), a = 0 ∨ a = 3 →
      ∃ s : State, Inv s ∧ s.status.busy = true ∧ s.latched.scalar = a ∧ s.latched.mode = m := by
  intro m a ha
  refine ⟨{ busyState m .clmul 34 32 with latched := ⟨0x1000, 0x2000, 34, a, m, .clmul, .nibble, 16⟩ }, ?_, rfl, rfl, rfl⟩
  cases m <;> rcases ha with rfl | rfl <;> exact inv_busy rfl rfl (by decide) (by decide) (by decide +kernel)

theorem witness_CompletionSetsDone :
    (busyState .assign .log 2 2).k = (busyState .assign .log 2 2).latched.len.toNat ∧
      (busyState .assign .log 2 2).raced = false := by decide

/-- A LOG command whose source element, and one whose destination element, is answered with a bus error. -/
def readFaulting : State := { busyState .assign .log 2 0 with busMap := [⟨0x1000, 2, .error, .error⟩] }

def writeFaulting : State := { busyState .assign .clmul 2 0 with busMap := [⟨0x2001, 1, .ok, .error⟩] }

theorem noneSilent_of {s : State} {acc : Bool → Nat → Prop}
    (h : ∀ r ∈ s.busMap, r.read ≠ .silent ∧ r.write ≠ .silent) : NoneSilent s acc := by
  intro wr a _
  unfold byteAnswer
  split
  · simp
  · split
    · rename_i r hf
      have := h r (List.mem_of_find?_eq_some hf)
      cases wr
      · exact this.1
      · exact this.2
    · simp

theorem inv_readFaulting : Inv readFaulting := inv_busy rfl rfl (by decide) (by decide) (by decide +kernel)

theorem inv_writeFaulting : Inv writeFaulting := inv_busy rfl rfl (by decide) (by decide) (by decide +kernel)

theorem witness_FaultingReadEndsTheCommand :
    ∃ s : State, Inv s ∧ s.status.busy = true ∧ s.k < s.latched.len.toNat ∧ s.raced = false ∧
      OffWindow s (ChunkAccesses s) ∧ (∀ x, ChunkAccesses s false x → byteAnswer s false x ≠ .silent) ∧
      (∃ a ∈ chunkReads s, elemFaults s false a = true) :=
  ⟨readFaulting, inv_readFaulting, rfl, by decide, rfl, off_of rfl,
    noneSilent_of (acc := ChunkAccesses readFaulting) (by simp [readFaulting]) false, 0x1000, by decide, by decide +kernel⟩

theorem witness_FaultingWriteTearsOnlyItsChunk :
    ∃ s : State, Inv s ∧ s.status.busy = true ∧ s.k < s.latched.len.toNat ∧ s.raced = false ∧
      OffWindow s (ChunkAccesses s) ∧ NoneSilent s (ChunkAccesses s) ∧ NoFreeProducts s ∧ NoLateRace s s.latched ∧
      (∀ a ∈ chunkReads s, elemFaults s false a = false) ∧
      (∃ a ∈ chunkWrites s, elemFaults s true a = true) :=
  ⟨writeFaulting, inv_writeFaulting, rfl, by decide, rfl, off_of rfl,
    noneSilent_of (by simp [writeFaulting]), noFreeProducts_of_engine (.inr rfl), noLateRace_of rfl,
    by decide +kernel, 0x2000, by decide, by decide +kernel⟩

theorem witness_RunningCommandEndsInBoundedSteps :
    ∃ s : State, Inv s ∧ s.status.busy = true ∧ s.inputs = [] ∧ OffWindow s (CommandAccesses s.latched s.k) ∧
      NoneSilent s (CommandAccesses s.latched s.k) :=
  ⟨readFaulting, inv_readFaulting, rfl, rfl, off_of rfl, noneSilent_of (by simp [readFaulting])⟩

/-- Over 34 bytes: the scalar 1 on unwritten tables with each engine; CLMUL on a platform that backs its regions alone,
the mapped window beside them; and the scalar 0 with its source unmapped. -/
theorem witness_CompletedRegionHoldsEveryResult :
    (∀ e, ∃ s : State, Inv s ∧ s.status.busy = true ∧ s.k = 0 ∧ s.raced = false ∧ s.inputs = [] ∧
      OffWindow s (CommandAccesses s.latched 0) ∧ AllAnswered s (CommandAccesses s.latched 0) ∧ NoFreeProducts s ∧
      NoLateRace s s.latched ∧ s.latched.eng = e) ∧
    ∀ s ∈ [lonely, unmappedSource], Inv s ∧ s.status.busy = true ∧ s.k = 0 ∧ s.raced = false ∧ s.inputs = [] ∧
      OffWindow s (CommandAccesses s.latched 0) ∧ AllAnswered s (CommandAccesses s.latched 0) ∧ NoFreeProducts s ∧
      NoLateRace s s.latched ∧ s.latched.len.toNat = 34 := by
  refine ⟨fun e => ⟨shortCircuited e 34, inv_shortCircuited e, rfl, rfl, rfl, rfl, off_of rfl,
    answered_command (fun _ => by cases e <;> decide +kernel) (by cases e <;> decide +kernel),
    noFreeProducts_of_shortCircuit (.inr rfl), noLateRace_of rfl, rfl⟩, ?_⟩
  intro s hs
  rcases List.mem_pair.1 hs with rfl | rfl
  · exact ⟨inv_lonely, rfl, rfl, rfl, rfl, lonely_off, lonely_answered, noFreeProducts_of_engine (.inr rfl),
      noLateRace_of rfl, rfl⟩
  · exact ⟨inv_unmappedSource, rfl, rfl, rfl, rfl, off_of rfl,
      answered_command (fun h => absurd rfl h) (by decide +kernel), noFreeProducts_of_engine (.inr rfl),
      noLateRace_of rfl, rfl⟩

/-- Loaded tables, and a platform that backs the two regions over 34 bytes and no other address. -/
def backedRegions : State :=
  { tabled with
    len := 34, dst := 0x22, scalar := 3, busMap := [⟨0, 0x44, .ok, .ok⟩, ⟨0x44, 2 ^ 64 - 0x44, .error, .error⟩] }

theorem backedRegions_answer :
    (∀ j < backedRegions.len.toNat, byteAnswer backedRegions false (backedRegions.src.toNat + j) = .ok) ∧
      ∀ wr, ∀ j < backedRegions.len.toNat, byteAnswer backedRegions wr (backedRegions.dst.toNat + j) = .ok := by
  decide +kernel

theorem witness_RegionMultiplyGivesTheFieldProducts :
    ∃ s : State, Inv s ∧ Ready s ∧ s.inputs = [] ∧
      (∀ e, ConsistentWhereRead s e s.scalar) ∧ (∀ e, present s.params e = true) ∧ LenEven s ∧
      InAddressSpace s ∧ NoPartialOverlap s ∧ s.len = 34 ∧ byteAnswer s false 0x44 = .error ∧
      ∀ m e g, let l : Latched := ⟨s.src, s.dst, s.len, s.scalar, m, e, g, chunkWidth s.params e⟩
        OffWindow s (CommandAccesses l 0) ∧ AllAnswered s (CommandAccesses l 0) ∧ NoLateRace s l :=
  ⟨backedRegions,
    ⟨inv_tabled.legal, rfl, inv_tabled.logTable, inv_tabled.expTable, inv_tabled.src, by decide +kernel,
      inv_tabled.fault, inv_tabled.errCode, inv_tabled.lastEngine, inv_tabled.raced, inv_tabled.running⟩,
    ⟨rfl, rfl⟩, rfl, fun _ _ _ _ => tabled_consistent, fun e => by cases e <;> rfl, rfl,
    .inr ⟨by decide +kernel, by decide +kernel⟩, .inr (.inr (.inl (by decide +kernel))), rfl, by decide +kernel,
    fun _ _ _ => ⟨off_of rfl, answered_command (fun _ => backedRegions_answer.1) backedRegions_answer.2, noLateRace_of rfl⟩⟩

/-- AFFINE and CLMUL on tables nothing has written, and there too each engine with the scalar 1. -/
theorem witness_RegionMultiplyGivesTheFieldProducts_unread_tables :
    ∀ (e : Engine) (a : Elem), ((e = .affine ∨ e = .clmul) ∧ a = 3) ∨ a = 1 →
      ∃ s : State, Inv s ∧ Ready s ∧ s.inputs = [] ∧ ConsistentWhereRead s e s.scalar ∧ present s.params e = true ∧
        LenEven s ∧ InAddressSpace s ∧ NoPartialOverlap s ∧ s.len = 34 ∧ s.scalar = a ∧
        (∀ i, s.logTbl.read i = none) ∧
        ∀ m g, let l : Latched := ⟨s.src, s.dst, s.len, s.scalar, m, e, g, chunkWidth s.params e⟩
          OffWindow s (CommandAccesses l 0) ∧ AllAnswered s (CommandAccesses l 0) ∧ NoLateRace s l := by
  intro e a h
  refine ⟨{ State.reset with len := 34, dst := 0x22, scalar := a },
    ⟨inv_reset.legal, rfl, inv_reset.logTable, inv_reset.expTable, inv_reset.src, (by decide : (0x22 : Addr).toNat < 2 ^ 64),
      inv_reset.fault, inv_reset.errCode, inv_reset.lastEngine, inv_reset.raced, inv_reset.running⟩,
    ⟨rfl, rfl⟩, rfl, ?_, by cases e <;> rfl, (by decide : (34 : Word).toNat % 2 = 0),
    .inr ⟨(by decide : (0 : Addr).toNat + (34 : Word).toNat ≤ 2 ^ 64),
      (by decide : (0x22 : Addr).toNat + (34 : Word).toNat ≤ 2 ^ 64)⟩,
    .inr (.inr (.inl (by decide : (0 : Addr).toNat + (34 : Word).toNat ≤ (0x22 : Addr).toNat))), rfl, rfl, Table.read_empty, fun m g => ⟨off_of rfl, ?_, noLateRace_of rfl⟩⟩
  · intro he _ h1
    rcases h with ⟨rfl | rfl, _⟩ | rfl
    · rcases he with he | he | he <;> cases he
    · rcases he with he | he | he <;> cases he
    · exact absurd rfl h1
  · exact answered_command
      (fun _ => (by decide +kernel : ∀ j < 34, byteAnswer State.reset false (0 + j) = .ok))
      (by decide +kernel : ∀ wr, ∀ j < 34, byteAnswer State.reset wr (0x22 + j) = .ok)

/-! ### The register port -/

/-- P_AW at both ends of its range, addresses at their largest. -/
theorem witness_WrittenRegisterReadsBack :
    ∀ aw ∈ [32, 64], ∃ s : State, s.params.aw = aw ∧ s.params.awLegal = true ∧ s.src.toNat < 2 ^ s.params.aw ∧
      s.dst.toNat < 2 ^ s.params.aw ∧ s.src.toNat + 1 = 2 ^ aw ∧
      ∀ r ∈ [Reg.ctrl, .thresh, .srcLo, .srcHi, .dstLo, .dstHi, .len, .scalar, .opnd, .tblAddr],
        ∃ mask, implementedBits s.params r = some mask := by
  intro aw haw
  have : aw = 32 ∨ aw = 64 := by simpa using haw
  rcases this with rfl | rfl
  · refine ⟨{ State.reset with params := { Params.default with aw := 32 }, src := 0xFFFFFFFF }, rfl, rfl, by decide,
      by decide, by decide, fun r hr => ?_⟩
    cases r <;> first | exact ⟨_, rfl⟩ | (simp at hr)
  · refine ⟨{ State.reset with src := 0xFFFFFFFFFFFFFFFF }, rfl, rfl, by decide, by decide, by decide, fun r hr => ?_⟩
    cases r <;> first | exact ⟨_, rfl⟩ | (simp at hr)

/-- A write to and a read from the last register, and an access to the last reserved offset. -/
theorem witness_WrittenRegisterReadsBack_port :
    ∃ s t u : State, (s.inReset = false ∧ s.inputs = [.portWrite (s.params.base + BitVec.ofNat 64 0x044) .w32 5]) ∧
      (t.inReset = false ∧ t.inputs = [.portRead (t.params.base + BitVec.ofNat 64 0x00C) .w32] ∧ t.unobserved ≠ []) ∧
      (u.inReset = false ∧ u.inputs = [.portRead (u.params.base + BitVec.ofNat 64 0x0FC) .w32]) :=
  ⟨{ State.reset with inputs := [.portWrite 0x44 .w32 5] },
    { State.reset with inputs := [.portRead 0xC .w32], unobserved := [⟨⟨0, 0, 2⟩, true⟩] },
    { State.reset with inputs := [.portRead 0xFC .w32] }, ⟨rfl, rfl⟩, ⟨rfl, rfl, by decide⟩, ⟨rfl, rfl⟩⟩

theorem witness_ReadsHaveNoSideEffectsButTableData :
    Reg.status ≠ .tblData ∧ Reg.reserved ∈ [Reg.cap, .poly, .result, .faultLo, .faultHi, .reserved] ∧
      (0x48 ≤ 0x48 ∧ 0xFC < 0x100) := by decide

theorem witness_CapabilityAndPolynomialAreConstants :
    ∃ (s t : State), step s = .next t ∧ t ≠ s :=
  ⟨writing .thresh 5 State.reset, _, eq_next (by decide +kernel), by decide +kernel⟩

/-- The last entry of each table, written and not written. -/
theorem witness_TableDataPortReadsAndWritesEntries :
    State.reset.status.busy = false ∧ (busyState .assign .log 2 0).status.busy = true ∧
      ({ State.reset with tblAddr := ⟨65535, true⟩ }.selectedTable.read 65535 = none) ∧
      ((after (writeReg .tblData 7 { State.reset with tblAddr := ⟨65535, true⟩ })).expTbl.read 65535 = some 7) ∧
      ((after (writeReg .tblData 7 { State.reset with tblAddr := ⟨65535, false⟩ })).logTbl.read 65535 = some 7) := by
  decide +kernel

/-- A 16-bit read of the last word of the window, and a 32-bit write one byte off. -/
theorem witness_MalformedRegisterAccessChangesNothing :
    ∃ s u : State,
      (s.inReset = false ∧ ((0xFC : Addr) - s.params.base).toNat < 256 ∧ AccessWidth.w16 ≠ .w32 ∧
        s.inputs = [.portRead 0xFC .w16]) ∧
      (u.inReset = false ∧ ((0xD : Addr) - u.params.base).toNat < 256 ∧
        ((0xD : Addr) - u.params.base).toNat % 4 ≠ 0 ∧ u.inputs = [.portWrite 0xD .w32 0]) :=
  ⟨{ State.reset with inputs := [.portRead 0xFC .w16] }, { State.reset with inputs := [.portWrite 0xD .w32 0] },
    ⟨rfl, by decide, by decide, rfl⟩, ⟨rfl, by decide, by decide, rfl⟩⟩

/-! ### Rules of the whole machine -/

theorem witness_StatusBitsStaySetUntilCleared :
    ∃ s t : State, step s = .next t ∧ s.status.done = true ∧ t.status.done = false ∧ s.status.err = true ∧
      t.status.err = false ∧ s.status.ovr = true ∧ t.status.ovr = false :=
  ⟨writing .status 0xE { State.reset with status := ⟨false, true, true, true, 0, 0⟩ }, _, eq_next (by decide +kernel),
    rfl, by decide +kernel, rfl, by decide +kernel, rfl, by decide +kernel⟩

/-- A CMD write raises BUSY; the unit's last step clears it. -/
theorem witness_OnlyAcceptedMulrSetsBusyAndOnlyTheUnitClearsIt :
    (∃ s t : State, step s = .next t ∧ s.status.busy = false ∧ t.status.busy = true) ∧
      (∃ s t : State, step s = .next t ∧ s.status.busy = true ∧ t.status.busy = false) :=
  ⟨⟨writing .cmd 0x401 State.reset, _, eq_next (by decide +kernel), rfl, by decide +kernel⟩,
    ⟨busyState .assign .log 2 2, _, eq_next (by decide +kernel), rfl, by decide +kernel⟩⟩

theorem readFaulting_step : ∃ t, step readFaulting = .next t ∧ t.fault = 0x1000 := by
  have hf : phase readFaulting false (chunkReads readFaulting) readFaulting.draws = .faulted 0x1000 := by
    unfold phase
    rw [show (chunkReads readFaulting).filter (elemFaults readFaulting false) = [0x1000] by decide +kernel,
      show (chunkReads readFaulting).any (elemSilent readFaulting false) = false by decide +kernel]
    simp [Nat.mod_one]
  have hs : step readFaulting = unitStep readFaulting := by
    rw [step_nil rfl]
    rfl
  rw [hs]
  refine ⟨settleRace (busFault 0x1000 { readFaulting with draws := readFaulting.draws + 1 }), ?_, by decide +kernel⟩
  rw [unitStep, if_neg (by decide), chunkStep, if_neg (by decide +kernel), hf]
  rfl

/-- A MULE writes RESULT; a read fault writes FAULT. -/
theorem witness_ResultAndFaultHaveOneWriterEach :
    (∃ s t : State, step s = .next t ∧ t.result ≠ s.result) ∧ (∃ s t : State, step s = .next t ∧ t.fault ≠ s.fault) := by
  refine ⟨⟨writing .cmd 0x402 entries, _, eq_next (by decide +kernel), by decide +kernel⟩, readFaulting, ?_⟩
  obtain ⟨t, ht, hf⟩ := readFaulting_step
  refine ⟨t, ht, ?_⟩
  rw [hf]
  decide

/-- A write of the first LOG entry. -/
theorem witness_TablesChangeOnlyByAcceptedTableWrites :
    ∃ s t : State, step s = .next t ∧ (t.logTbl ≠ s.logTbl ∨ t.expTbl ≠ s.expTbl) :=
  ⟨writing .tblData 5 State.reset, _, eq_next (by decide +kernel), .inl (by decide +kernel)⟩

/-- A block whose last command, over 2 bytes from 0x1000 to 0x2000, has ended unobserved. -/
def ended : State := { setup 2 with unobserved := [⟨⟨0x1000, 0x2000, 2⟩, false⟩] }

/-- A running command that reads the destination of the ended one and writes elsewhere, the interrupt of the ended one
still high with IE_DONE = 1 alone. -/
def chaining : State :=
  { busyState .assign .clmul 4 0 with
    status := ⟨true, true, false, false, 0, 4⟩, ctrl := ⟨true, false, false⟩
    latched := ⟨0x2000, 0x3000, 4, 3, .assign, .clmul, .nibble, 16⟩, unobserved := [⟨⟨0x1000, 0x2000, 2⟩, true⟩]
    mem := [(0x2002, 1)] }

/-- Its chunk draws two bytes as read and two as left in memory (20_memory.md R83), and the element whose source is in no
other command's range is its product, 3 (40_commands.md R137); the command itself is not raced with. -/
theorem test_late_chunk :
    (after (step chaining)).draws = 4 ∧ (chunkValues chaining).1[1]? = some 3 ∧ (after (step chaining)).raced = false := by
  decide +kernel

/-- The interrupt that an end raised observes that end while a later command runs (20_memory.md R81); one that it did not
raise observes it with IE_DONE = IE_ERR = 1 only (70_reset_and_hazards.md R345). -/
theorem test_irq_observes :
    let s := { chaining with inputs := [.irqTaken] }
    let u : State := { s with unobserved := [⟨⟨0x1000, 0x2000, 2⟩, false⟩] }
    (after (step s)).unobserved = [] ∧ (after (step u)).unobserved = u.unobserved ∧
      (after (step { u with ctrl := ⟨true, true, false⟩ })).unobserved = [] := by decide +kernel

/-- An end raises the interrupt that was low; an acknowledgement lowers it (10_state.md R45). -/
theorem test_end_raises :
    let s := after (unitStep { busyState .assign .log 2 2 with ctrl := ⟨true, false, false⟩ })
    s.unobserved = [⟨⟨0x1000, 0x2000, 2⟩, true⟩] ∧
      (after (writeReg .status 2 s)).unobserved = [⟨⟨0x1000, 0x2000, 2⟩, false⟩] := by decide +kernel

/-- A store that meets the source range of an ended command frees its destination bytes, until the end is observed by
a read of STATUS (70_reset_and_hazards.md R346). -/
theorem test_late_race :
    (after (step { ended with inputs := [.memStore 0x1001 [7]] })).draws = 2 ∧
      (after (step { ended with inputs := [.memStore 0x1002 [7]] })).draws = 0 ∧
      (after (step (after (step
        { ended with inputs := [.portRead 0xC .w32, .memStore 0x1001 [7]] })))).draws = 0 := by
  decide +kernel

/-- A store of another agent, and a chunk of a running command, each change a byte. -/
theorem witness_MemoryChangesOnlyInTheDestinationOrByAStore :
    (∃ (s t : State) (a : Nat), step s = .next t ∧ readByte t.mem a ≠ readByte s.mem a ∧ s.status.busy = false) ∧
      (∃ (s t : State) (a : Nat), step s = .next t ∧ readByte t.mem a ≠ readByte s.mem a ∧ s.inputs = []) ∧
      (∃ (s : State) (a : Nat), s.status.busy = false ∧ s.inputs = [.memStore 0x1001 [7]] ∧
        ∃ p ∈ endedSpans s, InDst p a ∧ StoreTouches p 0x1001 1) ∧
      (∃ (s : State) (a : Nat), s.status.busy = false ∧ s.inputs = [.memLoad 0x1FFF 2] ∧
        ∃ p ∈ endedSpans s, InDst p a ∧ LoadTouches p 0x1FFF 2) ∧
      (∃ (s : State) (a : Nat), s.status.busy = true ∧ UnitMoves s ∧
        ∃ p ∈ endedSpans s, InDst p a ∧ ChunkTouches p s ∧ ¬ InDst (latchedSpan s.latched) a) :=
  ⟨⟨{ State.reset with inputs := [.memStore 0x10 [7]] }, _, 0x10, eq_next (by decide +kernel), by decide +kernel, rfl⟩,
    ⟨{ busyState .assign .clmul 8 0 with mem := sourceMem }, _, 0x2006, eq_next (by decide +kernel), by decide +kernel,
      rfl⟩,
    ⟨{ ended with inputs := [.memStore 0x1001 [7]] }, 0x2001, rfl, rfl, ⟨0x1000, 0x2000, 2⟩, by simp [ended, endedSpans],
      ⟨by decide, by decide⟩, 0x1001, by decide, by decide, .inl ⟨by decide, by decide⟩⟩,
    ⟨{ ended with inputs := [.memLoad 0x1FFF 2] }, 0x2001, rfl, rfl, ⟨0x1000, 0x2000, 2⟩, by simp [ended, endedSpans],
      ⟨by decide, by decide⟩, 0x2000, by decide, by decide, by decide, by decide⟩,
    chaining, 0x2001, rfl, .inl rfl, ⟨0x1000, 0x2000, 2⟩, by simp [chaining, endedSpans], ⟨by decide, by decide⟩,
      .inl ⟨0x2000, by decide, 0x2001, by decide, by decide, by decide, by decide⟩, fun h => absurd h.1 (by decide)⟩

theorem witness_EveryStepKeepsTheInvariant : ∃ s t : State, Inv s ∧ step s = .next t ∧ t.k = 34 :=
  ⟨busyState .accumulate .clmul 34 32, _, inv_last, eq_next (by decide +kernel), by decide +kernel⟩

/-! ### Reset, races, and the other agents -/

theorem witness_ResetLoadsEveryResetValue : ∃ (s : State) (es : List Event), s.inputs = .resetAssert :: es :=
  ⟨{ State.reset with inputs := [.resetAssert] }, [], rfl⟩

theorem witness_ResetDuringACommandFreesItsUnfinishedBytes :
    ∃ (s : State) (es : List Event), Inv s ∧ s.status.busy = true ∧ s.raced = false ∧ s.inputs = .resetAssert :: es ∧
      s.k < s.latched.len.toNat :=
  ⟨{ busyState .accumulate .clmul 34 32 with inputs := [.resetAssert] }, [],
    inv_busy rfl rfl (by decide) (by decide) (by decide +kernel), rfl, rfl, rfl, by decide⟩

theorem witness_RegisterAccessDuringResetIsRefused :
    ∃ (s u : State), (s.inReset = true ∧ ((0xFF : Addr) - s.params.base).toNat < 256 ∧ s.inputs = [.portRead 0xFF .w8]) ∧
      (u.inReset = true ∧ ((0 : Addr) - u.params.base).toNat < 256 ∧ u.inputs = [.portWrite 0 .w32 0]) :=
  ⟨{ State.reset with inReset := true, inputs := [.portRead 0xFF .w8] },
    { State.reset with inReset := true, inputs := [.portWrite 0 .w32 0] }, ⟨rfl, by decide, rfl⟩, ⟨rfl, by decide, rfl⟩⟩

/-- A region whose first element holds the last byte of a window at 0x0F00, and one whose element straddles the
first byte of a window at 0x2100. -/
theorem witness_RegionOverTheWindowIsRefused :
    ∃ s u : State,
      (s.k ≠ s.latched.len.toNat ∧ s.params.windowInMemory = true ∧ 0x0FFF ∈ chunkReads s ∧
        0x0FFF < s.params.base.toNat + 256 ∧ s.params.base.toNat < 0x0FFF + 2) ∧
      (u.k ≠ u.latched.len.toNat ∧ u.params.windowInMemory = true ∧ 0x20FF ∈ chunkWrites u ∧
        0x20FF < u.params.base.toNat + 256 ∧ u.params.base.toNat < 0x20FF + 2) :=
  ⟨{ busyState .assign .log 2 0 with
      params := { Params.default with base := 0x0F00, windowInMemory := true }
      latched := ⟨0x0FFF, 0x2000, 2, 3, .assign, .log, .nibble, 2⟩ },
    { busyState .assign .log 2 0 with
      params := { Params.default with base := 0x2100, windowInMemory := true }
      latched := ⟨0x1000, 0x20FF, 2, 3, .assign, .log, .nibble, 2⟩ },
    by decide, by decide⟩

/-- A store to the last byte of the source range; a load that ends one byte into the destination range; a load at the
very top of the address space. -/
theorem witness_RacingAccessesAreMarkedAndReadFreeBytes :
    ∃ s u v : State,
      (s.inputs = [.memStore 0x1021 [1]] ∧ RangeOffWindow s 0x1021 1 ∧ 0x1021 + 1 ≤ 2 ^ s.params.aw ∧ s.mem.wf = true ∧
        s.status.busy = true) ∧
      (u.inputs = [.memLoad 0x1FFF 2] ∧ RangeOffWindow u 0x1FFF 2 ∧ 0x1FFF + 2 ≤ 2 ^ u.params.aw ∧ u.mem.wf = true ∧
        u.status.busy = true ∧ u.latched.dst.toNat ≤ 0x1FFF + 1) ∧
      (v.inputs = [.memLoad (2 ^ 64 - 1) 1] ∧ RangeOffWindow v (2 ^ 64 - 1) 1 ∧ 2 ^ 64 - 1 + 1 ≤ 2 ^ v.params.aw ∧ v.mem.wf = true) :=
  ⟨{ busyState .assign .clmul 34 0 with inputs := [.memStore 0x1021 [1]] },
    { busyState .assign .clmul 34 0 with inputs := [.memLoad 0x1FFF 2] },
    { State.reset with inputs := [.memLoad (2 ^ 64 - 1) 1] },
    ⟨rfl, rangeOff_of rfl, by decide, rfl, rfl⟩, ⟨rfl, rangeOff_of rfl, by decide, rfl, rfl, by decide⟩,
    ⟨rfl, rangeOff_of rfl, by decide, rfl⟩⟩

/-- After an unobserved end: a store to the last byte of the source range, and a load of the first destination byte. -/
theorem witness_RacingAccessesAfterTheEnd :
    ∃ s u : State,
      (s.inputs = [.memStore 0x1001 [1]] ∧ RangeOffWindow s 0x1001 1 ∧ 0x1001 + 1 ≤ 2 ^ s.params.aw ∧ s.mem.wf = true ∧
        ∃ p ∈ endedSpans s, StoreTouches p 0x1001 1) ∧
      (u.inputs = [.memLoad 0x1FFF 2] ∧ RangeOffWindow u 0x1FFF 2 ∧ 0x1FFF + 2 ≤ 2 ^ u.params.aw ∧ u.mem.wf = true ∧
        ∃ p ∈ endedSpans u, LoadTouches p 0x1FFF 2 ∧ InDst p 0x2000) :=
  ⟨{ ended with inputs := [.memStore 0x1001 [1]] }, { ended with inputs := [.memLoad 0x1FFF 2] },
    ⟨rfl, rangeOff_of rfl, by decide, rfl, ⟨0x1000, 0x2000, 2⟩, by simp [ended, endedSpans], 0x1001, by decide, by decide,
      .inl ⟨by decide, by decide⟩⟩,
    ⟨rfl, rangeOff_of rfl, by decide, rfl, ⟨0x1000, 0x2000, 2⟩, by simp [ended, endedSpans],
      ⟨0x2000, by decide, by decide, by decide, by decide⟩, by decide, by decide⟩⟩

theorem inv_chaining : Inv { tabled with
    status := chaining.status, ctrl := chaining.ctrl, latched := chaining.latched, unobserved := chaining.unobserved } :=
  ⟨inv_tabled.legal, inv_tabled.memory, inv_tabled.logTable, inv_tabled.expTable, inv_tabled.src, inv_tabled.dst,
    inv_tabled.fault, (by decide : (0 : BitVec 4).toNat ≤ 8), (by decide : (4 : BitVec 3).toNat ≤ 5), (fun h => by cases h),
    fun _ => by decide +kernel⟩

/-- A chunk that reads the destination of an ended command, on loaded tables; and each way to observe an end. -/
theorem witness_RacingCommandsAndObservation :
    (∃ s : State, Inv s ∧ s.status.busy = true ∧ s.k < s.latched.len.toNat ∧
        OffWindow s (ChunkAccesses s) ∧ AllAnswered s (ChunkAccesses s) ∧ TablesLoaded s ∧ WritesMemory s.latched ∧ ∃ p ∈ endedSpans s, ChunkTouches p s) ∧
      (∃ s : State, s.status.busy = false ∧ s.inReset = false ∧ s.unobserved ≠ [] ∧
        s.inputs = [.portRead (regAddr s.params .status) .w32]) ∧
      (∃ s : State, s.unobserved ≠ [] ∧ s.status.busy = true ∧ s.inputs = [.irqTaken] ∧ s.irq = true) :=
  ⟨⟨_, inv_chaining, rfl, by decide, off_of rfl, answered_chunk (by decide +kernel), tabled_loaded,
      by unfold WritesMemory; decide,
      ⟨0x1000, 0x2000, 2⟩, by simp [chaining, endedSpans],
      .inl ⟨0x2000, by decide, 0x2001, by decide, by decide, by decide, by decide⟩⟩,
    ⟨{ ended with inputs := [.portRead 0xC .w32] }, rfl, rfl, by simp [ended], rfl⟩,
    ⟨{ chaining with inputs := [.irqTaken] }, by simp [chaining], rfl, rfl, rfl⟩⟩

/-- One raced command for each end: complete, a faulting read, a faulting write, reset. -/
theorem witness_RacedCommandLeavesFreeBytes :
    (∃ s : State, Inv s ∧ s.raced = true ∧ s.k = s.latched.len.toNat ∧ s.latched.len = 34) ∧
      (∃ s : State, Inv s ∧ s.raced = true ∧ s.k < s.latched.len.toNat ∧
        OffWindow s (ChunkAccesses s) ∧ NoneSilent s (ChunkAccesses s) ∧
        ∃ a ∈ chunkReads s, elemFaults s false a = true) ∧
      (∃ s : State, Inv s ∧ s.raced = true ∧ s.k < s.latched.len.toNat ∧
        OffWindow s (ChunkAccesses s) ∧ NoneSilent s (ChunkAccesses s) ∧
        ∃ a ∈ chunkWrites s, elemFaults s true a = true) ∧
      (∃ s : State, Inv s ∧ s.raced = true ∧ s.inputs = [.resetAssert]) :=
  ⟨⟨{ busyState .accumulate .clmul 34 34 with raced := true },
      inv_busy rfl rfl (by decide) (by decide) (by decide +kernel), rfl, rfl, rfl⟩,
    ⟨{ readFaulting with raced := true }, inv_busy rfl rfl (by decide) (by decide) (by decide +kernel), rfl, by decide,
      off_of rfl, noneSilent_of (by simp [readFaulting]), 0x1000, by decide, by decide +kernel⟩,
    ⟨{ writeFaulting with raced := true }, inv_busy rfl rfl (by decide) (by decide) (by decide +kernel), rfl, by decide,
      off_of rfl, noneSilent_of (by simp [writeFaulting]), 0x2000, by decide, by decide +kernel⟩,
    ⟨{ busyState .accumulate .clmul 34 32 with raced := true, inputs := [.resetAssert] },
      inv_busy rfl rfl (by decide) (by decide) (by decide +kernel), rfl, rfl⟩⟩

/-- A CMD write while an end is unobserved. -/
theorem witness_EveryCommandEndsItsWriteWithMemoryUnchanged :
    ∃ (s : State) (i : Instr) (es : List Event), Ready s ∧ s.unobserved ≠ [] ∧
      s.inputs = .portWrite (regAddr s.params .cmd) .w32 (encode i) :: es :=
  ⟨writing .cmd (encode (.mulrAsgClmul .nibble)) ended, .mulrAsgClmul .nibble, [], ⟨rfl, rfl⟩, by simp [writing, ended], rfl⟩

end Sys2Proof.Tests
end

section
/-! PROOFS. Field arithmetic: the carry-less product, the reduction and the field product (00_scope.md R11 to R14). -/

namespace Sys2Proof.Machine

open Sys2Proof.Config

/-! ## The carry-less product (00_scope.md R11) -/

/-- The product of two powers of x adds their exponents. -/
theorem clmul16_twoPow_twoPow {i j : Nat} (hi : i < 16) (hj : j < 16) :
    clmul16 (BitVec.twoPow 16 i) (BitVec.twoPow 16 j) = BitVec.twoPow 32 (i + j) := by
  rw [clmul16_twoPow _ _ hj]
  refine BitVec.eq_of_getLsbD_eq fun k hk => ?_
  simp only [BitVec.getLsbD_shiftLeft, BitVec.getLsbD_setWidth, BitVec.getLsbD_twoPow]
  by_cases h : i + j = k
  · subst h
    simp [hi, hk]
    omega
  · simp [h]
    omega

theorem clmul16_comm (a b : Elem) : clmul16 a b = clmul16 b a := by
  refine xor_ext (f := (clmul16 · b)) (g := clmul16 b) (fun x y => clmul16_xor_left x y b) (clmul16_xor_right b)
    (fun i hi => ?_) a
  refine xor_ext (f := clmul16 (BitVec.twoPow 16 i)) (g := (clmul16 · (BitVec.twoPow 16 i)))
    (clmul16_xor_right _) (fun x y => clmul16_xor_left x y _) (fun j hj => ?_) b
  simp only [clmul16_twoPow_twoPow, hi, hj, Nat.add_comm]

/-- A XOR of values whose bit i is 0 has bit i at 0. -/
theorem getLsbD_xorSum_false {w : Nat} {f : Nat → BitVec w} {n i : Nat} (h : ∀ j < n, (f j).getLsbD i = false) :
    (xorSum f n).getLsbD i = false := by
  induction n with
  | zero => simp
  | succ n ih => rw [xorSum_succ, BitVec.getLsbD_xor, ih fun j hj => h j (by omega), h n (by omega)]; rfl

theorem clmul16_bit31 (a b : Elem) : (clmul16 a b).getLsbD 31 = false := by
  rw [clmul16_eq]
  refine getLsbD_xorSum_false fun j hj => ?_
  split
  · rw [BitVec.getLsbD_shiftLeft, BitVec.getLsbD_setWidth, BitVec.getLsbD_of_ge a _ (by omega)]
    simp
  · simp

/-- Settles O24: both sides of the first half respect XOR and agree on powers of x; no shifted factor reaches bit 31. -/
theorem carrylessProductCommutesWithinThirtyOneBits : Obligations.CarrylessProductCommutesWithinThirtyOneBits :=
  fun a b => ⟨clmul16_comm a b, clmul16_bit31 a b⟩

/-! ## Reduction (00_scope.md R12) -/

theorem polyMultiple_xor (poly : BitVec 17) (q r : Elem) :
    polyMultiple poly (q ^^^ r) = polyMultiple poly q ^^^ polyMultiple poly r := by
  rw [polyMultiple_eq, polyMultiple_eq, polyMultiple_eq, ← xorSum_xor]
  refine xorSum_congr fun j _ => ?_
  rw [BitVec.getLsbD_xor]
  cases q.getLsbD j <;> cases r.getLsbD j <;> simp

@[simp] theorem polyMultiple_zero (poly : BitVec 17) : polyMultiple poly 0#16 = 0#32 := by
  simpa using polyMultiple_xor poly 0#16 0#16

theorem polyMultiple_twoPow (poly : BitVec 17) {j : Nat} (hj : j < 16) :
    polyMultiple poly (BitVec.twoPow 16 j) = poly.setWidth 32 <<< j := by
  rw [polyMultiple]
  interval_cases j <;> simp [List.range_succ, BitVec.getLsbD_twoPow]

/-- One step of the reduction adds a multiple of the polynomial. -/
theorem reduceBit_eq_multiple (poly : BitVec 17) (p : BitVec 32) {i : Nat} (hi : i < 32) :
    ∃ q : Elem, reduceBit poly p i = p ^^^ polyMultiple poly q := by
  unfold reduceBit
  split
  · exact ⟨BitVec.twoPow 16 (i - 16), by rw [polyMultiple_twoPow poly (by omega)]⟩
  · exact ⟨0, by simp⟩

theorem reduceTop_eq_multiple (poly : BitVec 17) (p : BitVec 32) (n : Nat) :
    ∃ q : Elem, reduceTop poly n p = p ^^^ polyMultiple poly q := by
  induction n with
  | zero => exact ⟨0, by simp [reduceTop]⟩
  | succ n ih =>
    obtain ⟨q, hq⟩ := ih
    obtain ⟨r, hr⟩ := reduceBit_eq_multiple poly (reduceTop poly n p) (i := 31 - n) (by omega)
    exact ⟨q ^^^ r, by rw [reduceTop_succ, hr, hq, polyMultiple_xor, BitVec.xor_assoc]⟩

/-- The fully reduced value has no bit above 15, so its low half is all of it. -/
theorem setWidth_polyred {poly : BitVec 17} (hp : poly.getLsbD 16 = true) (p : BitVec 32) :
    (polyred poly p).setWidth 32 = reduceTop poly 16 p := by
  refine BitVec.eq_of_getLsbD_eq fun i hi => ?_
  rw [polyred_eq, BitVec.getLsbD_setWidth, BitVec.getLsbD_setWidth]
  by_cases h : i < 16
  · simp [h, hi]
  · simp [h, reduceTop_high hp (le_refl _) p (i := i) (by omega)]

/-- The polynomial itself reduces to 0: its bit 16 is the only one that a step meets. -/
theorem polyred_poly {poly : BitVec 17} (hp : poly.getLsbD 16 = true) : polyred poly (poly.setWidth 32) = 0 := by
  have hskip : ∀ n ≤ 15, reduceTop poly n (poly.setWidth 32) = poly.setWidth 32 := by
    intro n hn
    induction n with
    | zero => rfl
    | succ n ih =>
      rw [reduceTop_succ, ih (by omega), reduceBit, BitVec.getLsbD_setWidth, BitVec.getLsbD_of_ge poly _ (by omega)]
      simp
  rw [polyred_eq, reduceTop_succ, hskip 15 le_rfl, reduceBit]
  simp [hp]

theorem polyred_polyMultiple {poly : BitVec 17} (hp : poly.getLsbD 16 = true) (q : Elem) :
    polyred poly (polyMultiple poly q) = 0 := by
  refine xor_ext (f := fun q => polyred poly (polyMultiple poly q)) (g := fun _ => 0)
    (fun a b => by rw [polyMultiple_xor, polyred_xor]) (fun _ _ => by simp) (fun j hj => ?_) q
  have hzero : (xtime poly)^[j] 0 = 0 := Function.iterate_fixed (xtime_zero poly) j
  rw [polyMultiple_twoPow poly hj, polyred_shiftLeft hp, polyred_poly hp, hzero]
  intro i hi
  rw [BitVec.getLsbD_setWidth, BitVec.getLsbD_of_ge poly _ (by omega)]
  simp

/-- Settles O25: each step adds a multiple of the polynomial, which gives the quotient; and multiples reduce to 0, so
two remainders of one value are the same. -/
theorem reductionIsTheUniqueRemainder : Obligations.ReductionIsTheUniqueRemainder := by
  intro poly p hp
  constructor
  · obtain ⟨q, hq⟩ := reduceTop_eq_multiple poly p 16
    refine ⟨q, ?_⟩
    rw [setWidth_polyred hp, hq, BitVec.xor_comm p, ← BitVec.xor_assoc, BitVec.xor_self, BitVec.zero_xor]
  · rintro q r rfl
    rw [polyred_xor, polyred_polyMultiple hp, polyred_small]
    simp

/-! ## The field product (00_scope.md R13) -/

theorem gfmul_comm (poly : BitVec 17) (a b : Elem) : gfmul poly a b = gfmul poly b a := by
  rw [gfmul, clmul16_comm, gfmul]

theorem gfmul_xor_right (poly : BitVec 17) (a b c : Elem) :
    gfmul poly a (b ^^^ c) = gfmul poly a b ^^^ gfmul poly a c := by
  rw [gfmul, clmul16_xor_right, polyred_xor, gfmul, gfmul]

theorem gfmul_xor_left (poly : BitVec 17) (a b c : Elem) :
    gfmul poly (a ^^^ b) c = gfmul poly a c ^^^ gfmul poly b c := by
  rw [gfmul, clmul16_xor_left, polyred_xor, gfmul, gfmul]

@[simp] theorem gfmul_zero (poly : BitVec 17) (a : Elem) : gfmul poly a 0#16 = 0#16 := by
  simpa using gfmul_xor_right poly a 0#16 0#16

@[simp] theorem zero_gfmul (poly : BitVec 17) (a : Elem) : gfmul poly 0#16 a = 0#16 := by
  rw [gfmul_comm, gfmul_zero]

@[simp] theorem gfmul_one (poly : BitVec 17) (a : Elem) : gfmul poly a 1#16 = a := by
  rw [gfmul, show 1#16 = BitVec.twoPow 16 0 by decide, clmul16_twoPow a 0 (by omega), BitVec.shiftLeft_zero,
    polyred_small]

@[simp] theorem one_gfmul (poly : BitVec 17) (a : Elem) : gfmul poly 1#16 a = a := by
  rw [gfmul_comm, gfmul_one]

/-- A factor of x moves out of a product. -/
theorem gfmul_xtime {poly : BitVec 17} (hp : poly.getLsbD 16 = true) (a b : Elem) :
    gfmul poly (xtime poly a) b = xtime poly (gfmul poly a b) := by
  refine xor_ext (f := gfmul poly (xtime poly a)) (g := fun b => xtime poly (gfmul poly a b))
    (gfmul_xor_right _ _) (fun b c => by rw [gfmul_xor_right, xtime_xor]) (fun j hj => ?_) b
  rw [gfmul_twoPow hp _ _ hj, gfmul_twoPow hp _ _ hj, ← Function.iterate_succ_apply, Function.iterate_succ_apply']

theorem gfmul_iterate_xtime {poly : BitVec 17} (hp : poly.getLsbD 16 = true) (a b : Elem) (j : Nat) :
    gfmul poly a ((xtime poly)^[j] b) = (xtime poly)^[j] (gfmul poly a b) := by
  induction j with
  | zero => rfl
  | succ j ih =>
    rw [Function.iterate_succ_apply', Function.iterate_succ_apply', ← ih, gfmul_comm, gfmul_xtime hp, gfmul_comm]

theorem gfmul_assoc {poly : BitVec 17} (hp : poly.getLsbD 16 = true) (a b c : Elem) :
    gfmul poly (gfmul poly a b) c = gfmul poly a (gfmul poly b c) := by
  refine xor_ext (f := gfmul poly (gfmul poly a b)) (g := fun c => gfmul poly a (gfmul poly b c))
    (gfmul_xor_right _ _) (fun c d => by rw [gfmul_xor_right, gfmul_xor_right]) (fun j hj => ?_) c
  rw [gfmul_twoPow hp _ _ hj, gfmul_twoPow hp _ _ hj, gfmul_iterate_xtime hp]

/-- Settles O26: the laws one by one; associativity holds for powers of x, which move out of a product, and so for
all. -/
theorem fieldProductLaws : Obligations.FieldProductLaws := fun poly hp =>
  ⟨fun _ _ => rfl, gfmul_comm poly, gfmul_assoc hp, gfmul_xor_right poly, gfmul_zero poly, gfmul_one poly⟩

/-! ## The affine matrix (43_affine.md R221, R222) -/

theorem getD_affineColumns (poly : BitVec 17) (n : Nat) (a : Elem) {j : Nat} (hj : j < n) :
    (affineColumns poly n a).getD j 0 = (xtime poly)^[j] a := by
  induction n generalizing a j with
  | zero => omega
  | succ n ih =>
    cases j with
    | zero => rfl
    | succ j =>
      rw [affineColumns, List.getD_cons_succ, ih _ (by omega), Function.iterate_succ_apply]

/-- The columns are the products by the powers of x. -/
theorem getD_buildAM {poly : BitVec 17} (hp : poly.getLsbD 16 = true) (a : Elem) {j : Nat} (hj : j < 16) :
    (buildAM poly a).getD j 0 = gfmul poly a (BitVec.twoPow 16 j) := by
  rw [buildAM, getD_affineColumns poly 16 a hj, gfmul_twoPow hp a j hj]

/-- The element function XORs the columns at the bits of x, each of them the scalar times that bit's power of x. -/
theorem fAff_buildAM {poly : BitVec 17} (hp : poly.getLsbD 16 = true) (a x : Elem) :
    fAff (buildAM poly a) x = gfmul poly x a := by
  rw [gfmul_comm, fAff_eq]
  conv_rhs => rw [eq_xorSum_bits x, map_xorSum (gfmul_zero poly a) (gfmul_xor_right poly a)]
  refine xorSum_congr fun j hj => ?_
  split
  · exact getD_buildAM hp a hj
  · exact (gfmul_zero poly a).symm

theorem fClmul_eq (poly : BitVec 17) (x a : Elem) : fClmul poly x a = gfmul poly x a := rfl

/-- Settles O27: the columns are products by powers of x, and the field product is linear in the element. -/
theorem affineMatrixGivesTheFieldProduct : Obligations.AffineMatrixGivesTheFieldProduct := fun poly a hp =>
  ⟨fun _ hj => getD_buildAM hp a hj, fun x => ⟨fAff_buildAM hp a x, fClmul_eq poly x a⟩⟩

end Sys2Proof.Machine
end

section
/-! PROOFS. Consistent tables: the powers of an element with 65535 distinct ones are all the elements but 0, so the table product and the shuffle tables give the field product (00_scope.md R16, 41_log_table_unit.md R175, 42_table_shuffle.md R198). -/

namespace Sys2Proof.Machine

open Sys2Proof.Config

/-! ## Powers (00_scope.md R16) -/

theorem gfpow_one (poly : BitVec 17) (g : Elem) : gfpow poly g 1 = g := one_gfmul poly g

theorem gfpow_add {poly : BitVec 17} (hp : poly.getLsbD 16 = true) (g : Elem) (m n : Nat) :
    gfpow poly g (m + n) = gfmul poly (gfpow poly g m) (gfpow poly g n) := by
  induction n with
  | zero => exact (gfmul_one poly _).symm
  | succ n ih => rw [← Nat.add_assoc, gfpow, ih, gfpow, gfmul_assoc hp]

/-- The powers with exponents 0 to 65534 are distinct: the second clause of `TablesConsistent`. -/
def PowersDistinct (poly : BitVec 17) (g : Elem) : Prop :=
  ∀ i < 65535, ∀ j < 65535, gfpow poly g i = gfpow poly g j → i = j

/-- The powers with exponents 0 to 65534. -/
def powers (poly : BitVec 17) (g : Elem) : Finset Elem := (Finset.range 65535).image (gfpow poly g)

theorem mem_powers {poly : BitVec 17} {g v : Elem} : v ∈ powers poly g ↔ ∃ i < 65535, gfpow poly g i = v := by
  simp only [powers, Finset.mem_image, Finset.mem_range]

section
variable {poly : BitVec 17} {g : Elem} (hp : poly.getLsbD 16 = true) (hd : PowersDistinct poly g)

section
include hp

/-- Where g^m is the last power that is not 0 and c * g^m is 0, 1 + c is no power: its product by g^m is g^m again, and
that of a power by g^m is 0. -/
theorem one_xor_notMem_powers {m : Nat} {c : Elem} (hc : c ≠ 0) (hm : gfpow poly g m ≠ 0)
    (hnext : ∀ n, m < n → gfpow poly g n = 0) (hcm : gfmul poly c (gfpow poly g m) = 0) :
    1 ^^^ c ∉ powers poly g := by
  intro hmem
  obtain ⟨k, _, hk⟩ := mem_powers.1 hmem
  cases k with
  | zero =>
    refine hc ?_
    have h := congrArg (1 ^^^ ·) hk.symm
    simpa [gfpow, ← BitVec.xor_assoc] using h
  | succ k =>
    refine hm ?_
    have h := congrArg (gfmul poly · (gfpow poly g m)) hk
    rw [← gfpow_add hp, hnext _ (by omega), gfmul_xor_left, hcm] at h
    simpa using h.symm

end

include hd

theorem card_powers : (powers poly g).card = 65535 := by
  rw [powers, Finset.card_image_of_injOn, Finset.card_range]
  exact fun i hi j hj => hd i (by simpa using hi) j (by simpa using hj)

/-- Of two elements one is a power: there are 65535 powers among 65536 elements. -/
theorem mem_powers_or {x y : Elem} (hxy : x ≠ y) : x ∈ powers poly g ∨ y ∈ powers poly g := by
  by_contra hno
  obtain ⟨hx, hy⟩ := not_or.1 hno
  have hle := Finset.card_le_univ (insert x (insert y (powers poly g)))
  rw [Finset.card_insert_of_notMem (by simp [hxy, hx]), Finset.card_insert_of_notMem hy, card_powers hd,
    ← FinEnum.card_eq_fintypeCard, FinEnum.card_bitVec] at hle
  omega

include hp

/-- No power is 0. Were g^(m+1) the first that is, one of 1 + g and 1 + g^2 would be a power, since they differ. -/
theorem gfpow_ne_zero (n : Nat) : gfpow poly g n ≠ 0 := by
  induction n with
  | zero => simp [gfpow]
  | succ m hm =>
    intro hz
    have hnext : ∀ n, m < n → gfpow poly g n = 0 := fun n hn => by
      rw [show n = m + 1 + (n - (m + 1)) by omega, gfpow_add hp, hz]
      exact zero_gfmul poly _
    have hne : ∀ i < 65534, gfpow poly g i ≠ 0 := fun i hi h0 => by
      have h1 : gfpow poly g (i + 1) = 0 := by rw [gfpow, h0]; exact zero_gfmul poly g
      have := hd i (by omega) (i + 1) (by omega) (h0.trans h1.symm)
      omega
    have hcm : ∀ i, 0 < i → gfmul poly (gfpow poly g i) (gfpow poly g m) = 0 := fun i hi => by
      rw [← gfpow_add hp]
      exact hnext _ (by omega)
    have hdiff : 1 ^^^ gfpow poly g 1 ≠ 1 ^^^ gfpow poly g 2 := fun h => by
      have := hd 1 (by omega) 2 (by omega) ((BitVec.xor_right_inj 1).1 h)
      omega
    rcases mem_powers_or hd hdiff with h | h
    · exact one_xor_notMem_powers hp (hne 1 (by omega)) hm hnext (hcm 1 (by omega)) h
    · exact one_xor_notMem_powers hp (hne 2 (by omega)) hm hnext (hcm 2 (by omega)) h

/-- Every element but 0 is a power. -/
theorem mem_powers_of_ne_zero {x : Elem} (hx : x ≠ 0) : ∃ i < 65535, gfpow poly g i = x := by
  rcases mem_powers_or hd hx with h | h
  · exact mem_powers.1 h
  · obtain ⟨i, _, hi⟩ := mem_powers.1 h
    exact absurd hi (gfpow_ne_zero hp hd i)

/-- The power 65535 is 1 again: it is some earlier power g^j, and were j not 0, cancelling g would make two of the
distinct powers equal. -/
theorem gfpow_order : gfpow poly g 65535 = 1 := by
  obtain ⟨j, hj, hgj⟩ := mem_powers_of_ne_zero hp hd (gfpow_ne_zero hp hd 65535)
  cases j with
  | zero => exact hgj.symm
  | succ j =>
    have hne : gfpow poly g j ^^^ gfpow poly g 65534 ≠ 0 := fun h => by
      have := hd j (by omega) 65534 (by omega) (BitVec.xor_eq_zero_iff.1 h)
      omega
    obtain ⟨i, _, hi⟩ := mem_powers_of_ne_zero hp hd hne
    refine absurd ?_ (gfpow_ne_zero hp hd (i + 1))
    rw [gfpow, hi, gfmul_xor_left]
    exact BitVec.xor_eq_zero_iff.2 hgj

/-- Exponents count modulo 65535. -/
theorem gfpow_mod (n : Nat) : gfpow poly g (n % 65535) = gfpow poly g n := by
  induction n using Nat.strong_induction_on with
  | h n ih =>
    by_cases hn : n < 65535
    · rw [Nat.mod_eq_of_lt hn]
    · obtain ⟨m, rfl⟩ := Nat.exists_eq_add_of_le (Nat.le_of_not_lt hn)
      rw [Nat.add_mod_left, ih m (by omega), gfpow_add hp, gfpow_order hp hd]
      exact (one_gfmul poly _).symm

end

/-! ## The table product on consistent tables (00_scope.md R15, 41_log_table_unit.md R175) -/

theorem logIndex_ofNat {i j : Nat} (hi : i < 65535) (hj : j < 65535) :
    logIndex (BitVec.ofNat 16 i) (BitVec.ofNat 16 j) = BitVec.ofNat 16 ((i + j) % 65535) := by
  rw [logIndex, BitVec.toNat_ofNat, BitVec.toNat_ofNat, Nat.mod_eq_of_lt (by omega : i < 2 ^ 16),
    Nat.mod_eq_of_lt (by omega : j < 2 ^ 16)]

/-- The factors are powers g^i and g^j; the antilog of i + j modulo 65535 is g^(i + j). -/
theorem logmul_consistent {poly : BitVec 17} {logT expT : Table} (hp : poly.getLsbD 16 = true)
    (ht : TablesConsistent poly logT expT) (x a : Elem) (d : Nat) : logmul logT expT x a d = (gfmul poly x a, d) := by
  obtain ⟨g, hexp, hd, hlog⟩ := ht
  by_cases hx : x = 0
  · simp [logmul, hx]
  by_cases ha : a = 0
  · simp [logmul, ha]
  obtain ⟨i, hi, rfl⟩ := mem_powers_of_ne_zero hp hd hx
  obtain ⟨j, hj, rfl⟩ := mem_powers_of_ne_zero hp hd ha
  have hsum : expT.read (logIndex (BitVec.ofNat 16 i) (BitVec.ofNat 16 j)) =
      some (gfmul poly (gfpow poly g i) (gfpow poly g j)) := by
    rw [logIndex_ofNat hi hj, hexp _ (Nat.mod_lt _ (by omega)), gfpow_mod hp hd, gfpow_add hp]
  simp only [logmul, hx, ha, or_self, if_false, hlog i hi, hlog j hj, hsum]

/-- Settles O28: on consistent tables logarithms add as exponents of the generator do. -/
theorem consistentTablesGiveTheFieldProduct : Obligations.ConsistentTablesGiveTheFieldProduct :=
  fun _ _ _ hp ht => logmul_consistent hp ht

end Sys2Proof.Machine
end

section
/-! PROOFS. The shuffle tables, the element product, and MULE on LOG (40_commands.md R138, R139, R141; 42_table_shuffle.md R191 to R198). -/

namespace Sys2Proof.Machine

open Sys2Proof.Config

/-! ## DT where the table products are given by a function (42_table_shuffle.md R191, R192) -/

/-- The derived table of a function: in sub-table k the values of f at each index shifted to its place. -/
def dtOf (f : Elem → Elem) (g : Gran) : List (List Elem) :=
  (List.range (dtShape g).1).map fun k =>
    (List.range (dtShape g).2.1).map fun n => f (BitVec.ofNat 16 (n <<< ((dtShape g).2.2 * k)))

/-- Where the table products by a draw nothing and are f, DT is the derived table of f. -/
theorem buildDT_eq_dtOf {s : State} {a : Elem} {f : Elem → Elem} (hf : ∀ x e, fLog s x a e = (f x, e)) (g : Gran)
    (d : Nat) : buildDT s g a d = (dtOf f g, d) :=
  mapDraw_pure _ _ fun _ _ _ => mapDraw_pure _ _ fun _ _ d => hf _ d

theorem dtEntry_dtOf (f : Elem → Elem) (g : Gran) {k n : Nat} (hk : k < (dtShape g).1) (hn : n < (dtShape g).2.1) :
    dtEntry (dtOf f g) k n = f (BitVec.ofNat 16 (n <<< ((dtShape g).2.2 * k))) := by
  simp [dtEntry, dtOf, List.getD, hk, hn]

/-! ## The shuffle element function (42_table_shuffle.md R193) -/

/-- A field of bits put back in its place. -/
theorem getLsbD_field (x : Elem) (start width i : Nat) (hi : i < 16) :
    (BitVec.ofNat 16 ((x.extractLsb' start width).toNat <<< start)).getLsbD i =
      (decide (start ≤ i ∧ i < start + width) && x.getLsbD i) := by
  rw [BitVec.getLsbD_ofNat, Nat.testBit_shiftLeft, BitVec.testBit_toNat, BitVec.getLsbD_extractLsb']
  by_cases h : start ≤ i
  · have hw : i - start < width ↔ i < start + width := by omega
    simp [hi, h, hw]
  · simp [h]

/-- An element is the XOR of its four nibbles in their places. -/
theorem xor_nibbles (x : Elem) :
    BitVec.ofNat 16 ((x.extractLsb' 0 4).toNat <<< 0) ^^^ BitVec.ofNat 16 ((x.extractLsb' 4 4).toNat <<< 4) ^^^
      BitVec.ofNat 16 ((x.extractLsb' 8 4).toNat <<< 8) ^^^ BitVec.ofNat 16 ((x.extractLsb' 12 4).toNat <<< 12) = x := by
  refine BitVec.eq_of_getLsbD_eq fun i hi => ?_
  simp only [BitVec.getLsbD_xor, getLsbD_field _ _ _ _ hi]
  interval_cases i <;> simp

/-- An element is the XOR of its two bytes in their places. -/
theorem xor_bytes (x : Elem) :
    BitVec.ofNat 16 ((x.extractLsb' 0 8).toNat <<< 0) ^^^ BitVec.ofNat 16 ((x.extractLsb' 8 8).toNat <<< 8) = x := by
  refine BitVec.eq_of_getLsbD_eq fun i hi => ?_
  simp only [BitVec.getLsbD_xor, getLsbD_field _ _ _ _ hi]
  interval_cases i <;> simp

/-- On the derived table of a function that respects XOR, the shuffle function is that function. -/
theorem fShuf_dtOf {f : Elem → Elem} (hf : ∀ x y, f (x ^^^ y) = f x ^^^ f y) (g : Gran) (x : Elem) :
    fShuf g (dtOf f g) x = f x := by
  cases g with
  | nibble =>
    have hentry : ∀ k < 4, ∀ v : BitVec 4, dtEntry (dtOf f .nibble) k v.toNat = f (BitVec.ofNat 16 (v.toNat <<< (4 * k))) :=
      fun k hk v => dtEntry_dtOf f .nibble hk v.isLt
    conv_rhs => rw [← xor_nibbles x, hf, hf, hf]
    simp only [fShuf, hentry 0 (by omega), hentry 1 (by omega), hentry 2 (by omega), hentry 3 (by omega)]
  | byte =>
    have hentry : ∀ k < 2, ∀ v : BitVec 8, dtEntry (dtOf f .byte) k v.toNat = f (BitVec.ofNat 16 (v.toNat <<< (8 * k))) :=
      fun k hk v => dtEntry_dtOf f .byte hk v.isLt
    conv_rhs => rw [← xor_bytes x, hf]
    simp only [fShuf, hentry 0 (by omega), hentry 1 (by omega)]

/-- On consistent tables DT is the derived table of the field product. -/
theorem buildDT_consistent {s : State} (hp : s.params.polyMonic = true)
    (ht : TablesConsistent s.params.poly s.logTbl s.expTbl) (g : Gran) (a : Elem) (d : Nat) :
    buildDT s g a d = (dtOf (gfmul s.params.poly · a) g, d) :=
  buildDT_eq_dtOf (fun x d => logmul_consistent hp ht x a d) g d

theorem fShuf_consistent (poly : BitVec 17) (g : Gran) (a x : Elem) :
    fShuf g (dtOf (gfmul poly · a) g) x = gfmul poly x a :=
  fShuf_dtOf (fun x y => gfmul_xor_left poly x y a) g x

/-- Settles O29: DT is the derived table of the product by a, which is linear, so the entries of an element's fields XOR
to its product. -/
theorem shuffleOnConsistentTablesGivesTheFieldProduct :
    Obligations.ShuffleOnConsistentTablesGivesTheFieldProduct := by
  intro s g a d hp ht
  rw [buildDT_consistent hp ht]
  refine ⟨rfl, ?_, ?_, fShuf_consistent _ g a⟩
  · rintro rfl k hk n hn
    exact dtEntry_dtOf (gfmul s.params.poly · a) .nibble hk hn
  · rintro rfl k hk n hn
    exact dtEntry_dtOf (gfmul s.params.poly · a) .byte hk hn

/-! ## The element product (40_commands.md R138 to R140) -/

@[simp] theorem prod_scalar_zero (s : State) (e : Engine) (x : Elem) (part : Bool) (d : Nat) :
    prod s e x 0#16 part d = (0#16, d) := by
  simp [prod]

@[simp] theorem prod_scalar_one (s : State) (e : Engine) (x : Elem) (part : Bool) (d : Nat) :
    prod s e x 1#16 part d = (x, d) := by
  simp [prod]

section
variable {a : Elem} (h0 : a ≠ 0) (h1 : a ≠ 1)
include h0 h1

/-- LOG, and a shuffle engine in a partial chunk, take the table product (42_table_shuffle.md R194). -/
theorem prod_table {e : Engine} {part : Bool} (he : e = .log ∨ ((e = .shufN ∨ e = .shufW) ∧ part = true)) (s : State)
    (x : Elem) (d : Nat) : prod s e x a part d = logmul s.logTbl s.expTbl x a d := by
  rcases he with rfl | ⟨rfl | rfl, rfl⟩ <;> simp only [prod, h0, h1, if_false, if_true, fLog]

/-- A shuffle engine in a full chunk takes the shuffle function (42_table_shuffle.md R193). -/
theorem prod_shuffle {e : Engine} (he : e = .shufN ∨ e = .shufW) (s : State) (x : Elem) (d : Nat) :
    prod s e x a false d = (fShuf s.latched.gran s.dt x, d) := by
  rcases he with rfl | rfl <;> simp only [prod, h0, h1, if_false, Bool.false_eq_true]

theorem prod_affine (s : State) (x : Elem) (part : Bool) (d : Nat) : prod s .affine x a part d = (fAff s.am x, d) := by
  simp only [prod, h0, h1, if_false]

theorem prod_clmul (s : State) (x : Elem) (part : Bool) (d : Nat) :
    prod s .clmul x a part d = (gfmul s.params.poly x a, d) := by
  simp only [prod, h0, h1, if_false, fClmul_eq]

theorem shortCircuit_eq_false : shortCircuit a = false := by
  simp only [shortCircuit, Bool.or_eq_false_iff, beq_eq_false_iff_ne]
  exact ⟨h0, h1⟩

theorem buildDerived_shuffle {e : Engine} (he : e = .shufN ∨ e = .shufW) (g : Gran) (s : State) :
    buildDerived e g a s = fillDT g a s := by
  rcases he with rfl | rfl <;> simp [buildDerived, shortCircuit_eq_false h0 h1]

theorem buildDerived_affine (g : Gran) (s : State) : buildDerived .affine g a s = fillAM a s := by
  simp [buildDerived, shortCircuit_eq_false h0 h1]

end

/-- The shuffle function in the terms of the statement: the nibbles, or bytes, of x as numbers. -/
theorem fShuf_nibble (dt : List (List Elem)) (x : Elem) :
    fShuf .nibble dt x = dtEntry dt 0 (x.toNat % 16) ^^^ dtEntry dt 1 (x.toNat / 16 % 16) ^^^
      dtEntry dt 2 (x.toNat / 256 % 16) ^^^ dtEntry dt 3 (x.toNat / 4096) := by
  have h3 : x.toNat / 4096 % 16 = x.toNat / 4096 := by have := x.isLt; omega
  simp only [fShuf, BitVec.extractLsb'_toNat, Nat.shiftRight_eq_div_pow]
  norm_num [h3]

theorem fShuf_byte (dt : List (List Elem)) (x : Elem) :
    fShuf .byte dt x = dtEntry dt 0 (x.toNat % 256) ^^^ dtEntry dt 1 (x.toNat / 256) := by
  have h1 : x.toNat / 256 % 256 = x.toNat / 256 := by have := x.isLt; omega
  simp only [fShuf, BitVec.extractLsb'_toNat, Nat.shiftRight_eq_div_pow]
  norm_num [h1]

/-- The central contract for one element (40_commands.md R139): with the derived state that its command builds, every
engine gives the field product where the tables it reads are consistent. -/
theorem prod_buildDerived {s : State} {e : Engine} {a : Elem} (hp : s.params.polyMonic = true)
    (hc : ConsistentWhereRead s e a) (x : Elem) (part : Bool) (d : Nat) :
    prod (buildDerived e s.latched.gran a s) e x a part d = (gfmul s.params.poly x a, d) := by
  by_cases h0 : a = 0
  · simp [h0]
  by_cases h1 : a = 1
  · simp [h1]
  have htable : e = .log ∨ e = .shufN ∨ e = .shufW → ∀ d,
      logmul s.logTbl s.expTbl x a d = (gfmul s.params.poly x a, d) :=
    fun he => logmul_consistent hp (hc he h0 h1) x a
  have hshuffle : e = .shufN ∨ e = .shufW →
      prod (buildDerived e s.latched.gran a s) e x a part d = (gfmul s.params.poly x a, d) := fun he => by
    cases part with
    | true => rw [prod_table h0 h1 (.inr ⟨he, rfl⟩), buildDerived_logTbl, buildDerived_expTbl, htable (.inr he)]
    | false =>
      rw [prod_shuffle h0 h1 he, buildDerived_shuffle h0 h1 he, fillDT, buildDT_consistent hp (hc (.inr he) h0 h1)]
      exact congrArg (·, d) (fShuf_consistent _ _ a x)
  cases e with
  | log => rw [prod_table h0 h1 (.inl rfl), buildDerived_logTbl, buildDerived_expTbl, htable (.inl rfl)]
  | shufN => exact hshuffle (.inl rfl)
  | shufW => exact hshuffle (.inr rfl)
  | affine => rw [prod_affine h0 h1, buildDerived_affine h0 h1, fillAM, fAff_buildAM hp]
  | clmul => rw [prod_clmul h0 h1, buildDerived_params]

/-- Settles O30: the branches of the element product one by one, and the central contract for one element. -/
theorem everyEngineGivesTheFieldProduct : Obligations.EveryEngineGivesTheFieldProduct := by
  intro s e a x part d
  refine ⟨?_, ?_, fun h0 h1 he => prod_table h0 h1 he s x d, ?_, fun hp hc => prod_buildDerived hp hc x part d⟩
  · rintro rfl
    exact prod_scalar_zero s e x part d
  · rintro rfl
    exact prod_scalar_one s e x part d
  · rintro h0 h1 he rfl
    refine ⟨fun hg => ?_, fun hg => ?_⟩
    · rw [prod_shuffle h0 h1 he, hg, fShuf_nibble]
    · rw [prod_shuffle h0 h1 he, hg, fShuf_byte]

/-! ## MULE (40_commands.md R141) -/

/-- The state whose engine runs the operand of a MULE: the operands latched and the derived state built. -/
def muleReady (m : Mode) (e : Engine) (g : Gran) (s : State) : State :=
  buildDerived e g s.scalar (latch m e g (setLastEngine e s))

/-- The product that a MULE forms, and the count of free values after it. -/
def muleProduct (m : Mode) (e : Engine) (g : Gran) (s : State) : Elem × Nat :=
  prod (muleReady m e g s) e s.opnd s.scalar false (muleReady m e g s).draws

/-- The state in which a MULE ends on engine e. -/
def muleEnd (m : Mode) (e : Engine) (g : Gran) (s : State) : State := endOk (muleRun m e (muleReady m e g s))

/-- A MULE that names a present engine runs on it. -/
theorem mule_named {e : Engine} {s : State} (he : present s.params e = true) (m : Mode) (g : Gran) :
    mule m (.named e) g s = .next (muleEnd m e g s) := by
  simp only [mule, resolve_named, he, if_true]
  rfl

/-- What a MULE leaves: the product in RESULT, or XORed into it, and the rest as `MuleEnds` says. -/
theorem muleEnd_ends (m : Mode) (e : Engine) (g : Gran) (s : State) :
    MuleEnds s (muleEnd m e g s) m e g (muleResult m s.result (muleProduct m e g s).1) where
  status := by simp [muleEnd, muleReady, muleStatus]
  result := by simp [muleEnd, muleRun, muleReady, muleProduct]
  latched := by simp [muleEnd, muleReady, latch]
  k := by simp [muleEnd, muleReady]
  raced := by simp [muleEnd, muleReady]
  untouched := by constructor <;> simp [muleEnd, muleReady]

theorem muleEnd_draws (m : Mode) (e : Engine) (g : Gran) (s : State) :
    (muleEnd m e g s).draws = (muleProduct m e g s).2 := by
  simp [muleEnd, muleRun, muleReady, muleProduct]

/-- LOG builds no derived state. -/
theorem muleReady_log (m : Mode) (g : Gran) (s : State) :
    muleReady m .log g s = latch m .log g (setLastEngine .log s) := by
  simp only [muleReady, buildDerived, ite_self]

/-- The product of a MULE on LOG is that of the tables as they stand. -/
theorem muleProduct_log (m : Mode) (g : Gran) (s : State) :
    muleProduct m .log g s = prod s .log s.opnd s.scalar false s.draws := by
  rw [muleProduct, muleReady_log]
  rfl

/-- A MULE on LOG ends with the product of the tables as they stand, DT and AM as they were. -/
theorem mule_log (m : Mode) (g : Gran) (s : State) : ∃ t, mule m (.named .log) g s = .next t ∧
    MuleEnds s t m .log g (muleResult m s.result (prod s .log s.opnd s.scalar false s.draws).1) ∧
    t.dt = s.dt ∧ t.am = s.am ∧ t.draws = (prod s .log s.opnd s.scalar false s.draws).2 := by
  refine ⟨_, mule_named (e := .log) rfl m g, ?_, ?_, ?_, ?_⟩
  · rw [← muleProduct_log m g s]
    exact muleEnd_ends m .log g s
  · simp [muleEnd, muleReady_log]
  · simp [muleEnd, muleReady_log]
  · rw [muleEnd_draws, muleProduct_log]

/-- The table product where the entries it reads are written (00_scope.md R15). -/
theorem logmul_written {logT expT : Table} {x a lx la v : Elem} (hx : x ≠ 0) (ha : a ≠ 0) (hlx : logT.read x = some lx)
    (hla : logT.read a = some la) (hv : expT.read (logIndex lx la) = some v) (d : Nat) :
    logmul logT expT x a d = (v, d) := by
  simp only [logmul, hx, ha, or_self, if_false, hlx, hla, hv]

/-- The table product where an entry it reads is not written (41_log_table_unit.md R176). -/
theorem logmul_unwritten {logT expT : Table} {x a : Elem} (hx : x ≠ 0) (ha : a ≠ 0)
    (hno : logT.read x = none ∨ logT.read a = none ∨
      ∃ lx la, logT.read x = some lx ∧ logT.read a = some la ∧ expT.read (logIndex lx la) = none) (d : Nat) :
    logmul logT expT x a d = (freeElem d, d + 1) := by
  simp only [logmul, hx, ha, or_self, if_false]
  rcases hno with h | h | ⟨lx, la, hlx, hla, h⟩
  · simp only [h]
  · cases logT.read x <;> simp only [h]
  · simp only [hlx, hla, h]

/-- Settles O17: both modes form one product, and the cases of the table product say what it is. -/
theorem muleLogReadsTheTablesAsTheyStand : Obligations.MuleLogReadsTheTablesAsTheyStand := by
  intro g s
  obtain ⟨ta, hra, hea, hda, hma, hna⟩ := mule_log .assign g s
  obtain ⟨tc, hrc, hec, hdc, hmc, hnc⟩ := mule_log .accumulate g s
  refine ⟨(prod s .log s.opnd s.scalar false s.draws).1, ta, tc, hra, hea, hrc, hec, hda, hma, hdc, hmc, ?_, ?_, ?_, ?_⟩
  · intro h
    simp [h]
  · intro h
    simp [h]
  · intro h0 h1 hx
    rw [prod_table h0 h1 (.inl rfl), hx]
    simp [logmul]
  · intro h0 h1 hx
    have hprod := prod_table h0 h1 (e := .log) (part := false) (.inl rfl) s s.opnd s.draws
    refine ⟨fun lx la v hlx hla hv => ?_, fun hno => ?_⟩
    · rw [logmul_written hx h0 hlx hla hv] at hprod
      simp [hna, hnc, hprod]
    · rw [logmul_unwritten hx h0 hno] at hprod
      simp [hna, hnc, hprod]

end Sys2Proof.Machine
end

section
/-! PROOFS. An undisturbed MULR: acceptance, one chunk after the other, completion (40_commands.md R136, R137, R144, R146; 70_reset_and_hazards.md R351). -/

namespace Sys2Proof.Machine

open Sys2Proof.Config

/-! ## One chunk (40_commands.md R146) -/

/-- What the latched command leaves in the element at byte offset o, by memory as it stands (40_commands.md R137). -/
def resultAt (s : State) (o : Nat) : Elem :=
  latchedResult s (readElem s.mem (s.latched.src.toNat + o)) (readElem s.mem (s.latched.dst.toNat + o)) (partialAt s o)

theorem readElem_congr {m m' : Memory} {a : Nat} (h0 : readByte m a = readByte m' a)
    (h1 : readByte m (a + 1) = readByte m' (a + 1)) : readElem m a = readElem m' a := by
  rw [readElem, readElem, h0, h1]

/-- A chunk whose accesses are all answered with ok and race with no ended command stores its results. -/
theorem chunkStep_eq_storeChunk {s : State} (g : Geometry s) (hk : s.k < s.latched.len.toNat)
    (hoff : OffWindow s (ChunkAccesses s)) (hans : AllAnswered s (ChunkAccesses s)) (hlate : NoLateRace s s.latched) :
    chunkStep s = .next (storeChunk s) := by
  obtain ⟨hreadSilent, hwriteSilent⟩ := hans.noneSilent.chunk
  obtain ⟨hreadOk, hwriteOk⟩ := hans.chunk
  simp only [chunkStep, hoff.chunk, phase_done _ hreadOk hreadSilent, phase_done _ hwriteOk hwriteSilent,
    (lateAccesses_nil g hk hlate).2, drawSpans, Bool.false_eq_true, if_false]

/-- A chunk that draws no free value changes memory and K only. -/
theorem storeChunk_frame {s : State} (g : Geometry s) (hk : s.k < s.latched.len.toNat) (hfree : NoFreeProducts s)
    (hlate : NoLateRace s s.latched) :
    storeChunk s = { s with mem := (storeChunk s).mem, k := s.k + chunkLen s } := by
  have hd := storeChunk_draws s
  rw [chunkValues_draws g hk hfree hlate] at hd
  conv_rhs => rw [← hd]
  rfl

theorem wf_storeChunk {s : State} (hm : s.mem.wf = true) : (storeChunk s).mem.wf = true := by
  rw [storeChunk_mem]
  split
  · exact wf_writeElems _ _ hm
  · exact hm

/-- Outside its own bytes of the destination a chunk changes nothing. -/
theorem readByte_storeChunk_outside (s : State) {a : Nat}
    (ha : a < s.latched.dst.toNat + s.k ∨ s.latched.dst.toNat + s.k + chunkLen s ≤ a) :
    readByte (storeChunk s).mem a = readByte s.mem a := by
  rw [storeChunk_mem]
  split
  · refine readByte_writeElems_outside _ _ ?_
    rw [length_chunkValues]
    omega
  · rfl

/-- A chunk that draws no free value leaves its result in each of its elements; the scalar 0 in ACCUMULATE, which
writes nothing, leaves the old value, which is the result there (40_commands.md R140). -/
theorem readElem_storeChunk {s : State} (g : Geometry s) (hk : s.k < s.latched.len.toNat) (hm : s.mem.wf = true)
    (hfree : NoFreeProducts s) (hlate : NoLateRace s s.latched) {o : Nat} (h1 : s.k ≤ o) (h2 : o < s.k + chunkLen s)
    (ho : o % 2 = 0) : readElem (storeChunk s).mem (s.latched.dst.toNat + o) = resultAt s o := by
  obtain ⟨hkEven, hlenEven, _⟩ := g.chunk hk
  obtain ⟨j, rfl⟩ : ∃ j, o = s.k + 2 * j := ⟨(o - s.k) / 2, by omega⟩
  have hj : j < chunkLen s / 2 := by omega
  rw [storeChunk_mem, resultAt, g.partialAt_eq hk h1 h2]
  by_cases hw : WritesMemory s.latched
  · rw [if_pos ((writesDest_iff _).2 hw), ← Nat.add_assoc,
      readElem_writeElems hm _ _ j (by rw [length_chunkValues]; exact hj)]
    simp [chunkValues_eq g hk hfree hlate hw, chunkOffsets, Nat.add_assoc]
  · rw [if_neg fun h => hw ((writesDest_iff _).1 h)]
    obtain ⟨hscalar, hmode⟩ := Classical.not_not.1 hw
    simp [latchedResult, latchedProduct, hscalar, hmode]

/-- The source elements behind a chunk are not among its destination bytes (20_memory.md R84, R85). -/
theorem readElem_storeChunk_source {s : State} (g : Geometry s) (hk : s.k < s.latched.len.toNat) {o : Nat}
    (h1 : s.k + chunkLen s ≤ o) (h2 : o < s.latched.len.toNat) (ho : o % 2 = 0) :
    readElem (storeChunk s).mem (s.latched.src.toNat + o) = readElem s.mem (s.latched.src.toNat + o) := by
  obtain ⟨_, _, _, hle, _⟩ := g.chunk hk
  have heven := g.lenEven
  have hout : ∀ i < 2, s.latched.src.toNat + o + i < s.latched.dst.toNat + s.k ∨
      s.latched.dst.toNat + s.k + chunkLen s ≤ s.latched.src.toNat + o + i := by
    intro i hi
    rcases g.apart with h | h
    · rw [h]
      omega
    · simp only [rangesMeet, Bool.and_eq_false_iff, decide_eq_false_iff_not] at h
      omega
  exact readElem_congr (readByte_storeChunk_outside s (hout 0 (by omega)))
    (readByte_storeChunk_outside s (hout 1 (by omega)))

/-- The destination elements behind a chunk are not among its bytes. -/
theorem readElem_storeChunk_target (s : State) {o : Nat} (h1 : s.k + chunkLen s ≤ o) :
    readElem (storeChunk s).mem (s.latched.dst.toNat + o) = readElem s.mem (s.latched.dst.toNat + o) :=
  readElem_congr (readByte_storeChunk_outside s (by omega)) (readByte_storeChunk_outside s (by omega))

/-- A chunk changes nothing that an element product reads. -/
theorem prod_storeChunk (s : State) : prod (storeChunk s) = prod s := rfl

/-- The results behind a chunk are the same after it. -/
theorem resultAt_storeChunk {s : State} (g : Geometry s) (hk : s.k < s.latched.len.toNat) {o : Nat}
    (h1 : s.k + chunkLen s ≤ o) (h2 : o < s.latched.len.toNat) (ho : o % 2 = 0) :
    resultAt (storeChunk s) o = resultAt s o := by
  rw [resultAt, storeChunk_latched, readElem_storeChunk_source g hk h1 h2 ho, readElem_storeChunk_target s h1]
  rfl

/-! ## A command that runs undisturbed (70_reset_and_hazards.md R351) -/

/-- A running command that nothing disturbs from K on: no event waits, no agent has raced with it, and each access that
it has still to make is off the register window, answered with ok and races with no ended command. -/
structure Undisturbed (s : State) : Prop where
  busy : s.status.busy = true
  noEvent : s.inputs = []
  notRaced : s.raced = false
  geometry : Geometry s
  memory : s.mem.wf = true
  offWindow : OffWindow s (CommandAccesses s.latched s.k)
  answered : AllAnswered s (CommandAccesses s.latched s.k)
  noFree : NoFreeProducts s
  noLate : NoLateRace s s.latched

/-- The number of chunks from K on (40_commands.md R142). -/
def chunksLeft (s : State) : Nat := (s.latched.len.toNat - s.k + s.latched.vw - 1) / s.latched.vw

theorem Geometry.chunksLeft_eq_zero {s : State} (g : Geometry s) : chunksLeft s = 0 ↔ s.k = s.latched.len.toNat := by
  have hv := g.vwPos
  have hle := g.kLe
  rw [chunksLeft, Nat.div_eq_zero_iff]
  omega

theorem Geometry.storeChunk {s : State} (g : Geometry s) (hk : s.k < s.latched.len.toNat) :
    Geometry (storeChunk s) := by
  obtain ⟨_, _, _, hle, hbound⟩ := g.chunk hk
  refine ⟨g.vwEven, g.vwPos, g.lenEven, hle, ?_, g.inside, g.apart, g.engine, g.last, g.derived, g.noReset⟩
  simp only [storeChunk_k, storeChunk_latched, chunkLen]
  by_cases hfull : s.latched.vw ≤ s.latched.len.toNat - s.k
  · left
    rw [Nat.min_eq_left hfull, Nat.add_mod_right, hbound]
  · right
    omega

theorem Geometry.chunksLeft_storeChunk {s : State} (g : Geometry s) (hk : s.k < s.latched.len.toNat) :
    chunksLeft s = chunksLeft (Machine.storeChunk s) + 1 := by
  have hv := g.vwPos
  simp only [chunksLeft, storeChunk_k, storeChunk_latched, chunkLen]
  by_cases hfull : s.latched.vw ≤ s.latched.len.toNat - s.k
  · rw [Nat.min_eq_left hfull, ← Nat.add_div_right _ hv]
    congr 1
    omega
  · rw [Nat.min_eq_right (by omega), show s.latched.len.toNat - (s.k + (s.latched.len.toNat - s.k)) = 0 by omega,
      Nat.div_eq_of_lt (by omega : 0 + s.latched.vw - 1 < s.latched.vw)]
    exact Nat.div_eq_of_lt_le (by omega) (by omega)

namespace Undisturbed

variable {s : State} (h : Undisturbed s)
include h

/-- With no event waiting the step is the unit's. -/
theorem step_eq : step s = unitStep s := by
  simp [step_nil h.noEvent, unitMove, h.busy, h.geometry.noReset]

/-- At the end of the region the step completes the command (40_commands.md R144). -/
theorem step_complete (hk : s.k = s.latched.len.toNat) : step s = .next (completeCommand s) := by
  rw [h.step_eq, unitStep, if_pos hk, settleRace, completeCommand_raced, h.notRaced]
  rfl

/-- Before it the step stores a chunk. -/
theorem step_chunk (hk : s.k < s.latched.len.toNat) : step s = .next (storeChunk s) := by
  rw [h.step_eq, unitStep, if_neg (by omega)]
  exact chunkStep_eq_storeChunk h.geometry hk
    (fun wr x hx => h.offWindow wr x (ChunkAccesses.command h.geometry hk hx))
    (fun wr x hx => h.answered wr x (ChunkAccesses.command h.geometry hk hx)) h.noLate

/-- After a chunk the command still runs undisturbed. -/
theorem storeChunk (hk : s.k < s.latched.len.toNat) : Undisturbed (storeChunk s) where
  busy := h.busy
  noEvent := h.noEvent
  notRaced := h.notRaced
  geometry := h.geometry.storeChunk hk
  memory := wf_storeChunk h.memory
  offWindow := fun wr x hx => h.offWindow wr x (hx.mono (Nat.le_add_right _ _))
  answered := fun wr x hx => h.answered wr x (hx.mono (Nat.le_add_right _ _))
  noFree := fun o h1 h2 ho => by
    have hfree := h.noFree o (le_trans (Nat.le_add_right _ _) h1) h2 ho
    rw [prod_storeChunk, storeChunk_latched, readElem_storeChunk_source h.geometry hk h1 h2 ho]
    exact hfree
  noLate := h.noLate

end Undisturbed

/-- What an undisturbed command leaves when it has ended in state t: its result in every element from K on, every other
byte of memory as it was, and the rest of the block as completion leaves it. -/
structure Completes (s t : State) : Prop where
  state : t = completeCommand { s with mem := t.mem, k := s.latched.len.toNat }
  results : ∀ o, s.k ≤ o → o < s.latched.len.toNat → o % 2 = 0 →
    readElem t.mem (s.latched.dst.toNat + o) = resultAt s o
  outside : ∀ a, a < s.latched.dst.toNat + s.k ∨ s.latched.dst.toNat + s.latched.len.toNat ≤ a →
    readByte t.mem a = readByte s.mem a

/-- Completing at the end of the region is completing with nothing left to store. -/
theorem completes_completeCommand {s : State} (hk : s.k = s.latched.len.toNat) : Completes s (completeCommand s) where
  state := by rw [← hk]; rfl
  results := fun o h1 h2 => by omega
  outside := fun _ _ => rfl

/-- A command completes from before a chunk as it does from behind it. -/
theorem Undisturbed.completes_of_storeChunk {s t : State} (h : Undisturbed s) (hk : s.k < s.latched.len.toNat)
    (ht : Completes (Machine.storeChunk s) t) : Completes s t := by
  obtain ⟨_, _, _, hle, _⟩ := h.geometry.chunk hk
  have houtside := ht.outside
  simp only [storeChunk_k, storeChunk_latched] at houtside
  refine ⟨?_, fun o h1 h2 ho => ?_, fun a ha => ?_⟩
  · have hstate := ht.state
    rwa [storeChunk_frame h.geometry hk h.noFree h.noLate] at hstate
  · by_cases hlater : s.k + chunkLen s ≤ o
    · exact (ht.results o hlater h2 ho).trans (resultAt_storeChunk h.geometry hk hlater h2 ho)
    · have heven := (h.geometry.chunk hk).2.1
      have hkEven := (h.geometry.chunk hk).1
      rw [← readElem_storeChunk h.geometry hk h.memory h.noFree h.noLate h1 (by omega) ho]
      exact readElem_congr (houtside _ (by omega)) (houtside _ (by omega))
  · rw [houtside a (by omega), readByte_storeChunk_outside s (by omega)]

/-- An undisturbed command completes in one step for each chunk left and one more. -/
theorem Undisturbed.run {s : State} (h : Undisturbed s) :
    ∃ t, Host.Core.run Sys2Proof.core (chunksLeft s + 1) s = .next t ∧ Completes s t := by
  induction hn : chunksLeft s generalizing s with
  | zero =>
    have hk := h.geometry.chunksLeft_eq_zero.1 hn
    exact ⟨_, run_succ 0 (h.step_complete hk), completes_completeCommand hk⟩
  | succ n ih =>
    have hk : s.k < s.latched.len.toNat :=
      lt_of_le_of_ne h.geometry.kLe fun hk => by
        have := h.geometry.chunksLeft_eq_zero.2 hk
        omega
    have hleft := h.geometry.chunksLeft_storeChunk hk
    obtain ⟨t, hrun, ht⟩ := ih (h.storeChunk hk) (by omega)
    exact ⟨t, (run_succ _ (h.step_chunk hk)).trans hrun, h.completes_of_storeChunk hk ht⟩

/-! ## Acceptance (40_commands.md R136, R143) -/

/-- Each value of a map that may draw is the function's at some count. -/
theorem mem_mapDraw {α β : Type} {f : α → Nat → β × Nat} {l : List α} {d : Nat} {y : β} (h : y ∈ (mapDraw f l d).1) :
    ∃ x d', y = (f x d').1 := by
  induction l generalizing d with
  | nil => cases h
  | cons x xs ih =>
    rcases List.mem_cons.1 h with rfl | h
    · exact ⟨x, d, rfl⟩
    · exact ih h

/-- DT has the shape of its granularity, whatever the tables hold (42_table_shuffle.md R190). -/
theorem dtShaped_buildDT (s : State) (g : Gran) (a : Elem) (d : Nat) : dtShaped g (buildDT s g a d).1 = true := by
  simp only [dtShaped, Bool.and_eq_true, beq_iff_eq, List.all_eq_true]
  refine ⟨by simp [buildDT], fun sub hsub => ?_⟩
  obtain ⟨k, d', rfl⟩ := mem_mapDraw hsub
  simp [subTable]

/-- Acceptance builds the derived state that its engine reads. -/
theorem derivedReady_accept (m : Mode) (e : Engine) (g : Gran) (s : State) : derivedReady (accept m e g s) = true := by
  by_cases hsc : shortCircuit s.scalar = true
  · simp [derivedReady, hsc]
  · cases e <;> simp [derivedReady, accept, buildDerived, hsc, fillDT, fillAM, dtShaped_buildDT]

/-- The polynomial of a legal parameter set has degree 16 (00_scope.md R6). -/
theorem Inv.polyMonic {s : State} (hi : Inv s) : s.params.polyMonic = true := by
  have hl := hi.legal
  simp only [Params.legal, Bool.and_eq_true] at hl
  obtain ⟨⟨⟨_, hp⟩, _⟩, _⟩ := hl
  exact hp

/-- A MULR that names a present engine and passes its checks is accepted (60_exceptions.md R303). -/
theorem exec_mulr_accept {e : Engine} {s : State} (he : present s.params e = true) (hlen : LenEven s)
    (hin : InAddressSpace s) (hov : NoPartialOverlap s) (m : Mode) (g : Gran) :
    exec (mulInstr .mulr m (.named e) g) s = .next (accept m e g (setLastEngine e s)) := by
  have hop : operandError s = none := by simp [operandError_eq, hlen, hin, hov]
  simp only [exec_mulr, mulrAccept, resolve_named, he, if_true, hop]

/-- The geometry of a command just accepted. -/
theorem geometry_accept {e : Engine} {s : State} (hl : s.params.legal = true) (hr : s.inReset = false)
    (he : present s.params e = true) (hlen : LenEven s) (hin : InAddressSpace s) (hov : NoPartialOverlap s) (m : Mode)
    (g : Gran) : Geometry (accept m e g (setLastEngine e s)) := by
  simp only [Params.legal, Bool.and_eq_true] at hl
  obtain ⟨hvEven, hvPos⟩ := chunkWidth_even hl.2 e
  refine ⟨by simpa using hvEven, by simpa using hvPos, by simpa [LenEven] using hlen, by simp, by simp,
    by simpa [InAddressSpace] using hin, ?_,
    by simpa using he, by simp, derivedReady_accept m e g _, by simpa using hr⟩
  simp only [accept_latched, setLastEngine_src, setLastEngine_dst, setLastEngine_len, rangesMeet,
    Bool.and_eq_false_iff, decide_eq_false_iff_not]
  rcases hov with h | h
  · exact .inl h
  · right
    omega

/-- A command just accepted multiplies in the field, where the tables it reads are consistent (40_commands.md R139). -/
theorem prod_accept {e : Engine} {s : State} (hp : s.params.polyMonic = true) (hc : ConsistentWhereRead s e s.scalar)
    (m : Mode) (g : Gran) (x : Elem) (part : Bool) (d : Nat) :
    prod (accept m e g (setLastEngine e s)) e x s.scalar part d = (gfmul s.params.poly x s.scalar, d) :=
  prod_buildDerived (s := latch m e g (setLastEngine e s)) hp hc x part d

/-- The bytes that memory answers are the same for a command just accepted. -/
theorem byteAnswer_accept (m : Mode) (e : Engine) (g : Gran) (s : State) :
    byteAnswer (accept m e g (setLastEngine e s)) = byteAnswer s := by
  funext wr a
  simp only [byteAnswer, accept_params, accept_busMap, setLastEngine_params, setLastEngine_busMap]

section
variable {m : Mode} {e : Engine} {g : Gran} {s : State}

/-- A MULR runs undisturbed from its acceptance where its accesses are off the window, answered, and race with none. -/
theorem undisturbed_accept (hi : Inv s) (hready : Ready s) (hev : s.inputs = [])
    (hoff : OffWindow s (CommandAccesses ⟨s.src, s.dst, s.len, s.scalar, m, e, g, chunkWidth s.params e⟩ 0))
    (hans : AllAnswered s (CommandAccesses ⟨s.src, s.dst, s.len, s.scalar, m, e, g, chunkWidth s.params e⟩ 0))
    (hc : ConsistentWhereRead s e s.scalar) (he : present s.params e = true) (hlen : LenEven s) (hin : InAddressSpace s)
    (hov : NoPartialOverlap s)
    (hlate : NoLateRace s ⟨s.src, s.dst, s.len, s.scalar, m, e, g, chunkWidth s.params e⟩) :
    Undisturbed (accept m e g (setLastEngine e s)) where
  busy := by simp
  noEvent := by simpa using hev
  notRaced := by simp
  geometry := geometry_accept hi.legal hready.2 he hlen hin hov m g
  memory := by simpa using hi.memory
  offWindow := fun wr x hx hw => hoff wr x (by simpa using hx) (by simpa [InWindow] using hw)
  answered := fun wr x hx => by
    rw [byteAnswer_accept]
    exact hans wr x (by simpa using hx)
  noFree := fun o _ _ _ => by
    rw [accept_latched]
    exact congrArg Prod.snd (prod_accept hi.polyMonic hc m g _ _ 0)
  noLate := by simpa [NoLateRace, endedSpans] using hlate

end

/-- Settles O39: acceptance starts a command that runs undisturbed, so it completes with its results, and each of its
products is the field product. -/
theorem regionMultiplyGivesTheFieldProducts : Obligations.RegionMultiplyGivesTheFieldProducts := by
  intro m e g s hi hready hev l hoff hans hc he hlen hin hov hlate
  obtain ⟨u, hrun, hu⟩ := (undisturbed_accept hi hready hev hoff hans hc he hlen hin hov hlate).run
  refine ⟨_, u, exec_mulr_accept he hlen hin hov m g, ?_, ?_, fun o ho heven => ?_, fun a ha => ?_⟩
  · simpa [chunksLeft] using hrun
  · rw [hu.state]
    simp [setLastEngine]
  · have hres := hu.results o (by simp) (by simpa using ho) heven
    simp only [accept_latched, setLastEngine_dst] at hres
    rw [hres]
    cases m <;> simp [resultAt, latchedResult, latchedProduct, prod_accept hi.polyMonic hc]
  · simpa using hu.outside a (by simpa using ha)

end Sys2Proof.Machine
end

section
/-! PROOFS. The invariant of the machine: what a command, a register write and the unit's move can do, said once, and that each of them keeps the invariant (10_state.md R29 to R50; 40_commands.md R130, R136, R144, R146). -/

namespace Sys2Proof.Machine

open Sys2Proof.Config

/-! ## What a command and a register write can do -/

/-- What a decoded command does at a CMD write that finds the unit idle (40_commands.md R130 to R141). -/
inductive ExecOutcome (i : Instr) (s t : State) : Prop where
  | nop (hi : i = .nop) (h : t = endOk s)
  | sel (hi : i = .sel) (h : t = endOk (setLastEngine (select s s.len) s))
  /-- the named engine is absent -/
  | absent (h : t = raiseError .engineAbsent s)
  /-- a MULR whose operands fail a check -/
  | illegal (e : Engine) (c : ErrCode) (h : t = raiseError c (setLastEngine e s))
  /-- a MULR whose checks pass -/
  | accepted (m : Mode) (sel : EngSel) (e : Engine) (g : Gran) (hi : i = mulInstr .mulr m sel g)
      (he : present s.params e = true) (ho : operandError s = none) (h : t = accept m e g (setLastEngine e s))
  /-- a MULE on a present engine -/
  | mule (m : Mode) (sel : EngSel) (e : Engine) (g : Gran) (hi : i = mulInstr .mule m sel g) (h : t = muleEnd m e g s)

/-- Every command ends its write in one of the outcomes. -/
theorem exec_outcome {i : Instr} {s t : State} (h : exec i s = .next t) : ExecOutcome i s t := by
  rcases instr_cases i with rfl | rfl | ⟨op, m, sel, g, rfl⟩
  · exact .nop rfl (by injection h with h; exact h.symm)
  · exact .sel rfl (by injection h with h; exact h.symm)
  · cases op with
    | mulr =>
      rw [exec_mulr] at h
      rcases mulrAccept_cases m sel g s with ⟨_, ha⟩ | ⟨e, c, _, _, ha⟩ | ⟨e, hr, ho, ha⟩ <;> rw [ha] at h <;>
        injection h with h
      · exact .absent h.symm
      · exact .illegal e c h.symm
      · exact .accepted m sel e g rfl (present_of_resolve hr) ho h.symm
    | mule =>
      rw [exec_mule] at h
      rcases mule_cases m sel g s with ⟨_, ha⟩ | ⟨e, _, ha⟩ <;> rw [ha] at h <;> injection h with h
      · exact .absent h.symm
      · exact .mule m sel e g rfl h.symm

/-- An address register that the host writes is the old one or a masked one (10_state.md R32, R33). -/
def AddrWritten (p : Params) (old new : Addr) : Prop := new = old ∨ ∃ a, new = maskAddr p a

/-- What a 32-bit write to register r does (10_state.md R20 to R43, R52). -/
inductive WriteOutcome (r : Reg) (w : Word) (s t : State) : Prop where
  /-- a plain register takes the write, or a read-only one ignores it -/
  | plain (hr : r ≠ .status ∧ r ≠ .cmd ∧ r ≠ .tblData) (c : Ctrl) (th ln : Word) (sr ds : Addr) (sc op : Elem)
      (ta : TblAddr) (us : List Ended) (hsr : AddrWritten s.params s.src sr) (hds : AddrWritten s.params s.dst ds)
      (h : t = { s with
        ctrl := c, thresh := th, len := ln, src := sr, dst := ds, scalar := sc, opnd := op, tblAddr := ta
        unobserved := us })
  /-- STATUS clears the bits named -/
  | status (hr : r = .status) (h : t = noteIrq (acknowledge w s))
  /-- a busy block drops CMD and TBL_DATA writes -/
  | dropped (hb : s.status.busy = true) (h : t = dropWrite s)
  /-- an idle block takes a table entry -/
  | stored (hr : r = .tblData) (hb : s.status.busy = false) (h : t = tblDataStore w s)
  /-- an idle block takes the error of a word that is no command -/
  | badWord (hr : r = .cmd) (hb : s.status.busy = false) (e : DecodeError) (h : t = raiseError (.ofDecode e) s)
  /-- an idle block runs a command -/
  | command (hr : r = .cmd) (hb : s.status.busy = false) (i : Instr) (hd : decode w = .ok i) (h : ExecOutcome i s t)

/-- Every register write has one of the outcomes. -/
theorem writeReg_outcome {r : Reg} {w : Word} {s t : State} (h : writeReg r w s = .next t) : WriteOutcome r w s t := by
  cases r
  case cmd =>
    rcases cmdWrite_cases w s with ⟨hb, hc⟩ | ⟨hb, e, _, hc⟩ | ⟨hb, i, hd, hc⟩ <;> rw [writeReg, hc] at h
    · injection h with h
      exact .dropped hb h.symm
    · injection h with h
      exact .badWord rfl hb e h.symm
    · exact .command rfl hb i hd (exec_outcome h)
  case tblData =>
    injection h with h
    cases hb : s.status.busy with
    | true => exact .dropped hb (by rw [← h, tblDataWrite, if_pos hb])
    | false => exact .stored rfl hb (by simp [← h, tblDataWrite, hb])
  all_goals injection h with h
  case status => exact .status rfl h.symm
  case srcLo | srcHi =>
    exact .plain (by simp) s.ctrl s.thresh s.len _ s.dst s.scalar s.opnd s.tblAddr s.unobserved (.inr ⟨_, rfl⟩)
      (.inl rfl) h.symm
  case dstLo | dstHi =>
    exact .plain (by simp) s.ctrl s.thresh s.len s.src _ s.scalar s.opnd s.tblAddr s.unobserved (.inl rfl)
      (.inr ⟨_, rfl⟩) h.symm
  all_goals exact .plain (by simp) _ _ _ s.src s.dst _ _ _ _ (.inl rfl) (.inl rfl) h.symm

/-! ## The parts of the invariant -/

/-- A legal address width is 32 to 64 (00_scope.md R6). -/
theorem aw_bounds {p : Params} (h : p.awLegal = true) : 32 ≤ p.aw ∧ p.aw ≤ 64 := by
  simpa [Params.awLegal] using h

theorem awLegal_of_legal {p : Params} (h : p.legal = true) : p.awLegal = true := by
  simp only [Params.legal, Bool.and_eq_true] at h
  obtain ⟨⟨⟨⟨_, haw⟩, _⟩, _⟩, _⟩ := h
  exact haw

/-- A masked address holds P_AW bits (10_state.md R32, R39). -/
theorem maskAddr_lt {p : Params} (hp : p.legal = true) (a : Addr) : (maskAddr p a).toNat < 2 ^ p.aw := by
  rw [toNat_maskAddr (aw_bounds (awLegal_of_legal hp)).2]
  exact Nat.mod_lt _ (Nat.two_pow_pos _)

theorem AddrWritten.lt {p : Params} {old new : Addr} (h : AddrWritten p old new) (hp : p.legal = true)
    (ho : old.toNat < 2 ^ p.aw) : new.toNat < 2 ^ p.aw := by
  rcases h with rfl | ⟨a, rfl⟩
  · exact ho
  · exact maskAddr_lt hp a

/-- The error codes that exist are 1 to 8 (60_exceptions.md R301). -/
theorem errCode_le (c : ErrCode) : c.code.toNat ≤ 8 := by cases c <;> decide

/-- The engine codes are 1 to 5 (30_encoding.md R104). -/
theorem engineCode_le (e : Engine) : e.code.toNat ≤ 5 := by cases e <;> decide

theorem operandError_eq_none {s : State} (h : operandError s = none) :
    LenEven s ∧ InAddressSpace s ∧ NoPartialOverlap s := by
  by_contra hc
  rw [operandError_eq] at h
  split_ifs at h with h1 h2 h3
  exact hc ⟨h1, h2, h3⟩

/-- A command that has the geometry of the invariant, with its engine's chunk width, is legal (40_commands.md R136). -/
theorem Geometry.runningLegal {s : State} (g : Geometry s) (hv : s.latched.vw = chunkWidth s.params s.latched.eng) :
    runningLegal s = true := by
  simp only [Machine.runningLegal, latchedLegal, progressLegal, Bool.and_eq_true, Bool.or_eq_true, beq_iff_eq,
    decide_eq_true_eq, Bool.not_eq_true']
  exact ⟨⟨⟨⟨⟨⟨⟨⟨g.lenEven, g.inside⟩, g.apart⟩, g.engine⟩, hv⟩, g.derived⟩, g.kLe, g.kBound⟩, g.last⟩, g.noReset⟩

/-- The chunk width of a running command is its engine's (40_commands.md R142). -/
theorem Inv.latchedWidth {s : State} (hi : Inv s) (hb : s.status.busy = true) :
    s.latched.vw = chunkWidth s.params s.latched.eng := by
  have hr := hi.running hb
  simp only [runningLegal, latchedLegal, Bool.and_eq_true, beq_iff_eq] at hr
  obtain ⟨⟨⟨⟨⟨_, hv⟩, _⟩, _⟩, _⟩, _⟩ := hr
  exact hv

/-- An idle block is not raced with. -/
theorem Inv.notRaced {s : State} (hi : Inv s) (hb : s.status.busy = false) : s.raced = false := by
  cases hr : s.raced with
  | false => rfl
  | true =>
    have := hi.raced hr
    simp [hb] at this

/-! ## Changes that keep the invariant -/

/-- The invariant does not read CTRL, the pending bits, the operands but SRC and DST, the agents, or which canonical
memory there is. -/
theorem Inv.frame {s t : State} (hi : Inv s) (hm : t.mem.wf = true) (hr : t.raced = true → s.status.busy = true)
    (h : t = { s with
      ctrl := t.ctrl
      status := { s.status with done := t.status.done, err := t.status.err, ovr := t.status.ovr }
      thresh := t.thresh, len := t.len, scalar := t.scalar, opnd := t.opnd, tblAddr := t.tblAddr, mem := t.mem
      busMap := t.busMap, inputs := t.inputs, reply := t.reply, raced := t.raced, unobserved := t.unobserved
      draws := t.draws }) : Inv t := by
  rw [h]
  exact ⟨hi.legal, hm, hi.logTable, hi.expTable, hi.src, hi.dst, hi.fault, hi.errCode, hi.lastEngine, hr, hi.running⟩

/-- Destination bytes that take any value keep the invariant. -/
theorem Inv.drawSpans {s : State} (hi : Inv s) (ps : List Span) : Inv (drawSpans ps s) := by
  rw [drawSpans_frame]
  exact hi.frame (wf_drawSpans ps hi.memory) hi.raced rfl

/-- The parameters, SRC, DST and the tables are the same in two states. -/
structure SameBase (s t : State) : Prop where
  params : t.params = s.params
  src : t.src = s.src
  dst : t.dst = s.dst
  logTbl : t.logTbl = s.logTbl
  expTbl : t.expTbl = s.expTbl

/-- A block left idle meets the invariant where the status values and FAULT are legal. -/
theorem Inv.idle {s t : State} (hi : Inv s) (hs : SameBase s t) (hm : t.mem.wf = true)
    (hf : t.fault.toNat < 2 ^ s.params.aw) (he : t.status.errCode.toNat ≤ 8) (hl : t.status.lastEngine.toNat ≤ 5)
    (hr : t.raced = false) (hb : t.status.busy = false) : Inv t := by
  obtain ⟨hp, hsrc, hdst, hlog, hexp⟩ := hs
  refine ⟨?_, hm, ?_, ?_, ?_, ?_, ?_, he, hl, by simp [hr], by simp [hb]⟩
  · exact hp ▸ hi.legal
  · exact hlog ▸ hi.logTable
  · exact hexp ▸ hi.expTable
  · rw [hsrc, hp]
    exact hi.src
  · rw [hdst, hp]
    exact hi.dst
  · rw [hp]
    exact hf

theorem wf_settleRace {s : State} (hm : s.mem.wf = true) : (settleRace s).mem.wf = true := by
  unfold settleRace
  split
  · exact wf_drawBytes _ _ _ hm
  · exact hm

/-! ## Commands -/

/-- A MULR that passes its checks keeps the invariant: what it starts is a legal command (40_commands.md R136, R143). -/
theorem Inv.accept {s : State} (hi : Inv s) (hr : s.inReset = false) {e : Engine} (he : present s.params e = true)
    (ho : operandError s = none) (m : Mode) (g : Gran) : Inv (accept m e g (setLastEngine e s)) := by
  obtain ⟨hlen, hin, hov⟩ := operandError_eq_none ho
  have hgeo := geometry_accept hi.legal hr he hlen hin hov m g
  refine ⟨?_, ?_, ?_, ?_, ?_, ?_, ?_, ?_, ?_, by simp, fun _ => hgeo.runningLegal (by simp)⟩
  · simpa using hi.legal
  · simpa using hi.memory
  · simpa using hi.logTable
  · simpa using hi.expTable
  · simpa using hi.src
  · simpa using hi.dst
  · simpa using hi.fault
  · simpa using hi.errCode
  · simpa using engineCode_le e

/-- Every command keeps the invariant. -/
theorem ExecOutcome.inv {i : Instr} {s t : State} (h : ExecOutcome i s t) (hi : Inv s) (hr : s.inReset = false)
    (hb : s.status.busy = false) : Inv t := by
  have hraced := hi.notRaced hb
  cases h with
  | nop _ h =>
    subst h
    exact hi.idle ⟨rfl, rfl, rfl, rfl, rfl⟩ hi.memory hi.fault (by simp) hi.lastEngine hraced hb
  | sel _ h =>
    subst h
    exact hi.idle ⟨rfl, rfl, rfl, rfl, rfl⟩ hi.memory hi.fault (by simp) (engineCode_le _) hraced hb
  | absent h =>
    subst h
    exact hi.idle ⟨rfl, rfl, rfl, rfl, rfl⟩ hi.memory hi.fault (errCode_le _) hi.lastEngine hraced rfl
  | illegal e c h =>
    subst h
    exact hi.idle ⟨rfl, rfl, rfl, rfl, rfl⟩ hi.memory hi.fault (errCode_le _) (engineCode_le e) hraced rfl
  | accepted m _ e g _ he ho h =>
    subst h
    exact hi.accept hr he ho m g
  | mule m _ e g _ h =>
    subst h
    obtain ⟨hstatus, _, _, _, hrace, hframe⟩ := muleEnd_ends m e g s
    refine hi.idle ⟨hframe.params, hframe.src, hframe.dst, hframe.logTbl, hframe.expTbl⟩ ?_ ?_ ?_ ?_ ?_ ?_
    · simpa [muleEnd, muleReady] using hi.memory
    · rw [hframe.fault]
      exact hi.fault
    · simp [hstatus, muleStatus]
    · rw [hstatus]
      exact engineCode_le e
    · rw [hrace, hraced]
    · rw [hstatus]
      exact hb

/-! ## Register writes -/

/-- A table entry written keeps the invariant: the tree keeps its form (10_state.md R42). -/
theorem Inv.tblDataStore {s : State} (hi : Inv s) (w : Word) : Inv (tblDataStore w s) := by
  unfold Machine.tblDataStore
  split
  · exact ⟨hi.legal, hi.memory, hi.logTable, wf_write _ _ _ hi.expTable, hi.src, hi.dst, hi.fault, hi.errCode,
      hi.lastEngine, hi.raced, hi.running⟩
  · exact ⟨hi.legal, hi.memory, wf_write _ _ _ hi.logTable, hi.expTable, hi.src, hi.dst, hi.fault, hi.errCode,
      hi.lastEngine, hi.raced, hi.running⟩

/-- Every register write keeps the invariant. -/
theorem WriteOutcome.inv {r : Reg} {w : Word} {s t : State} (h : WriteOutcome r w s t) (hi : Inv s)
    (hr : s.inReset = false) : Inv t := by
  cases h with
  | plain _ c th ln sr ds sc op ta us hsr hds h =>
    subst h
    exact ⟨hi.legal, hi.memory, hi.logTable, hi.expTable, hsr.lt hi.legal hi.src, hds.lt hi.legal hi.dst, hi.fault,
      hi.errCode, hi.lastEngine, hi.raced, hi.running⟩
  | status _ h =>
    subst h
    exact hi.frame hi.memory hi.raced rfl
  | dropped _ h =>
    subst h
    exact hi.frame hi.memory hi.raced rfl
  | stored _ _ h =>
    subst h
    exact hi.tblDataStore w
  | badWord _ hb e h =>
    subst h
    exact hi.idle ⟨rfl, rfl, rfl, rfl, rfl⟩ hi.memory hi.fault (errCode_le _) hi.lastEngine (hi.notRaced hb) rfl
  | command _ hb i _ h => exact h.inv hi hr hb

/-! ## The unit's move -/

/-- A command that completes keeps the invariant (40_commands.md R144). -/
theorem Inv.complete {s : State} (hi : Inv s) : Inv (settleRace (completeCommand s)) :=
  hi.idle ⟨by simp, by simp, by simp, by simp, by simp⟩ (wf_settleRace hi.memory) (by simpa using hi.fault) (by simp)
    (by simpa using hi.lastEngine) (by simp) (by simp)

/-- A command that ends by a bus error keeps the invariant (60_exceptions.md R304). -/
theorem Inv.busFault {s : State} (hi : Inv s) (a : Nat) : Inv (settleRace (busFault a s)) :=
  hi.idle ⟨by simp, by simp, by simp, by simp, by simp⟩ (wf_settleRace hi.memory)
    (by simpa using maskAddr_lt hi.legal _) (by simp) (by simpa using hi.lastEngine) (by simp) (by simp)

theorem wf_tearChunk {s : State} (hm : s.mem.wf = true) : (tearChunk s).mem.wf = true := wf_tearBytes _ _ _ hm

/-- A chunk that succeeds keeps the invariant: K moves to the next chunk boundary (40_commands.md R146). -/
theorem Inv.storeChunk {s : State} (hi : Inv s) (hb : s.status.busy = true) (hk : s.k < s.latched.len.toNat) :
    Inv (storeChunk s) :=
  ⟨hi.legal, wf_storeChunk hi.memory, hi.logTable, hi.expTable, hi.src, hi.dst, hi.fault, hi.errCode, hi.lastEngine,
    hi.raced, fun _ => ((geometry hi hb).storeChunk hk).runningLegal (hi.latchedWidth hb)⟩

/-- Before the end of its region, K is below the length. -/
theorem Inv.k_lt {s : State} (hi : Inv s) (hb : s.status.busy = true) (hk : s.k ≠ s.latched.len.toNat) :
    s.k < s.latched.len.toNat :=
  lt_of_le_of_ne (geometry hi hb).kLe hk

/-- Every move of the unit keeps the invariant. -/
theorem UnitOutcome.inv {s t : State} (h : UnitOutcome s t) (hi : Inv s) (hb : s.status.busy = true) : Inv t := by
  cases h with
  | waiting _ ps _ h =>
    subst h
    exact hi.drawSpans ps
  | completed _ h =>
    subst h
    exact hi.complete
  | readFault a _ _ _ h =>
    subst h
    have hdrawn : Inv { s with draws := s.draws + 1 } := hi.frame hi.memory hi.raced rfl
    exact (hdrawn.drawSpans _).busFault a
  | writeFault a _ _ _ h =>
    subst h
    have htorn : Inv (tearChunk s) := hi.frame (wf_tearChunk hi.memory) hi.raced rfl
    exact (htorn.drawSpans _).busFault a
  | stored hk h =>
    subst h
    exact (hi.storeChunk hb (hi.k_lt hb hk)).drawSpans _

/-! ## Reset and the other agents -/

theorem wf_abandonCommand {s : State} (hm : s.mem.wf = true) : (abandonCommand s).mem.wf = true := by
  unfold abandonCommand
  split
  · split <;> exact wf_drawBytes _ _ _ hm
  · exact hm

/-- Reset leaves a state that meets the invariant, whatever it meets (10_state.md R51). -/
theorem Inv.resetEvent {s : State} (hi : Inv s) : Inv (resetEvent s) :=
  ⟨hi.legal, wf_abandonCommand hi.memory, rfl, rfl, Nat.two_pow_pos _, Nat.two_pow_pos _, Nat.two_pow_pos _,
    Nat.zero_le _, Nat.zero_le _, nofun, nofun⟩

/-- Releasing reset changes nothing of a running command: none runs while reset is asserted. -/
theorem Inv.release {s : State} (hi : Inv s) (es : List Event) : Inv { s with inputs := es, inReset := false } :=
  ⟨hi.legal, hi.memory, hi.logTable, hi.expTable, hi.src, hi.dst, hi.fault, hi.errCode, hi.lastEngine, hi.raced,
    fun hb => by
      rw [← (geometry hi hb).noReset]
      exact hi.running hb⟩

/-- An access that races marks a running command (20_memory.md R83). -/
theorem Inv.raced_or {s : State} (hi : Inv s) {b : Bool} (hb : b = true → s.status.busy = true)
    (h : (s.raced || b) = true) : s.status.busy = true :=
  (Bool.or_eq_true _ _ ▸ h).elim hi.raced hb

theorem busy_of_storeRaces {s : State} {a n : Nat} (h : storeRaces s a n = true) : s.status.busy = true := by
  simp only [storeRaces, Bool.and_eq_true] at h
  exact h.1

theorem busy_of_loadRaces {s : State} {a n : Nat} (h : loadRaces s a n = true) : s.status.busy = true := by
  simp only [loadRaces, Bool.and_eq_true] at h
  exact h.1

/-- Settles O52: each outcome of a step keeps the invariant. -/
theorem everyStepKeepsTheInvariant : Obligations.EveryStepKeepsTheInvariant := by
  intro s t hi hstep
  have hin : ∀ es, Inv (withInputs es s) := fun es => hi.frame hi.memory hi.raced rfl
  cases step_outcome hstep with
  | unit es _ h =>
    rcases h with rfl | ⟨hb, _, h⟩
    · exact hin es
    · exact h.inv (hin es) hb
  | reset es _ h =>
    subst h
    exact (hin es).resetEvent
  | wrote es r w _ hr h =>
    have hwrite : Inv (withReply .written (withInputs es s)) := (hin es).frame hi.memory hi.raced rfl
    exact (writeReg_outcome h).inv hwrite hr
  | store es a bs _ h =>
    subst h
    apply Inv.drawSpans
    exact hi.frame (wf_writeBytes bs a hi.memory) (hi.raced_or busy_of_storeRaces) rfl
  | load es a n _ h =>
    subst h
    apply Inv.drawSpans
    exact hi.frame hi.memory (hi.raced_or busy_of_loadRaces) rfl
  | quiet ta d es rp us _ h =>
    subst h
    exact hi.frame hi.memory hi.raced rfl
  | release es h =>
    subst h
    exact hi.release es
  | remap es map h =>
    subst h
    exact hi.frame hi.memory hi.raced rfl

/-- The default parameters are legal (00_scope.md R6). -/
theorem default_legal : Params.default.legal = true := by decide +kernel

/-- Settles O53: every part is about the constants of reset. -/
theorem resetMeetsTheInvariant : Obligations.ResetMeetsTheInvariant :=
  ⟨default_legal, rfl, rfl, rfl, by decide, by decide, by decide, by decide, by decide, nofun, nofun⟩

end Sys2Proof.Machine
end

section
/-! PROOFS. Rules of the whole machine: what no step changes, and the one writer of each of STATUS's bits, RESULT, FAULT and the tables (10_state.md R21, R22, R25 to R28, R37, R39, R40, R42). -/

namespace Sys2Proof.Machine

open Sys2Proof.Config

/-! ## What a step can do to the block's registers -/

/-- An agent's action that is no register write and no reset leaves these registers of the block alone. -/
structure SameBlock (s t : State) : Prop where
  params : t.params = s.params
  status : t.status = s.status
  result : t.result = s.result
  fault : t.fault = s.fault
  logTbl : t.logTbl = s.logTbl
  expTbl : t.expTbl = s.expTbl

/-- What a step can do to the block's registers: a move of the running unit, reset, a register write, or nothing. -/
inductive StepEffect (s t : State) : Prop where
  | unit (es : List Event) (hm : UnitMoves s) (hb : s.status.busy = true) (h : UnitOutcome (withInputs es s) t)
  | reset (es : List Event) (ha : AssertsReset s) (h : t = resetEvent (withInputs es s))
  | wrote (es : List Event) (r : Reg) (w : Word) (hw : WritesReg s r w)
      (h : WriteOutcome r w (withReply .written (withInputs es s)) t)
  | nothing (h : SameBlock s t)

theorem step_effect {s t : State} (h : step s = .next t) : StepEffect s t := by
  cases step_outcome h with
  | unit es hm h =>
    rcases h with rfl | ⟨hb, _, h⟩
    · exact .nothing ⟨rfl, rfl, rfl, rfl, rfl, rfl⟩
    · exact .unit es hm hb h
  | reset es hin h => exact .reset es ⟨es, hin⟩ h
  | wrote es r w hw _ h => exact .wrote es r w hw (writeReg_outcome h)
  | store es a bs _ h =>
    subst h
    exact .nothing (by constructor <;> simp)
  | load es a n _ h =>
    subst h
    exact .nothing (by constructor <;> simp)
  | quiet ta d es rp us _ h =>
    subst h
    exact .nothing ⟨rfl, rfl, rfl, rfl, rfl, rfl⟩
  | release es h =>
    subst h
    exact .nothing ⟨rfl, rfl, rfl, rfl, rfl, rfl⟩
  | remap es map h =>
    subst h
    exact .nothing ⟨rfl, rfl, rfl, rfl, rfl, rfl⟩

/-! ## What the unit's move leaves -/

theorem UnitOutcome.sameBase {s t : State} (h : UnitOutcome s t) : SameBase s t := by
  cases h with
  | _ => subst_vars; constructor <;> simp

theorem UnitOutcome.result {s t : State} (h : UnitOutcome s t) : t.result = s.result := by
  cases h with
  | _ => subst_vars; simp

/-- A move of the unit keeps STATUS and FAULT, or completes the command, or ends it by a bus error, which alone writes
FAULT (40_commands.md R144, 60_exceptions.md R304). -/
theorem UnitOutcome.status {s t : State} (h : UnitOutcome s t) :
    (t.status = s.status ∧ t.fault = s.fault) ∨
    (t.status = { s.status with busy := false, done := true, errCode := 0 } ∧ t.fault = s.fault) ∨
    t.status = { s.status with busy := false, err := true, errCode := 8 } := by
  cases h with
  | waiting _ ps _ h =>
    subst h
    exact .inl ⟨by simp, by simp⟩
  | completed _ h =>
    subst h
    exact .inr (.inl ⟨by simp, by simp⟩)
  | readFault a _ _ _ h =>
    subst h
    exact .inr (.inr (by simp))
  | writeFault a _ _ _ h =>
    subst h
    exact .inr (.inr (by simp))
  | stored _ h =>
    subst h
    exact .inl ⟨by simp, by simp⟩

/-! ## What a command leaves -/

/-- No command writes the parameters, SRC, DST, or the tables. -/
theorem ExecOutcome.sameBase {i : Instr} {s t : State} (h : ExecOutcome i s t) : SameBase s t := by
  cases h with
  | mule m sel e g _ h =>
    subst h
    have hframe := (muleEnd_ends m e g s).untouched
    exact ⟨hframe.params, hframe.src, hframe.dst, hframe.logTbl, hframe.expTbl⟩
  | _ => subst_vars; constructor <;> simp

/-- A command that takes an error leaves FAULT, as all others do (60_exceptions.md R302). -/
theorem ExecOutcome.fault {i : Instr} {s t : State} (h : ExecOutcome i s t) : t.fault = s.fault := by
  cases h with
  | mule m sel e g _ h =>
    subst h
    exact (muleEnd_ends m e g s).untouched.fault
  | _ => subst_vars; simp

/-- Only a MULE writes RESULT (10_state.md R37). -/
theorem ExecOutcome.result {i : Instr} {s t : State} (h : ExecOutcome i s t) :
    t.result = s.result ∨ ∃ m e g, i = mulInstr .mule m e g := by
  cases h with
  | mule m sel e g hi _ => exact .inr ⟨m, sel, g, hi⟩
  | _ => subst_vars; exact .inl (by simp)

/-- Only a MULR sets BUSY (10_state.md R25). -/
theorem ExecOutcome.busy {i : Instr} {s t : State} (h : ExecOutcome i s t) (hb : s.status.busy = false) :
    t.status.busy = false ∨ ∃ m e g, i = mulInstr .mulr m e g := by
  cases h with
  | accepted m sel e g hi _ _ _ => exact .inr ⟨m, sel, g, hi⟩
  | mule m sel e g _ h =>
    subst h
    rw [(muleEnd_ends m e g s).status]
    exact .inl hb
  | _ => subst_vars; exact .inl (by simp [hb])

/-- Each of DONE, ERR and OVR that is set in the one status is set in the other. -/
def StickyKept (s t : Status) : Prop :=
  (s.done = true → t.done = true) ∧ (s.err = true → t.err = true) ∧ (s.ovr = true → t.ovr = true)

theorem StickyKept.of_eq {s t : Status} (h : t = s) : StickyKept s t := h ▸ ⟨id, id, id⟩

/-- No command clears a pending bit (10_state.md R26 to R28). -/
theorem ExecOutcome.sticky {i : Instr} {s t : State} (h : ExecOutcome i s t) : StickyKept s.status t.status := by
  cases h with
  | mule m sel e g _ h =>
    subst h
    rw [(muleEnd_ends m e g s).status]
    exact ⟨fun _ => rfl, id, id⟩
  | _ => subst_vars; constructor <;> simp

/-! ## What a register write leaves -/

theorem WriteOutcome.params {r : Reg} {w : Word} {s t : State} (h : WriteOutcome r w s t) : t.params = s.params := by
  cases h with
  | command _ _ _ _ h => exact h.sameBase.params
  | _ => subst_vars; simp

theorem WriteOutcome.fault {r : Reg} {w : Word} {s t : State} (h : WriteOutcome r w s t) : t.fault = s.fault := by
  cases h with
  | command _ _ _ _ h => exact h.fault
  | _ => subst_vars; simp

/-- Only a CMD write of a MULE that finds the block idle writes RESULT (10_state.md R37). -/
theorem WriteOutcome.result {r : Reg} {w : Word} {s t : State} (h : WriteOutcome r w s t) :
    t.result = s.result ∨
      (r = .cmd ∧ s.status.busy = false ∧ ∃ m e g, decode w = .ok (mulInstr .mule m e g)) := by
  cases h with
  | command hr hb i hd h =>
    rcases h.result with h | ⟨m, e, g, rfl⟩
    · exact .inl h
    · exact .inr ⟨hr, hb, m, e, g, hd⟩
  | _ => subst_vars; exact .inl (by simp)

/-- Only a TBL_DATA write that finds the block idle writes the tables (10_state.md R42). -/
theorem WriteOutcome.tables {r : Reg} {w : Word} {s t : State} (h : WriteOutcome r w s t) :
    (t.logTbl = s.logTbl ∧ t.expTbl = s.expTbl) ∨ (r = .tblData ∧ s.status.busy = false) := by
  cases h with
  | command _ _ _ _ h => exact .inl ⟨h.sameBase.logTbl, h.sameBase.expTbl⟩
  | stored hr hb _ => exact .inr ⟨hr, hb⟩
  | _ => subst_vars; exact .inl (by simp)

/-- A write keeps BUSY where it is set, and only a CMD write of a MULR sets it (10_state.md R25). -/
theorem WriteOutcome.busy {r : Reg} {w : Word} {s t : State} (h : WriteOutcome r w s t) :
    t.status.busy = s.status.busy ∨
      (s.status.busy = false ∧ r = .cmd ∧ ∃ m e g, decode w = .ok (mulInstr .mulr m e g)) := by
  cases h with
  | status _ h =>
    subst h
    exact .inl rfl
  | badWord _ hb e h =>
    subst h
    exact .inl (by simp [hb])
  | command hr hb i hd h =>
    rcases h.busy hb with h | ⟨m, e, g, rfl⟩
    · exact .inl (by rw [h, hb])
    · exact .inr ⟨hb, hr, m, e, g, hd⟩
  | _ => subst_vars; exact .inl (by simp)

/-- Only a STATUS write clears pending bits, those that it names (10_state.md R24). -/
theorem WriteOutcome.sticky {r : Reg} {w : Word} {s t : State} (h : WriteOutcome r w s t) :
    StickyKept s.status t.status ∨ (r = .status ∧ t.status = s.status.w1c w) := by
  cases h with
  | status hr h =>
    subst h
    exact .inr ⟨hr, rfl⟩
  | command _ _ _ _ h => exact .inl h.sticky
  | _ => subst_vars; exact .inl (by constructor <;> simp)

/-! ## The rules -/

/-- No step changes the parameters (00_scope.md R6). -/
theorem step_params {s t : State} (h : step s = .next t) : t.params = s.params := by
  cases step_effect h with
  | unit es _ _ h => exact h.sameBase.params
  | reset es _ h =>
    subst h
    rfl
  | wrote es r w _ h => exact h.params
  | nothing h => exact h.params

/-- A step keeps the pending bits, but for reset and a write of STATUS. -/
theorem step_sticky {s t : State} (h : step s = .next t) :
    StickyKept s.status t.status ∨ AssertsReset s ∨ ∃ w, WritesReg s .status w ∧ t.status = s.status.w1c w := by
  cases step_effect h with
  | unit es _ _ h =>
    left
    rcases h.status with ⟨h, _⟩ | ⟨h, _⟩ | h
    · exact .of_eq h
    · rw [h]
      exact ⟨fun _ => rfl, id, id⟩
    · rw [h]
      exact ⟨id, fun _ => rfl, id⟩
  | reset es ha _ => exact .inr (.inl ha)
  | wrote es r w hw h =>
    rcases h.sticky with hkept | ⟨rfl, hcleared⟩
    · exact .inl hkept
    · exact .inr (.inr ⟨w, hw, hcleared⟩)
  | nothing h => exact .inl (.of_eq h.status)

/-- Settles O47: where a bit falls, the step is a reset or a STATUS write, and the write has the bit at 1. -/
theorem statusBitsStaySetUntilCleared : Obligations.StatusBitsStaySetUntilCleared := by
  intro s t hstep
  rcases step_sticky hstep with ⟨hd, he, ho⟩ | ha | ⟨w, hw, h⟩
  · exact ⟨fun h1 h2 => by simp [hd h1] at h2, fun h1 h2 => by simp [he h1] at h2, fun h1 h2 => by simp [ho h1] at h2⟩
  · exact ⟨fun _ _ => .inl ha, fun _ _ => .inl ha, fun _ _ => .inl ha⟩
  · rw [h]
    refine ⟨fun h1 h2 => .inr ⟨w, hw, ?_⟩, fun h1 h2 => .inr ⟨w, hw, ?_⟩, fun h1 h2 => .inr ⟨w, hw, ?_⟩⟩
    · simpa [Status.w1c, h1] using h2
    · simpa [Status.w1c, h1] using h2
    · simpa [Status.w1c, h1] using h2

/-- Settles O48: only a MULR's CMD write sets BUSY, and no register write clears it. -/
theorem onlyAcceptedMulrSetsBusyAndOnlyTheUnitClearsIt :
    Obligations.OnlyAcceptedMulrSetsBusyAndOnlyTheUnitClearsIt := by
  intro s t hstep
  cases step_effect hstep with
  | unit es hm hb _ => exact ⟨fun h => by simp [hb] at h, fun _ _ => .inl hm⟩
  | reset es ha h =>
    subst h
    exact ⟨fun _ h2 => absurd h2 Bool.false_ne_true, fun _ _ => .inr ha⟩
  | wrote es r w hw h =>
    rcases h.busy with h | ⟨hb, rfl, m, e, g, hd⟩
    · exact ⟨fun h1 h2 => absurd (h.symm.trans h2) (Bool.eq_false_iff.1 h1),
        fun h1 h2 => absurd (h.trans h1) (Bool.eq_false_iff.1 h2)⟩
    · exact ⟨fun _ _ => ⟨w, m, e, g, hw, hd⟩, fun h1 => absurd h1 (Bool.eq_false_iff.1 hb)⟩
  | nothing h =>
    rw [h.status]
    exact ⟨fun h1 h2 => absurd h2 (Bool.eq_false_iff.1 h1), fun h1 h2 => absurd h1 (Bool.eq_false_iff.1 h2)⟩

/-- Settles O49: of the register writes only a MULE's writes RESULT and none FAULT; of the unit's moves none writes
RESULT, and only a bus error FAULT. -/
theorem resultAndFaultHaveOneWriterEach : Obligations.ResultAndFaultHaveOneWriterEach := by
  intro s t hstep
  cases step_effect hstep with
  | unit es hm hb h =>
    refine ⟨fun hne => absurd h.result hne, fun hne => .inr ⟨hm, hb, ?_⟩⟩
    rcases h.status with ⟨_, hf⟩ | ⟨_, hf⟩ | hs
    · exact absurd hf hne
    · exact absurd hf hne
    · rw [hs]
      exact ⟨rfl, rfl, rfl⟩
  | reset es ha _ => exact ⟨fun _ => .inl ha, fun _ => .inl ha⟩
  | wrote es r w hw h =>
    refine ⟨fun hne => ?_, fun hne => absurd h.fault hne⟩
    rcases h.result with h | ⟨rfl, hb, m, e, g, hd⟩
    · exact absurd h hne
    · exact .inr ⟨w, m, e, g, hw, hd, hb⟩
  | nothing h => exact ⟨fun hne => absurd h.result hne, fun hne => absurd h.fault hne⟩

/-- Settles O50: neither the unit nor a command writes the tables. -/
theorem tablesChangeOnlyByAcceptedTableWrites : Obligations.TablesChangeOnlyByAcceptedTableWrites := by
  intro s t hstep hne
  have hsame : ¬ (t.logTbl = s.logTbl ∧ t.expTbl = s.expTbl) := fun h => hne.elim (· h.1) (· h.2)
  cases step_effect hstep with
  | unit es _ _ h => exact absurd ⟨h.sameBase.logTbl, h.sameBase.expTbl⟩ hsame
  | reset es ha _ => exact .inl ha
  | wrote es r w hw h =>
    rcases h.tables with h | ⟨rfl, hb⟩
    · exact absurd h hsame
    · exact .inr ⟨hb, w, hw⟩
  | nothing h => exact absurd ⟨h.logTbl, h.expTbl⟩ hsame

end Sys2Proof.Machine
end

section
/-! PROOFS. The register port: the words of the registers, what a write and a read of each does, and the accesses that reach them (10_state.md R20 to R45, R51, R52). -/

namespace Sys2Proof.Machine

open Sys2Proof.Config

/-! ## Words made of fields -/

/-- ORing in a field above all bits of a word adds it in its place. -/
theorem toNat_or_field {x : Word} {n i : Nat} {v : BitVec n} (hx : x.toNat < 2 ^ i) (hi : n + i ≤ 32) :
    (x ||| v.setWidth 32 <<< i).toNat = x.toNat + 2 ^ i * v.toNat := by
  have hv : v.toNat < 2 ^ n := v.isLt
  have hn : 2 ^ n * 2 ^ i ≤ 2 ^ 32 := by
    rw [← Nat.pow_add]
    exact Nat.pow_le_pow_right (by omega) hi
  have hshift : (v.setWidth 32 <<< i).toNat = 2 ^ i * v.toNat := by
    have hlt : v.toNat * 2 ^ i < 2 ^ 32 := lt_of_lt_of_le (Nat.mul_lt_mul_of_pos_right hv (Nat.two_pow_pos i)) hn
    have hle : v.toNat ≤ v.toNat * 2 ^ i := Nat.le_mul_of_pos_right _ (Nat.two_pow_pos i)
    rw [BitVec.toNat_shiftLeft, BitVec.toNat_setWidth, Nat.mod_eq_of_lt (lt_of_le_of_lt hle hlt), Nat.shiftLeft_eq,
      Nat.mod_eq_of_lt hlt, Nat.mul_comm]
  rw [BitVec.toNat_or, hshift, Nat.or_comm, ← Nat.two_pow_add_eq_or_of_lt hx, Nat.add_comm]

/-- ORing in a bit above all bits of a word adds it in its place. -/
theorem toNat_or_bitAt {x : Word} {i : Nat} (b : Bool) (hx : x.toNat < 2 ^ i) (hi : i < 32) :
    (x ||| bitAt b i).toNat = x.toNat + 2 ^ i * b.toNat := by
  rw [bitAt, toNat_or_field hx (by omega), BitVec.toNat_ofBool]

theorem toNat_bitAt_zero (b : Bool) : (bitAt b 0).toNat = b.toNat := by cases b <;> rfl

theorem getLsbD_bitAt (b : Bool) (j i : Nat) : (bitAt b j).getLsbD i = (b && decide (i = j ∧ i < 32)) := by
  rw [bitAt, BitVec.getLsbD_shiftLeft, BitVec.getLsbD_setWidth, BitVec.getLsbD_ofBool]
  by_cases hij : i = j
  · subst hij
    cases b <;> simp
  · cases b <;> simp [hij]
    omega

/-- The layout of STATUS (10_state.md R24). -/
theorem toNat_statusWord (s : Status) : s.word.toNat =
    s.busy.toNat + 2 * s.done.toNat + 4 * s.err.toNat + 8 * s.ovr.toNat + 256 * s.errCode.toNat +
      4096 * s.lastEngine.toNat := by
  have hbusy := s.busy.toNat_le
  have hdone := s.done.toNat_le
  have herr := s.err.toNat_le
  have hovr := s.ovr.toNat_le
  have hcode := s.errCode.isLt
  have h0 := toNat_bitAt_zero s.busy
  have h1 := toNat_or_bitAt (i := 1) s.done (x := bitAt s.busy 0) (by omega) (by omega)
  have h2 := toNat_or_bitAt (i := 2) s.err (x := bitAt s.busy 0 ||| bitAt s.done 1) (by omega) (by omega)
  have h3 := toNat_or_bitAt (i := 3) s.ovr (x := bitAt s.busy 0 ||| bitAt s.done 1 ||| bitAt s.err 2) (by omega)
    (by omega)
  have h4 := toNat_or_field (i := 8) (v := s.errCode)
    (x := bitAt s.busy 0 ||| bitAt s.done 1 ||| bitAt s.err 2 ||| bitAt s.ovr 3) (by omega) (by omega)
  rw [Status.word, toNat_or_field (by omega) (by omega)]
  omega

/-- The layout of CTRL (10_state.md R23). -/
theorem toNat_ctrlWord (c : Ctrl) : c.word.toNat = c.ieDone.toNat + 2 * c.ieErr.toNat + 4 * c.slowWide.toNat := by
  obtain ⟨d, e, w⟩ := c
  cases d <;> cases e <;> cases w <;> rfl

/-- The layout of TBL_ADDR (10_state.md R41). -/
theorem toNat_tblAddrWord (t : TblAddr) : t.word.toNat = t.idx.toNat + 65536 * t.sel.toNat := by
  have hidx : (t.idx.setWidth 32).toNat = t.idx.toNat := BitVec.toNat_setWidth_of_le (by omega)
  have hlt := t.idx.isLt
  rw [TblAddr.word, toNat_or_bitAt _ (by omega) (by omega), hidx]
  norm_num

/-- An address is its two halves (10_state.md R32). -/
theorem hiHalf_append_loHalf (a : Addr) : hiHalf a ++ loHalf a = a := by
  refine BitVec.eq_of_getLsbD_eq fun i hi => ?_
  rw [BitVec.getLsbD_append, hiHalf, loHalf, BitVec.getLsbD_extractLsb', BitVec.getLsbD_extractLsb']
  by_cases h : i < 32
  · simp [h]
  · simp [h, show i - 32 < 32 by omega, show 32 + (i - 32) = i by omega]

/-- A cleared bit of STATUS is one that the word written has at 1 (10_state.md R24). -/
theorem statusWord_w1c (s : Status) (w : Word) : (s.w1c w).word = s.word &&& ~~~(w &&& 0xE) := by
  refine BitVec.eq_of_getLsbD_eq fun i hi => ?_
  unfold Status.w1c Status.word
  simp only [BitVec.getLsbD_and, BitVec.getLsbD_or, BitVec.getLsbD_not, getLsbD_bitAt]
  interval_cases i <;> simp

/-! ## Which accesses reach which register (10_state.md R20, R43, R44) -/

theorem regAt_reserved {off : Nat} (h : 0x48 ≤ off) : regAt off = .reserved :=
  List.getD_eq_default _ _ (by simp only [regList, List.length_cons, List.length_nil]; omega)

/-- An aligned offset within the window is decoded as the register there. -/
theorem portAccess_offset (s : State) {off : Nat} (h : off < 256) (h4 : off % 4 = 0) :
    portAccess s (s.params.base + BitVec.ofNat 64 off) .w32 = .reg (regAt off) := by
  have hoff : portOffset s (s.params.base + BitVec.ofNat 64 off) = off := by
    rw [portOffset, add_sub_cancel_left, BitVec.toNat_ofNat, Nat.mod_eq_of_lt (by omega)]
  simp [portAccess, hoff, h4, Nat.not_le.2 h]

/-- An access in the window that is not 32 bits wide and aligned reaches no register (10_state.md R44). -/
theorem portAccess_bad {s : State} {addr : Addr} {width : AccessWidth} (h : portOffset s addr < 256)
    (hbad : width ≠ .w32 ∨ portOffset s addr % 4 ≠ 0) : portAccess s addr width = .bad := by
  have hno : ¬ (width = .w32 ∧ portOffset s addr % 4 = 0) := by tauto
  rw [portAccess, if_neg (Nat.not_le.2 h), if_neg hno]

section
variable {s : State} {addr : Addr} {width : AccessWidth} {r : Reg} {es : List Event} (hr : s.inReset = false)
include hr

/-- The step of a write that reaches a register is the register's write. -/
theorem step_writes {w : Word} (hp : portAccess s addr width = .reg r) (hin : s.inputs = .portWrite addr width w :: es) :
    step s = writeReg r w { s with inputs := es, reply := .written } := by
  have hr' : (withInputs es s).inReset = false := hr
  simp only [step_cons hin, event, portWrite, portAccess_withInputs, hp, hr', Bool.false_eq_true, if_false]
  rfl

/-- The step of a read that reaches a register answers its value. -/
theorem step_reads (hp : portAccess s addr width = .reg r) (hin : s.inputs = .portRead addr width :: es) :
    step s = .next (withReply (.data (readReg r (withInputs es s)).1) (learn r (readReg r (withInputs es s)).2)) := by
  have hr' : (withInputs es s).inReset = false := hr
  simp only [step_cons hin, event, portRead, portAccess_withInputs, hp, hr', Bool.false_eq_true, if_false]

end

/-! ## What a read of a register does (10_state.md R20 to R43) -/

/-- A read of any register but TBL_DATA leaves the block as it is (20_memory.md R77). -/
theorem readReg_state {r : Reg} (hr : r ≠ .tblData) (s : State) : (readReg r s).2 = s := by
  cases r
  case tblData => exact absurd rfl hr
  all_goals rfl

theorem tblDataLoad_written {s : State} {v : Elem} (h : s.selectedTable.read s.tblAddr.idx = some v) :
    tblDataLoad s = (v.setWidth 32, { s with tblAddr := s.tblAddr.advance }) := by
  simp only [tblDataLoad, h]

theorem tblDataLoad_unwritten {s : State} (h : s.selectedTable.read s.tblAddr.idx = none) :
    tblDataLoad s =
      ((freeElem s.draws).setWidth 32, { s with tblAddr := s.tblAddr.advance, draws := s.draws + 1 }) := by
  simp only [tblDataLoad, h]

/-- Every read of TBL_DATA advances IDX (10_state.md R42). -/
theorem tblDataLoad_advances (s : State) : (tblDataLoad s).2.tblAddr = s.tblAddr.advance := by
  cases h : s.selectedTable.read s.tblAddr.idx with
  | some v => rw [tblDataLoad_written h]
  | none => rw [tblDataLoad_unwritten h]

/-- IDX wraps at 65536 (10_state.md R42). -/
theorem toNat_advance (t : TblAddr) : t.advance.idx.toNat = (t.idx.toNat + 1) % 65536 := by
  simp [TblAddr.advance, BitVec.toNat_add]

/-- No read depends on, or changes, the events to come. -/
theorem readReg_withInputs (r : Reg) (es : List Event) (s : State) :
    readReg r (withInputs es s) = ((readReg r s).1, withInputs es (readReg r s).2) := by
  cases r
  case tblData =>
    cases h : s.selectedTable.read s.tblAddr.idx with
    | some v =>
      simp only [readReg, tblDataLoad_written h]
      exact tblDataLoad_written h
    | none =>
      simp only [readReg, tblDataLoad_unwritten h]
      exact tblDataLoad_unwritten h
  all_goals rfl

/-- What a host learns by a read of r (70_reset_and_hazards.md R345). -/
theorem learn_eq (r : Reg) (s : State) :
    learn r s =
      { s with unobserved := if r = .status ∧ s.status.busy = false then [] else s.unobserved } := by
  unfold learn observeIdle
  by_cases hr : r = .status
  · cases hb : s.status.busy <;> simp [hr]
  · simp [hr]

/-- Settles O41: register by register; the map ends at 0x044. -/
theorem readsHaveNoSideEffectsButTableData : Obligations.ReadsHaveNoSideEffectsButTableData := by
  refine ⟨fun s r hr => readReg_state hr s, fun s => ⟨rfl, rfl⟩, fun s r w hr => ?_, fun off h _ => regAt_reserved h⟩
  simp only [List.mem_cons, List.not_mem_nil, or_false] at hr
  rcases hr with rfl | rfl | rfl | rfl | rfl | rfl <;> rfl

/-- Settles O42: CAP and POLY are functions of the parameters, which no step changes. -/
theorem capabilityAndPolynomialAreConstants : Obligations.CapabilityAndPolynomialAreConstants := by
  refine ⟨fun s e => ?_, fun s i hi => ?_, fun s => ?_, fun s t hstep => ?_⟩
  · simp only [readReg, capWord, BitVec.getLsbD_or, getLsbD_bitAt]
    cases e <;> simp [Engine.code]
  · simp only [readReg, capWord, BitVec.getLsbD_or, getLsbD_bitAt]
    simp [show i ≠ 0 by omega, show i ≠ 1 by omega, show i ≠ 2 by omega, show i ≠ 3 by omega, show i ≠ 4 by omega]
  · have := s.params.poly.isLt
    simp only [readReg, polyWord, BitVec.toNat_setWidth]
    omega
  · simp only [readReg, step_params hstep, and_self]

/-! ## What a write of a register does (10_state.md R20 to R43, R52) -/

/-- Settles O9: every other register's write is a change of its own field. -/
theorem otherWritesLeaveTheRunningCommandAlone : Obligations.OtherWritesLeaveTheRunningCommandAlone := by
  intro s r w hcmd htbl
  cases r
  case cmd => exact absurd rfl hcmd
  case tblData => exact absurd rfl htbl
  all_goals exact ⟨_, rfl, rfl, rfl, rfl, rfl, rfl, rfl, rfl, rfl⟩

/-- Settles O43: each field of STATUS stands in its own bits, and a write clears bits of DONE, ERR and OVR only. -/
theorem statusWriteClearsExactlyItsBits : Obligations.StatusWriteClearsExactlyItsBits :=
  ⟨fun s => toNat_statusWord s.status, fun s w => ⟨_, rfl, rfl, statusWord_w1c s.status w⟩⟩

/-- Settles O46: the expression of IRQ, and what each write leaves of its terms. -/
theorem interruptFollowsPendingAndEnableBits : Obligations.InterruptFollowsPendingAndEnableBits := by
  have hirq : ∀ s : State, s.irq = true ↔
      (s.status.done = true ∧ s.ctrl.ieDone = true) ∨ (s.status.err = true ∧ s.ctrl.ieErr = true) := fun s => by
    simp [State.irq]
  refine ⟨hirq, fun s w => ⟨_, rfl, rfl, hirq _⟩, fun s => ⟨_, rfl, rfl, ?_⟩⟩
  simp [State.irq, Status.w1c]

/-- Settles O44: the entry written is the one read back, each of the two tables on its own. -/
theorem tableDataPortReadsAndWritesEntries : Obligations.TableDataPortReadsAndWritesEntries := by
  refine ⟨fun s w hb => ?_, fun s w hb => ?_, fun s table ht => ?_⟩
  · have hw : writeReg .tblData w s = .next (tblDataStore w s) := by simp [writeReg, tblDataWrite, hb]
    cases hsel : s.tblAddr.sel with
    | false =>
      have hst : tblDataStore w s =
          { s with logTbl := s.logTbl.write s.tblAddr.idx (w.setWidth 16), tblAddr := s.tblAddr.advance } := by
        simp [tblDataStore, hsel]
      rw [hst] at hw
      exact ⟨_, hw, rfl, hsel, toNat_advance _, fun _ => ⟨rfl, fun i => Table.read_write _ _ i _⟩, nofun⟩
    | true =>
      have hst : tblDataStore w s =
          { s with expTbl := s.expTbl.write s.tblAddr.idx (w.setWidth 16), tblAddr := s.tblAddr.advance } := by
        simp [tblDataStore, hsel]
      rw [hst] at hw
      exact ⟨_, hw, rfl, hsel, toNat_advance _, nofun, fun _ => ⟨rfl, fun i => Table.read_write _ _ i _⟩⟩
  · simp [writeReg, tblDataWrite, hb, dropWrite]
  · subst ht
    refine ⟨?_, ?_, fun v hv => ?_, fun hv => ?_⟩
    · rw [readReg, tblDataLoad_advances]
      rfl
    · rw [readReg, tblDataLoad_advances, toNat_advance]
    · rw [readReg, tblDataLoad_written hv]
      exact ⟨rfl, rfl⟩
    · rw [readReg, tblDataLoad_unwritten hv]
      exact ⟨rfl, rfl⟩

/-- A write of any register but CMD has a next state by the register map alone. -/
theorem exists_writeReg_next {r : Reg} (hr : r ≠ .cmd) (w : Word) (s : State) : ∃ t, writeReg r w s = .next t := by
  cases r
  case cmd => exact absurd rfl hr
  all_goals exact ⟨_, rfl⟩

section
variable {s t : State} {r r' : Reg} {w mask : Word} (haw : s.params.awLegal = true)
  (hsrc : s.src.toNat < 2 ^ s.params.aw) (hdst : s.dst.toNat < 2 ^ s.params.aw)
  (hmask : implementedBits s.params r = some mask) (h : writeReg r w s = .next t)
include haw hmask h

/-- A plain register reads back what is written to it, on its implemented bits (10_state.md R23, R31 to R36, R41). -/
theorem readReg_writeReg_same : (readReg r t).1 = w &&& mask := by
  have haw32 := (aw_bounds haw).1
  have hall : w &&& 0xFFFFFFFF = w := BitVec.and_allOnes
  cases r <;> simp only [implementedBits, Option.some.injEq, reduceCtorEq] at hmask <;> injection h with h <;>
    subst hmask h
  case ctrl => exact ctrl_word_ofWord w
  case thresh | len => exact hall.symm
  case srcLo | dstLo => exact (loHalf_setLo haw32 _ w).trans hall.symm
  case srcHi | dstHi => exact hiHalf_setHi _ _ w
  case scalar | opnd => exact setWidth_low w
  case tblAddr => exact tblAddr_word_ofWord w

include hsrc hdst

/-- A write to a plain register changes what no other register reads; the halves of an address do not mix. -/
theorem readReg_writeReg_ne (hne : r' ≠ r) (htbl : r' ≠ .tblData) : (readReg r' t).1 = (readReg r' s).1 := by
  have haw32 := (aw_bounds haw).1
  cases r <;> simp only [implementedBits, reduceCtorEq] at hmask <;> injection h with h <;> subst h <;> cases r'
  case srcLo.srcHi => exact hiHalf_setLo hsrc w
  case dstLo.dstHi => exact hiHalf_setLo hdst w
  case srcHi.srcLo | dstHi.dstLo => exact loHalf_setHi haw32 _ w
  all_goals first | rfl | contradiction

end

/-- Settles O40: reading back, the registers' own fields, and the map of R20 as the register at each offset. -/
theorem writtenRegisterReadsBack : Obligations.WrittenRegisterReadsBack := by
  refine ⟨fun s r w mask haw hsrc hdst hmask => ?_, fun s => ?_, fun s off r es hr hoff => ?_⟩
  · obtain ⟨t, ht⟩ := exists_writeReg_next (r := r) (by rintro rfl; cases hmask) w s
    exact ⟨t, ht, readReg_writeReg_same haw hmask ht,
      fun r' hne htbl => readReg_writeReg_ne haw hsrc hdst hmask ht hne htbl⟩
  · have hzero : ∀ v : Elem, (v.setWidth 32).toNat = v.toNat := fun v => BitVec.toNat_setWidth_of_le (by omega)
    exact ⟨hzero _, hzero _, hzero _, rfl, rfl, hiHalf_append_loHalf _, hiHalf_append_loHalf _,
      hiHalf_append_loHalf _, toNat_tblAddrWord _, toNat_ctrlWord _⟩
  · obtain ⟨hlt, h4, rfl⟩ : off < 256 ∧ off % 4 = 0 ∧ regAt off = r := by
      rcases hoff with hmap | ⟨rfl, hge, hlt, h4⟩
      · have hmem : (off, r) ∈ (List.range 18).map fun i => (4 * i, regAt (4 * i)) := hmap
        obtain ⟨i, hi, he⟩ := List.mem_map.1 hmem
        obtain ⟨rfl, rfl⟩ := Prod.mk.inj he
        have := List.mem_range.1 hi
        exact ⟨by omega, by omega, rfl⟩
      · exact ⟨hlt, h4, regAt_reserved hge⟩
    have hp := portAccess_offset s hlt h4
    refine ⟨fun w hin => step_writes hr hp hin, fun hin => ?_⟩
    rw [step_reads hr hp hin, readReg_withInputs, learn_eq]
    simp [withReply]

/-- Settles O8: the write reaches the register, which drops it. -/
theorem busyBlockDropsCommandAndTableWrites : Obligations.BusyBlockDropsCommandAndTableWrites := by
  intro s r w es hb hr hreg hin
  rw [step_writes hr (portAccess_reg s r) hin]
  rcases hreg with rfl | rfl
  · simp [writeReg, cmdWrite, hb, dropWrite]
  · simp [writeReg, tblDataWrite, hb, dropWrite]

/-- Settles O45: the access reaches no register. -/
theorem malformedRegisterAccessChangesNothing : Obligations.MalformedRegisterAccessChangesNothing := by
  intro s addr width w es hr hwin hbad hin
  have hp : portAccess s addr width = .bad := portAccess_bad hwin hbad
  have hr' : (withInputs es s).inReset = false := hr
  rcases hin with hin | hin
  · simp only [step_cons hin, event, portWrite, portAccess_withInputs, hp, hr', Bool.false_eq_true, if_false]
    rfl
  · simp only [step_cons hin, event, portRead, portAccess_withInputs, hp, hr', Bool.false_eq_true, if_false]
    rfl

/-! ## Reset (10_state.md R51) -/

/-- With no command running reset leaves memory (70_reset_and_hazards.md R340). -/
theorem abandonCommand_idle {s : State} (hb : s.status.busy = false) : abandonCommand s = s := by
  simp [abandonCommand, hb]

/-- Settles O54: the fields of the reset state. -/
theorem resetLoadsEveryResetValue : Obligations.ResetLoadsEveryResetValue := by
  intro s es hin
  have hstep : step s = .next (resetEvent (withInputs es s)) := step_cons hin
  have hctrl : ∀ b, Ctrl.word ⟨false, false, b⟩ = if b then 4 else 0 := by decide
  have hstatus : Status.word ⟨false, false, false, false, 0, 0⟩ = 0 := by decide
  have htblAddr : TblAddr.word ⟨0, false⟩ = 0 := by decide
  refine ⟨_, hstep, rfl, rfl, rfl, hctrl _, hstatus, rfl, rfl, rfl, rfl, rfl, rfl, rfl, rfl, htblAddr, rfl,
    fun _ => ⟨rfl, rfl⟩, fun hb => ?_⟩
  show (abandonCommand (withInputs es s)).mem = _
  rw [abandonCommand_idle (s := withInputs es s) hb]
  rfl

end Sys2Proof.Machine
end

section
/-! PROOFS. The start and the ends of a MULR: acceptance and the derived state it builds, completion, bus errors, and what a raced command leaves (40_commands.md R136, R143, R144; 60_exceptions.md R304; 20_memory.md R83). -/

namespace Sys2Proof.Machine

open Sys2Proof.Config

/-! ## Acceptance (40_commands.md R136) -/

/-- What acceptance leaves, by the fields of the statements. -/
theorem accept_starts (m : Mode) (e : Engine) (g : Gran) (s : State) :
    MulrStarts s (accept m e g (setLastEngine e s)) m e g where
  status := by simp [acceptStatus]
  result := by simp
  latched := by simp
  k := by simp
  raced := by simp
  untouched := by constructor <;> simp

/-- Settles O20: the checks pass, and the chunk width latched is the engine's. -/
theorem mulrWithLegalOperandsIsAccepted : Obligations.MulrWithLegalOperandsIsAccepted := by
  intro m e g s he hlen hin hov
  have hstarts := accept_starts m e g s
  refine ⟨_, exec_mulr_accept he hlen hin hov m g, hstarts, ?_⟩
  rw [hstarts.latched]
  refine ⟨?_, ?_, ?_, ?_, ?_⟩ <;> (rintro rfl; rfl)

/-- The dispatcher picks a present engine (40_commands.md R132). -/
theorem present_select (s : State) (len : Word) : present s.params (select s len) = true :=
  present_of_resolve (resolve_auto s len)

/-- A MULR that leaves the engine to the dispatcher is the one that names its choice (40_commands.md R133). -/
theorem exec_mulr_auto (m : Mode) (g : Gran) (s : State) :
    exec (mulInstr .mulr m .auto g) s = exec (mulInstr .mulr m (.named (select s s.len)) g) s := by
  simp only [exec_mulr, mulrAccept, resolve_auto, resolve_named, present_select, if_true]

/-- Settles O21: the command is the one that names the dispatcher's choice, which is accepted. -/
theorem mulrAutoIsAcceptedOnTheSelectedEngine : Obligations.MulrAutoIsAcceptedOnTheSelectedEngine := by
  intro g s hlen hin hov
  have key (m : Mode) : ∃ t, exec (mulInstr .mulr m .auto g) s = .next t ∧
      exec (mulInstr .mulr m (.named (select s s.len)) g) s = .next t ∧ MulrStarts s t m (select s s.len) g := by
    have hacc := exec_mulr_accept (present_select s s.len) hlen hin hov m g
    exact ⟨_, (exec_mulr_auto m g s).trans hacc, hacc, accept_starts m _ g s⟩
  exact ⟨key .assign, key .accumulate⟩

/-! ## The derived state (40_commands.md R143) -/

/-- Acceptance takes DT, AM and the free values drawn from the derived state built on the latched operands. -/
theorem accept_derived (m : Mode) (e : Engine) (g : Gran) (s : State) :
    (accept m e g s).dt = (buildDerived e g s.scalar (latch m e g s)).dt ∧
    (accept m e g s).am = (buildDerived e g s.scalar (latch m e g s)).am ∧
    (accept m e g s).draws = (buildDerived e g s.scalar (latch m e g s)).draws := ⟨rfl, rfl, rfl⟩

/-- The scalars 0 and 1, LOG and CLMUL build nothing (40_commands.md R140, R143). -/
theorem buildDerived_nothing {e : Engine} {a : Elem} (h : a = 0 ∨ a = 1 ∨ e = .log ∨ e = .clmul) (g : Gran)
    (s : State) : buildDerived e g a s = s := by
  rcases h with rfl | rfl | rfl | rfl
  · rfl
  · rfl
  · simp [buildDerived]
  · simp [buildDerived]

theorem length_affineColumns (poly : BitVec 17) (n : Nat) (a : Elem) : (affineColumns poly n a).length = n := by
  induction n generalizing a with
  | zero => rfl
  | succ n ih => simp [affineColumns, ih]

/-- Each column of the matrix is the one before it times x (43_affine.md R221). -/
theorem getD_buildAM_succ (poly : BitVec 17) (a : Elem) {j : Nat} (hj : j < 15) :
    (buildAM poly a).getD (j + 1) 0 = xtime poly ((buildAM poly a).getD j 0) := by
  rw [buildAM, getD_affineColumns _ _ _ (by omega), getD_affineColumns _ _ _ (by omega),
    Function.iterate_succ_apply']

/-- On loaded tables DT is the derived table of the table product, and nothing is drawn (42_table_shuffle.md R191,
R192). -/
theorem buildDT_loaded {s : State} (h : TablesLoaded s) (g : Gran) (a : Elem) (d : Nat) :
    buildDT s g a d = (dtOf (tableProduct s · a) g, d) :=
  buildDT_eq_dtOf (fun x d => logmul_loaded h x a d) g d

/-- Settles O22: the engines one by one; on loaded tables no table product draws a free value. -/
theorem acceptanceBuildsTheDerivedState : Obligations.AcceptanceBuildsTheDerivedState := by
  intro m e g s he hlen hin hov
  obtain ⟨hdt, ham, hdraws⟩ := accept_derived m e g (setLastEngine e s)
  refine ⟨_, exec_mulr_accept he hlen hin hov m g, fun h => ?_, ?_, fun h0 h1 hshuf hload => ?_⟩
  · rw [hdt, ham, setLastEngine_scalar, buildDerived_nothing h]
    exact ⟨rfl, rfl⟩
  · rintro h0 h1 rfl
    rw [hdt, ham, setLastEngine_scalar, buildDerived_affine h0 h1]
    exact ⟨rfl, length_affineColumns _ 16 _, rfl, fun j hj => getD_buildAM_succ _ _ hj⟩
  · have hbuild := buildDT_loaded (s := latch m e g (setLastEngine e s)) hload g s.scalar s.draws
    have hfill : (fillDT g s.scalar (latch m e g (setLastEngine e s))).dt = dtOf (tableProduct s · s.scalar) g :=
      congrArg Prod.fst hbuild
    rw [hdt, ham, hdraws, setLastEngine_scalar, buildDerived_shuffle h0 h1 hshuf, hfill]
    refine ⟨rfl, congrArg Prod.snd hbuild, ?_, ?_⟩
    · rintro rfl k hk n hn
      exact dtEntry_dtOf _ .nibble hk hn
    · rintro rfl k hk n hn
      exact dtEntry_dtOf _ .byte hk hn

/-! ## Completion (40_commands.md R144) -/

theorem settleRace_of_not_raced {s : State} (h : s.raced = false) : settleRace s = s := by
  simp [settleRace, h]

theorem unitStep_complete {s : State} (hk : s.k = s.latched.len.toNat) :
    unitStep s = .next (settleRace (completeCommand s)) := if_pos hk

theorem unitStep_chunk {s : State} (hk : s.k < s.latched.len.toNat) : unitStep s = chunkStep s := if_neg (by omega)

/-- Settles O34: with no race to settle the end is completion alone. -/
theorem completionSetsDone : Obligations.CompletionSetsDone := by
  intro s hk hr
  rw [unitStep_complete hk, settleRace_of_not_raced (by simpa using hr)]
  rfl

/-! ## Bus errors (60_exceptions.md R304) -/

/-- No element read of a chunk whose reads are all answered is unanswered (93 U25). -/
theorem elemSilent_chunkReads {s : State} (h : ∀ x, ChunkAccesses s false x → byteAnswer s false x ≠ .silent) :
    ∀ a ∈ chunkReads s, elemSilent s false a = false := by
  intro a ha
  have h0 := h a ⟨a, ha, by omega, by omega⟩
  have h1 := h (a + 1) ⟨a, ha, by omega, by omega⟩
  simp [elemSilent, h0, h1]

/-- A chunk with a faulting read ends the command at one of them. -/
theorem chunkStep_readFault {s : State} (hoff : OffWindow s (ChunkAccesses s))
    (hsilent : ∀ x, ChunkAccesses s false x → byteAnswer s false x ≠ .silent)
    (hf : ∃ a ∈ chunkReads s, elemFaults s false a = true) :
    ∃ a ∈ chunkReads s, elemFaults s false a = true ∧
      chunkStep s = .next (settleRace (busFault a (drawSpans (lateReads s) { s with draws := s.draws + 1 }))) := by
  obtain ⟨a, ha, hphase, hfa⟩ := phase_faulted s.draws hf (elemSilent_chunkReads hsilent)
  refine ⟨a, ha, hfa, ?_⟩
  simp only [chunkStep, hoff.chunk, hphase, Bool.false_eq_true, if_false]

/-- A chunk with a faulting write, its reads being answered, ends the command at one of them. -/
theorem chunkStep_writeFault {s : State} (hoff : OffWindow s (ChunkAccesses s))
    (hsilent : NoneSilent s (ChunkAccesses s)) (hreads : ∀ a ∈ chunkReads s, elemFaults s false a = false)
    (hf : ∃ a ∈ chunkWrites s, elemFaults s true a = true) :
    ∃ a ∈ chunkWrites s, elemFaults s true a = true ∧
      chunkStep s = .next (settleRace (busFault a (drawSpans (lateAccesses s) (tearChunk s)))) := by
  obtain ⟨hreadSilent, hwriteSilent⟩ := hsilent.chunk
  obtain ⟨a, ha, hphase, hfa⟩ := phase_faulted (chunkValues s).2 hf hwriteSilent
  refine ⟨a, ha, hfa, ?_⟩
  simp only [chunkStep, hoff.chunk, phase_done _ hreads hreadSilent, hphase, Bool.false_eq_true, if_false]

/-- FAULT holds the address of an access of the chunk whole: it lies below 2^P_AW (10_state.md R39). -/
theorem toNat_maskAddr_access {s : State} (hi : Inv s) (hb : s.status.busy = true) (hk : s.k < s.latched.len.toNat)
    {a : Nat} (ha : a ∈ chunkReads s ++ chunkWrites s) : (maskAddr s.params (BitVec.ofNat 64 a)).toNat = a := by
  have hlt : a + 2 ≤ 2 ^ s.params.aw := (geometry hi hb).access_inside hk a ha
  have haw := (aw_bounds (awLegal_of_legal hi.legal)).2
  have h64 : 2 ^ s.params.aw ≤ 2 ^ 64 := Nat.pow_le_pow_right (by omega) haw
  rw [toNat_maskAddr haw, BitVec.toNat_ofNat, Nat.mod_eq_of_lt (by omega), Nat.mod_eq_of_lt (by omega)]

/-- Taking a bus error after drawing destinations touches STATUS, FAULT, memory, the free values and the ends. -/
theorem busFault_drawSpans_frame (a : Nat) (ps : List Span) (s : State) :
    busFault a (drawSpans ps s) = { s with
      status := (busFault a (drawSpans ps s)).status
      fault := (busFault a (drawSpans ps s)).fault
      draws := (busFault a (drawSpans ps s)).draws
      mem := (busFault a (drawSpans ps s)).mem
      unobserved := (busFault a (drawSpans ps s)).unobserved } := by
  rw [drawSpans_frame]
  rfl

/-- Settles O35: the reads are issued before any write, so memory changes only where they race with an ended command. -/
theorem faultingReadEndsTheCommand : Obligations.FaultingReadEndsTheCommand := by
  intro s hi hb hk hr hoff hsilent hf
  obtain ⟨a, ha, hfa, hstep⟩ := chunkStep_readFault hoff hsilent hf
  rw [settleRace_of_not_raced (by simpa using hr)] at hstep
  refine ⟨_, a, (unitStep_chunk hk).trans hstep, ha, hfa, ?_, by simp, ?_, fun x hx => ?_, fun hlate => ?_⟩
  · simpa using toNat_maskAddr_access hi hb hk (List.mem_append_left _ ha)
  · exact busFault_drawSpans_frame a (lateReads s) { s with draws := s.draws + 1 }
  · by_contra hno
    refine hx (readByte_drawSpans_outside (fun p hp hd => hno ?_) _)
    obtain ⟨hended, htouch⟩ := mem_lateReads.1 hp
    exact ⟨p, hended, htouch, hd⟩
  · rw [(lateAccesses_nil (geometry hi hb) hk hlate).1]
    rfl

/-- The bytes of a run of elements, the lower address first (20_memory.md R72). -/
theorem getElem?_flatMap_elemBytes (vs : List Elem) {j : Nat} {v : Elem} (hv : vs[j]? = some v) :
    (vs.flatMap elemBytes)[2 * j]? = some (v.extractLsb' 0 8) ∧
      (vs.flatMap elemBytes)[2 * j + 1]? = some (v.extractLsb' 8 8) := by
  induction vs generalizing j with
  | nil => simp at hv
  | cons u us ih =>
    cases j with
    | zero =>
      simp only [List.getElem?_cons_zero, Option.some.injEq] at hv
      subst hv
      exact ⟨rfl, rfl⟩
    | succ j => exact ih (by simpa using hv)

/-- A byte of a torn run is the old one or the new one, the new one by its place in the run. -/
theorem readByte_tearBytes_get {m : Memory} (hm : m.wf = true) {bs : List Byte} {j : Nat} {b : Byte}
    (hb : bs[j]? = some b) (a d : Nat) :
    readByte (tearBytes m a bs d).1 (a + j) = readByte m (a + j) ∨ readByte (tearBytes m a bs d).1 (a + j) = b := by
  obtain ⟨hj, rfl⟩ := List.getElem?_eq_some_iff.1 hb
  exact (readByte_tearBytes_inside hm bs a d j hj).symm

theorem length_flatMap_elemBytes (vs : List Elem) : (vs.flatMap elemBytes).length = 2 * vs.length := by
  induction vs with
  | nil => rfl
  | cons v vs ih =>
    simp only [List.flatMap_cons, List.length_append, ih, List.length_cons]
    simp [elemBytes]
    omega

/-- Torn writes change nothing outside their chunk's destination bytes. -/
theorem readByte_tearChunk_outside (s : State) {a : Nat}
    (ha : a < s.latched.dst.toNat + s.k ∨ s.latched.dst.toNat + s.k + chunkLen s ≤ a) :
    readByte (tearChunk s).mem a = readByte s.mem a := by
  refine readByte_tearBytes_outside _ _ _ ?_
  rw [length_flatMap_elemBytes, length_chunkValues]
  omega

/-- Each byte of an element of a torn chunk that draws no free value is the old one or its result's. -/
theorem readByte_tearChunk_inside {s : State} (g : Geometry s) (hk : s.k < s.latched.len.toNat) (hm : s.mem.wf = true)
    (hfree : NoFreeProducts s) (hlate : NoLateRace s s.latched) (hw : WritesMemory s.latched) {o : Nat} (h1 : s.k ≤ o)
    (h2 : o < s.k + chunkLen s) (ho : o % 2 = 0) :
    (readByte (tearChunk s).mem (s.latched.dst.toNat + o) = readByte s.mem (s.latched.dst.toNat + o) ∨
      readByte (tearChunk s).mem (s.latched.dst.toNat + o) = (resultAt s o).extractLsb' 0 8) ∧
    (readByte (tearChunk s).mem (s.latched.dst.toNat + o + 1) = readByte s.mem (s.latched.dst.toNat + o + 1) ∨
      readByte (tearChunk s).mem (s.latched.dst.toNat + o + 1) = (resultAt s o).extractLsb' 8 8) := by
  obtain ⟨hkEven, hlenEven, _⟩ := g.chunk hk
  obtain ⟨j, rfl⟩ : ∃ j, o = s.k + 2 * j := ⟨(o - s.k) / 2, by omega⟩
  have hj : j < chunkLen s / 2 := by omega
  have hvalue : (chunkValues s).1[j]? = some (resultAt s (s.k + 2 * j)) := by
    rw [resultAt, g.partialAt_eq hk h1 h2, chunkValues_eq g hk hfree hlate hw]
    simp [chunkOffsets, hj]
  obtain ⟨hlo, hhi⟩ := getElem?_flatMap_elemBytes _ hvalue
  rw [← Nat.add_assoc]
  exact ⟨readByte_tearBytes_get hm hlo _ _, readByte_tearBytes_get hm hhi _ _⟩

/-- A chunk that writes belongs to a command that writes memory (40_commands.md R140). -/
theorem writesMemory_of_mem {s : State} {a : Nat} (ha : a ∈ chunkWrites s) : WritesMemory s.latched := by
  by_contra hw
  rw [chunkWrites, if_neg fun h => hw ((writesDest_iff _).1 h)] at ha
  cases ha

/-- Settles O36: with no race the end is the torn chunk and the bus error. -/
theorem faultingWriteTearsOnlyItsChunk : Obligations.FaultingWriteTearsOnlyItsChunk := by
  intro s hi hb hk hr hoff hsilent hfree hlate hreads hf
  have hgeo := geometry hi hb
  obtain ⟨a, ha, hfa, hstep⟩ := chunkStep_writeFault hoff hsilent hreads hf
  rw [(lateAccesses_nil hgeo hk hlate).2, drawSpans, settleRace_of_not_raced (by simpa using hr)] at hstep
  refine ⟨_, a, (unitStep_chunk hk).trans hstep, ha, hfa, ?_, rfl, rfl, fun o h1 h2 ho => ?_, fun x hx => ?_⟩
  · exact toNat_maskAddr_access hi hb hk (List.mem_append_right _ ha)
  · exact readByte_tearChunk_inside hgeo hk hi.memory hfree hlate (writesMemory_of_mem ha) h1 h2 ho
  · exact readByte_tearChunk_outside s hx

/-! ## Raced commands (20_memory.md R83) -/

/-- Every destination byte of the command of s holds in t a free value drawn since, and no race is left. -/
def DstFreed (s t : State) : Prop :=
  t.raced = false ∧ ∃ d, s.draws ≤ d ∧
    ∀ j < s.latched.len.toNat, readByte t.mem (s.latched.dst.toNat + j) = freeByte (d + j)

/-- Every byte outside the destination of the command of s is in t as it was. -/
def OutsideDstKept (s t : State) : Prop :=
  ∀ a, a < s.latched.dst.toNat ∨ s.latched.dst.toNat + s.latched.len.toNat ≤ a → readByte t.mem a = readByte s.mem a

theorem settleRace_of_raced {s : State} (h : s.raced = true) : settleRace s = { drawDst s with raced := false } := by
  simp [settleRace, h]

/-- Settling the race of a command frees its destination. -/
theorem dstFreed_settleRace {s u : State} (hl : u.latched = s.latched) (hr : u.raced = true) (hm : u.mem.wf = true)
    (hd : s.draws ≤ u.draws) : DstFreed s (settleRace u) := by
  rw [settleRace_of_raced hr]
  refine ⟨rfl, u.draws, hd, fun j hj => ?_⟩
  rw [← hl] at hj ⊢
  exact readByte_drawBytes_inside hm _ _ _ _ hj

/-- Settling the race of a command changes nothing outside its destination. -/
theorem outsideDstKept_settleRace {s u : State} (hl : u.latched = s.latched) (hr : u.raced = true)
    (hu : OutsideDstKept s u) : OutsideDstKept s (settleRace u) := by
  intro a ha
  rw [settleRace_of_raced hr, ← hu a ha]
  rw [← hl] at ha
  exact readByte_drawBytes_outside _ _ _ ha

theorem tearBytes_draws (m : Memory) (a : Nat) (bs : List Byte) (d : Nat) : (tearBytes m a bs d).2 = d + bs.length := by
  induction bs generalizing m a d with
  | nil => rfl
  | cons b bs ih => rw [tearBytes, ih, List.length_cons]; omega

/-- A torn chunk takes no draw back. -/
theorem draws_le_tearChunk (s : State) : s.draws ≤ (tearChunk s).draws := by
  have hvalues : s.draws ≤ (chunkValues s).2 := mapDraw_le (elemValue_le s) _ _
  have htear : (tearChunk s).draws = (chunkValues s).2 + 1 + ((chunkValues s).1.flatMap elemBytes).length :=
    tearBytes_draws _ _ _ _
  omega

/-- Reset frees the destination of a raced command, whatever K is (70_reset_and_hazards.md R341). -/
theorem abandonCommand_raced {s : State} (hb : s.status.busy = true) (hr : s.raced = true) :
    abandonCommand s = drawDst s := by
  simp [abandonCommand, hb, hr]

/-- How a raced command that meets a bus error ends: FAULT holds one faulting read, or, where no read faults, one
faulting write, and its destination is freed. -/
theorem unitStep_racedFault {s : State} (hi : Inv s) (hr : s.raced = true) (hk : s.k < s.latched.len.toNat)
    (hoff : OffWindow s (ChunkAccesses s)) (hsilent : NoneSilent s (ChunkAccesses s))
    (hf : (∃ a ∈ chunkReads s, elemFaults s false a = true) ∨ (∃ a ∈ chunkWrites s, elemFaults s true a = true)) :
    ∃ (a : Nat) (ps : List Span) (u : State),
      unitStep s = .next (settleRace (busFault a (drawSpans ps u))) ∧
      ((a ∈ chunkReads s ∧ elemFaults s false a = true) ∨
        ((∀ b ∈ chunkReads s, elemFaults s false b = false) ∧ a ∈ chunkWrites s ∧ elemFaults s true a = true)) ∧
      u = { s with mem := u.mem, draws := u.draws } ∧ u.mem.wf = true ∧ s.draws ≤ u.draws ∧
      (NoLateRace s s.latched → ps = [] ∧ OutsideDstKept s u) := by
  have hgeo := geometry hi (hi.raced hr)
  have hnil := lateAccesses_nil hgeo hk
  by_cases hread : ∃ a ∈ chunkReads s, elemFaults s false a = true
  · obtain ⟨a, ha, hfa, hstep⟩ := chunkStep_readFault hoff (hsilent false) hread
    exact ⟨a, _, _, (unitStep_chunk hk).trans hstep, .inl ⟨ha, hfa⟩, rfl, hi.memory, Nat.le_succ _,
      fun hlate => ⟨(hnil hlate).1, fun _ _ => rfl⟩⟩
  · have hreads : ∀ a ∈ chunkReads s, elemFaults s false a = false := fun a ha =>
      Bool.eq_false_iff.2 fun h => hread ⟨a, ha, h⟩
    obtain ⟨a, ha, hfa, hstep⟩ := chunkStep_writeFault hoff hsilent hreads (hf.resolve_left hread)
    obtain ⟨_, _, _, hle, _⟩ := hgeo.chunk hk
    exact ⟨a, _, _, (unitStep_chunk hk).trans hstep, .inr ⟨hreads, ha, hfa⟩, rfl, wf_tearChunk hi.memory,
      draws_le_tearChunk s,
      fun hlate => ⟨(hnil hlate).2, fun x hx => readByte_tearChunk_outside s (by omega)⟩⟩

/-- Settles O59: each end but reset settles the race, and reset draws the same bytes. -/
theorem racedCommandLeavesFreeBytes : Obligations.RacedCommandLeavesFreeBytes := by
  intro s hi hr freed framed
  have hb := hi.raced hr
  refine ⟨fun hk => ?_, fun hk hoff hsilent hf => ?_, fun es hin => ?_⟩
  · exact ⟨_, unitStep_complete hk, by simp, dstFreed_settleRace (u := completeCommand s) rfl hr hi.memory (le_refl _),
      outsideDstKept_settleRace (u := completeCommand s) rfl hr fun _ _ => rfl⟩
  · obtain ⟨a, ps, u, hstep, hfault, hu, hm, hd, hlate⟩ := unitStep_racedFault hi hr hk hoff hsilent hf
    have hl : (busFault a (drawSpans ps u)).latched = s.latched := by
      rw [hu]
      simp
    have hru : (busFault a (drawSpans ps u)).raced = true := by
      rw [hu]
      simpa using hr
    have hmem : a ∈ chunkReads s ++ chunkWrites s :=
      List.mem_append.2 (hfault.imp (fun h => h.1) fun h => h.2.1)
    refine ⟨_, hstep, ?_, ⟨a, ?_, hfault⟩, ?_, fun hno => ?_⟩
    · rw [hu]
      simp
    · rw [hu]
      simpa using toNat_maskAddr_access hi hb hk hmem
    · exact dstFreed_settleRace hl hru (wf_drawSpans ps hm) (le_trans hd (draws_le_drawSpans ps u))
    · obtain ⟨rfl, hkept⟩ := hlate hno
      exact outsideDstKept_settleRace hl hru hkept
  · have hab := abandonCommand_raced (s := withInputs es s) hb hr
    refine ⟨_, step_cons hin, rfl, ⟨rfl, s.draws, le_refl _, fun j hj => ?_⟩, fun a ha => ?_⟩
    · show readByte (abandonCommand (withInputs es s)).mem _ = _
      rw [hab]
      exact readByte_drawBytes_inside hi.memory _ _ _ _ hj
    · show readByte (abandonCommand (withInputs es s)).mem _ = _
      rw [hab]
      exact readByte_drawBytes_outside _ _ _ ha

end Sys2Proof.Machine
end

section
/-! PROOFS. The operand checks, what a chunk accesses and stores, and which steps change memory (20_memory.md R70 to R85; 40_commands.md R136, R137, R140, R146). -/

namespace Sys2Proof.Machine

open Sys2Proof.Config

/-! ## Rejected operands (40_commands.md R136, 60_exceptions.md R303) -/

/-- AUTO resolves to the dispatcher's choice, a name to its engine where that is present (40_commands.md R133). -/
theorem resolve_of_selected {s : State} {sel : EngSel} {e : Engine}
    (h : (sel = .auto ∧ e = select s s.len) ∨ (sel = .named e ∧ present s.params e = true)) :
    resolve s sel s.len = some e := by
  rcases h with ⟨rfl, rfl⟩ | ⟨rfl, hp⟩
  · exact resolve_auto s s.len
  · rw [resolve_named, if_pos hp]

/-- A MULR whose engine resolves and whose operands fail a check takes the check's error (60_exceptions.md R302). -/
theorem exec_mulr_reject {s : State} {sel : EngSel} {e : Engine} {c : ErrCode} (hr : resolve s sel s.len = some e)
    (ho : operandError s = some c) (m : Mode) (g : Gran) :
    exec (mulInstr .mulr m sel g) s = .next (raiseError c (setLastEngine e s)) := by
  simp only [exec_mulr, mulrAccept, hr, ho]

/-- Settles O23: the first check that fails gives the error, and its code is the statement's. -/
theorem mulrWithIllegalOperandsIsRejectedInOrder : Obligations.MulrWithIllegalOperandsIsRejectedInOrder := by
  intro m sel e g s hsel rejected
  have hr := resolve_of_selected hsel
  refine ⟨fun hlen => ?_, fun hlen hin => ?_, fun hlen hin hov => ?_⟩
  · exact exec_mulr_reject hr (c := .oddLen) (by simp [operandError_eq, hlen]) m g
  · exact exec_mulr_reject hr (c := .range) (by simp [operandError_eq, hlen, hin]) m g
  · exact exec_mulr_reject hr (c := .overlap) (by simp [operandError_eq, hlen, hin, hov]) m g

/-! ## The accesses of a chunk (20_memory.md R75, R78; 40_commands.md R140) -/

theorem readsSource_iff (l : Latched) : readsSource l = true ↔ l.scalar ≠ 0 := bne_iff_ne

theorem readsDest_iff (l : Latched) : readsDest l = true ↔ l.mode = .accumulate ∧ l.scalar ≠ 0 := by
  rw [readsDest, Bool.and_eq_true, beq_iff_eq, bne_iff_ne]

/-- The reads of a chunk by the scalar and the mode (40_commands.md R140). -/
theorem chunkReads_eq (s : State) :
    chunkReads s = (if s.latched.scalar ≠ 0 then (chunkOffsets s).map (s.latched.src.toNat + ·) else []) ++
      (if s.latched.mode = .accumulate ∧ s.latched.scalar ≠ 0 then (chunkOffsets s).map (s.latched.dst.toNat + ·)
        else []) := by
  simp only [chunkReads, readsSource_iff, readsDest_iff]

/-- The writes of a chunk by the scalar and the mode (40_commands.md R140). -/
theorem chunkWrites_eq (s : State) :
    chunkWrites s = if ¬ (s.latched.scalar = 0 ∧ s.latched.mode = .accumulate)
      then (chunkOffsets s).map (s.latched.dst.toNat + ·) else [] := by
  simp only [chunkWrites, writesDest_iff, WritesMemory]

/-- The offsets of a chunk's elements are distinct. -/
theorem nodup_chunkOffsets (s : State) : (chunkOffsets s).Nodup :=
  List.nodup_range.map fun i j (h : s.k + 2 * i = s.k + 2 * j) => by omega

/-- The elements of a chunk lie in the region. -/
theorem chunkOffsets_le {s : State} {o : Nat} (ho : o ∈ chunkOffsets s) :
    o + 2 ≤ s.latched.len.toNat := by
  simp only [chunkOffsets, List.mem_map, List.mem_range, chunkLen] at ho
  obtain ⟨j, hj, rfl⟩ := ho
  omega

/-- Settles O33: by the scalar and the mode; the offsets of the statement are those of the chunk's elements. -/
theorem chunkAccessesStayInTheirRegions : Obligations.ChunkAccessesStayInTheirRegions := by
  intro s hi hb offsets fromSrc atDst
  rw [chunkReads_eq, chunkWrites_eq]
  refine ⟨fun h0 hm => ?_, fun h0 hm => ?_, fun h0 hm => ?_, fun h0 hm => ?_, fun o => chunkOffsets_le,
    nodup_chunkOffsets s⟩
  · rw [if_neg (by simp [h0]), if_neg (by simp [h0]), if_neg (by simp [h0, hm])]
    exact ⟨rfl, rfl⟩
  · rw [if_neg (by simp [h0]), if_neg (by simp [h0]), if_pos (by simp [hm])]
    exact ⟨rfl, rfl⟩
  · rw [if_pos h0, if_neg (by simp [hm]), if_pos (by simp [hm]), List.append_nil]
    exact ⟨rfl, rfl⟩
  · rw [if_pos h0, if_pos ⟨hm, h0⟩, if_pos fun h => h0 h.1]
    exact ⟨rfl, rfl⟩

/-- Settles O57: the access shares a byte with the window, and the chunk step looks for such an access first. -/
theorem regionOverTheWindowIsRefused : Obligations.RegionOverTheWindowIsRefused := by
  intro s a hk hw ha hlo hhi
  have htouch : (chunkReads s ++ chunkWrites s).any (touchesWindow s · 2) = true :=
    List.any_eq_true.2 ⟨a, List.mem_append.2 ha, by simp [touchesWindow, rangesMeet, hw, hlo, hhi]⟩
  rw [unitStep, if_neg hk, chunkStep, if_pos htouch]

/-! ## An answered chunk (40_commands.md R137, R146) -/

/-- Settles O32: the chunk's values are its results, since it draws no free value. -/
theorem chunkStepWritesEveryResult : Obligations.ChunkStepWritesEveryResult := by
  intro s hi hb hk hoff hans hfree hlate
  have g := geometry hi hb
  refine ⟨_, (unitStep_chunk hk).trans (chunkStep_eq_storeChunk g hk hoff hans hlate),
    storeChunk_frame g hk hfree hlate, rfl,
    fun o h1 h2 ho => readElem_storeChunk g hk hi.memory hfree hlate h1 h2 ho, fun a ha => ?_⟩
  exact readByte_storeChunk_outside s (by rw [storeChunk_k] at ha; omega)

/-! ## Which steps change memory (20_memory.md R70, R75, R83) -/

theorem mem_lateStores {s : State} {p : Span} {a n : Nat} :
    p ∈ lateStores s a n ↔ p ∈ endedSpans s ∧ StoreTouches p a n := by
  rw [lateStores, List.mem_filter, storeMeets_iff]

theorem mem_lateLoads {s : State} {p : Span} {a n : Nat} :
    p ∈ lateLoads s a n ↔ p ∈ endedSpans s ∧ LoadTouches p a n := by
  rw [lateLoads, List.mem_filter, loadMeets_iff]

/-- Settling a race changes no byte outside the command's destination. -/
theorem readByte_settleRace_outside {s : State} {a : Nat} (h : ¬ InDst (latchedSpan s.latched) a) :
    readByte (settleRace s).mem a = readByte s.mem a := by
  by_cases hr : s.raced = true
  · rw [settleRace_of_raced hr]
    exact readByte_drawSpan_outside h s
  · rw [settleRace_of_not_raced (by simpa using hr)]

/-- A byte outside the command's destination is in none of a chunk's bytes. -/
theorem outside_chunk {s : State} {a : Nat} (h : ¬ InDst (latchedSpan s.latched) a) :
    a < s.latched.dst.toNat + s.k ∨ s.latched.dst.toNat + s.k + chunkLen s ≤ a := by
  simp only [InDst, latchedSpan, chunkLen] at h ⊢
  omega

/-- Reset changes memory only in the destination of a running command (70_reset_and_hazards.md R341). -/
theorem readByte_abandonCommand {s : State} {a : Nat}
    (h : s.status.busy = true → ¬ InDst (latchedSpan s.latched) a) :
    readByte (abandonCommand s).mem a = readByte s.mem a := by
  cases hb : s.status.busy with
  | false => rw [abandonCommand_idle hb]
  | true =>
    have hout := h hb
    cases hr : s.raced with
    | true =>
      rw [abandonCommand_raced hb hr]
      exact readByte_drawSpan_outside hout s
    | false =>
      simp only [abandonCommand, hb, hr, if_true, Bool.false_eq_true, if_false]
      refine readByte_drawBytes_outside _ _ _ ?_
      simp only [InDst, latchedSpan] at hout
      omega

section
variable {s t : State} {a : Nat} (hd : ¬ InDst (latchedSpan s.latched) a)
  (hl : ∀ p ∈ endedSpans s, ChunkTouches p s → ¬ InDst p a)
include hl

/-- The destinations that a chunk's reads race with are among those that its accesses do. -/
theorem notInDst_late : (∀ p ∈ lateReads s, ¬ InDst p a) ∧ ∀ p ∈ lateAccesses s, ¬ InDst p a := by
  refine ⟨fun p hp => ?_, fun p hp => ?_⟩
  · obtain ⟨he, ht⟩ := mem_lateReads.1 hp
    exact hl p he (.inl ht)
  · obtain ⟨he, ht⟩ := mem_lateAccesses.1 hp
    exact hl p he ht

include hd

/-- The unit's move changes memory only in the command's destination, and in those of the ended commands that its
chunk races with (20_memory.md R75, R83). -/
theorem UnitOutcome.readByte_eq (h : UnitOutcome s t) : readByte t.mem a = readByte s.mem a := by
  obtain ⟨hreads, haccesses⟩ := notInDst_late hl
  cases h with
  | waiting _ ps hp h =>
    subst h
    rcases hp with rfl | rfl
    · exact readByte_drawSpans_outside hreads s
    · exact readByte_drawSpans_outside haccesses s
  | completed _ h =>
    subst h
    exact readByte_settleRace_outside (s := completeCommand s) hd
  | readFault b _ _ _ h =>
    subst h
    rw [readByte_settleRace_outside (by simpa using hd)]
    exact readByte_drawSpans_outside hreads _
  | writeFault b _ _ _ h =>
    subst h
    rw [readByte_settleRace_outside (by simpa using hd), busFault_mem, readByte_drawSpans_outside haccesses,
      readByte_tearChunk_outside s (outside_chunk hd)]
  | stored _ h =>
    subst h
    rw [readByte_drawSpans_outside haccesses, readByte_storeChunk_outside s (outside_chunk hd)]

end

/-- No command's acceptance, end or error at its CMD write stores to memory (40_commands.md R130). -/
theorem ExecOutcome.readByte_eq {i : Instr} {s t : State} (h : ExecOutcome i s t) (a : Nat) :
    readByte t.mem a = readByte s.mem a := by
  cases h with
  | mule m sel e g _ h =>
    subst h
    exact (muleEnd_ends m e g s).untouched.memory a
  | _ => subst_vars; simp

theorem WriteOutcome.readByte_eq {r : Reg} {w : Word} {s t : State} (h : WriteOutcome r w s t) (a : Nat) :
    readByte t.mem a = readByte s.mem a := by
  cases h with
  | command _ _ _ _ h => exact h.readByte_eq a
  | _ => subst_vars; simp

/-- Settles O51: whatever the step, a byte outside the ranges of the statement stays. -/
theorem memoryChangesOnlyInTheDestinationOrByAStore : Obligations.MemoryChangesOnlyInTheDestinationOrByAStore := by
  intro s t a hstep hne
  by_contra hno
  simp only [not_or] at hno
  obtain ⟨hstore, hrunning, hended⟩ := hno
  refine hne ?_
  cases step_outcome hstep with
  | unit es hm h =>
    rcases h with rfl | ⟨hb, _, h⟩
    · rfl
    · exact UnitOutcome.readByte_eq (s := withInputs es s) (fun hd => hrunning ⟨hb, .inl hm, hd⟩)
        (fun p hp ht hd => hended ⟨p, hp, hd, .inr (.inr ⟨hb, hm, ht⟩)⟩) h
  | reset es hin h =>
    subst h
    exact readByte_abandonCommand (s := withInputs es s) fun hb hd => hrunning ⟨hb, .inr ⟨es, hin⟩, hd⟩
  | wrote es r w _ _ h => exact (writeReg_outcome h).readByte_eq a
  | store es b bs hin h =>
    subst h
    have hlate : ∀ p ∈ lateStores s b bs.length, ¬ InDst p a := fun p hp hd => by
      obtain ⟨he, ht⟩ := mem_lateStores.1 hp
      exact hended ⟨p, he, hd, .inl ⟨b, bs, es, hin, ht⟩⟩
    have hout : a < b ∨ b + bs.length ≤ a := by
      by_contra hin'
      exact hstore ⟨b, bs, es, hin, by omega, by omega⟩
    rw [readByte_drawSpans_outside hlate]
    exact readByte_writeBytes_outside s.mem bs hout
  | load es b n hin h =>
    subst h
    have hlate : ∀ p ∈ lateLoads s b n, ¬ InDst p a := fun p hp hd => by
      obtain ⟨he, ht⟩ := mem_lateLoads.1 hp
      exact hended ⟨p, he, hd, .inr (.inl ⟨b, n, es, hin, ht⟩)⟩
    exact readByte_drawSpans_outside hlate _
  | quiet ta d es rp us _ h => rw [h]
  | release es h => rw [h]
  | remap es map h => rw [h]

end Sys2Proof.Machine
end

section
/-! PROOFS. Races with a MULR until its end is observed: stores and loads of other agents, the chunks of a later command, and what observes an end (20_memory.md R81, R83; 70_reset_and_hazards.md R345, R346, R349). -/

namespace Sys2Proof.Machine

open Sys2Proof.Config

/-! ## The destinations that a racing access frees (20_memory.md R83) -/

/-- Drawing the destinations of those of the given commands that an access touches frees their bytes and no other. -/
theorem readByte_drawSpans_filtered {ps spans : List Span} {touched : Span → Prop}
    (hps : ∀ {p}, p ∈ ps ↔ p ∈ spans ∧ touched p) {s : State} (hm : s.mem.wf = true) :
    (∀ x, (∃ p ∈ spans, touched p ∧ InDst p x) →
      ∃ d, s.draws ≤ d ∧ d < (drawSpans ps s).draws ∧ readByte (drawSpans ps s).mem x = freeByte d) ∧
    (∀ x, ¬ (∃ p ∈ spans, touched p ∧ InDst p x) → readByte (drawSpans ps s).mem x = readByte s.mem x) := by
  refine ⟨fun x ⟨p, hp, ht, hd⟩ => ?_, fun x hx => ?_⟩
  · exact readByte_drawSpans_inside ⟨p, hps.2 ⟨hp, ht⟩, hd⟩ hm
  · refine readByte_drawSpans_outside (fun p hp hd => hx ?_) s
    obtain ⟨hp, ht⟩ := hps.1 hp
    exact ⟨p, hp, ht, hd⟩

/-! ## Stores and loads of other agents -/

theorem storeRaces_iff (s : State) (a n : Nat) :
    storeRaces s a n = true ↔ s.status.busy = true ∧ StoreTouches (latchedSpan s.latched) a n := by
  rw [storeRaces, Bool.and_eq_true, storeMeets_iff]

theorem loadRaces_iff (s : State) (a n : Nat) :
    loadRaces s a n = true ↔ s.status.busy = true ∧ LoadTouches (latchedSpan s.latched) a n := by
  rw [loadRaces, Bool.and_eq_true, loadMeets_iff]

/-- What a store leaves before the destinations that it races with take free values. -/
def afterStore (a : Nat) (bs : List Byte) (s : State) : State :=
  { s with mem := writeBytes s.mem a bs, raced := s.raced || storeRaces s a bs.length, reply := .written }

/-- What a load leaves before the destinations that it races with take free values. -/
def afterLoad (a n : Nat) (s : State) : State :=
  { s with
    reply := .bytes (loadBytes s a n s.draws).1
    draws := (loadBytes s a n s.draws).2
    raced := s.raced || loadRaces s a n }

/-- A store off the window and within the address space lands (entry 16). -/
theorem memStore_lands {s : State} {a : Nat} {bs : List Byte} (hoff : RangeOffWindow s a bs.length)
    (haw : a + bs.length ≤ 2 ^ s.params.aw) :
    memStore a bs s = .next (drawSpans (lateStores s a bs.length) (afterStore a bs s)) := by
  rw [memStore, if_neg (by omega), if_neg (by simp [hoff.touches])]
  rfl

/-- A load off the window and within the address space answers (entry 16). -/
theorem memLoad_answers {s : State} {a n : Nat} (hoff : RangeOffWindow s a n) (haw : a + n ≤ 2 ^ s.params.aw) :
    memLoad a n s = .next (drawSpans (lateLoads s a n) (afterLoad a n s)) := by
  rw [memLoad, if_neg (by omega), if_neg (by simp [hoff.touches])]
  rfl

/-- A store marks the running command as raced where it meets one of its ranges (20_memory.md R83). -/
theorem afterStore_raced (a : Nat) (bs : List Byte) (s : State) :
    (afterStore a bs s).raced = true ↔
      s.raced = true ∨ (s.status.busy = true ∧ StoreTouches (latchedSpan s.latched) a bs.length) := by
  rw [← storeRaces_iff, ← Bool.or_eq_true]
  rfl

/-- A load marks the running command as raced where it meets its destination (20_memory.md R83). -/
theorem afterLoad_raced (a n : Nat) (s : State) :
    (afterLoad a n s).raced = true ↔
      s.raced = true ∨ (s.status.busy = true ∧ LoadTouches (latchedSpan s.latched) a n) := by
  rw [← loadRaces_iff, ← Bool.or_eq_true]
  rfl

/-- A byte that another agent loads is free where it is a destination byte of the running command or of an ended one. -/
theorem readsFree_iff (s : State) (a : Nat) :
    readsFree s a = true ↔
      (s.status.busy = true ∧ InDst (latchedSpan s.latched) a) ∨ ∃ p ∈ endedSpans s, InDst p a := by
  rw [readsFree, Bool.or_eq_true, lateByte_iff, loadRaces, Bool.and_eq_true, loadMeets_one]

theorem length_loadBytes (s : State) (a n d : Nat) : (loadBytes s a n d).1.length = n := by
  induction n generalizing a d with
  | zero => rfl
  | succ n ih => unfold loadBytes; split <;> simp [ih]

theorem loadBytes_le (s : State) (a n d : Nat) : d ≤ (loadBytes s a n d).2 := by
  induction n generalizing a d with
  | zero => exact le_refl _
  | succ n ih =>
    unfold loadBytes
    split
    · exact le_trans (Nat.le_succ d) (ih (a + 1) (d + 1))
    · exact ih (a + 1) d

/-- Each byte that a load answers is a value drawn by it, where the byte's read races, and else the byte of memory. -/
theorem loadBytes_get (s : State) (a n d : Nat) {j : Nat} (hj : j < n) :
    (readsFree s (a + j) = true →
      ∃ d', d ≤ d' ∧ d' < (loadBytes s a n d).2 ∧ (loadBytes s a n d).1[j]? = some (freeByte d')) ∧
    (readsFree s (a + j) = false → (loadBytes s a n d).1[j]? = some (readByte s.mem (a + j))) := by
  induction n generalizing a d j with
  | zero => omega
  | succ n ih =>
    cases j with
    | zero =>
      cases hf : readsFree s a with
      | true =>
        have hle := loadBytes_le s (a + 1) n (d + 1)
        simp only [Nat.add_zero, loadBytes, hf, if_true]
        exact ⟨fun _ => ⟨d, le_refl _, hle, rfl⟩, (nomatch ·)⟩
      | false =>
        simp only [Nat.add_zero, loadBytes, hf, Bool.false_eq_true, if_false]
        exact ⟨(nomatch ·), fun _ => rfl⟩
    | succ j =>
      have hshift : a + (j + 1) = a + 1 + j := by omega
      rw [hshift]
      cases hf : readsFree s a with
      | true =>
        obtain ⟨hfree, hmem⟩ := ih (a + 1) (d + 1) (j := j) (by omega)
        simp only [loadBytes, hf, if_true, List.getElem?_cons_succ]
        refine ⟨fun h => ?_, hmem⟩
        obtain ⟨d', h1, h2, h3⟩ := hfree h
        exact ⟨d', by omega, h2, h3⟩
      | false =>
        simp only [loadBytes, hf, Bool.false_eq_true, if_false, List.getElem?_cons_succ]
        exact ih (a + 1) d (by omega)

/-! ## The chunks of a later command (70_reset_and_hazards.md R346) -/

/-- A chunk whose accesses are all answered with ok stores its values, and frees the destinations that it races with. -/
theorem chunkStep_answered {s : State} (hoff : OffWindow s (ChunkAccesses s)) (hans : AllAnswered s (ChunkAccesses s)) :
    chunkStep s = .next (drawSpans (lateAccesses s) (storeChunk s)) := by
  obtain ⟨hreadSilent, hwriteSilent⟩ := hans.noneSilent.chunk
  obtain ⟨hreadOk, hwriteOk⟩ := hans.chunk
  simp only [chunkStep, hoff.chunk, phase_done _ hreadOk hreadSilent, phase_done _ hwriteOk hwriteSilent,
    Bool.false_eq_true, if_false]

/-- What the unit reads of an element, byte by byte. -/
def UnitReadsElem (s : State) (d e a : Nat) (v : Elem) : Prop :=
  UnitReads s d e a (v.extractLsb' 0 8) ∧ UnitReads s d e (a + 1) (v.extractLsb' 8 8)

/-- The source element that the chunk reads for the element at byte offset o, 0 where it reads none. -/
def sourceRead (s : State) (o d : Nat) : Elem × Nat :=
  if readsSource s.latched then unitElem s (s.latched.src.toNat + o) d else (0, d)

/-- The destination element that the chunk reads for the element at byte offset o, 0 where it reads none. -/
def targetRead (s : State) (o d : Nat) : Elem × Nat :=
  if readsDest s.latched then unitElem s (s.latched.dst.toNat + o) d else (0, d)

theorem sourceRead_reads (s : State) (o d : Nat) :
    d ≤ (sourceRead s o d).2 ∧ (s.latched.scalar ≠ 0 → ∀ d0 e, d0 ≤ d → (sourceRead s o d).2 ≤ e →
      UnitReadsElem s d0 e (s.latched.src.toNat + o) (sourceRead s o d).1) := by
  by_cases h : readsSource s.latched = true
  · rw [sourceRead, if_pos h]
    obtain ⟨hle, hreads⟩ := unitElem_reads s (s.latched.src.toNat + o) d
    exact ⟨hle, fun _ => hreads⟩
  · rw [sourceRead, if_neg h]
    exact ⟨le_refl _, fun h0 => absurd ((readsSource_iff _).2 h0) h⟩

theorem targetRead_reads (s : State) (o d : Nat) :
    d ≤ (targetRead s o d).2 ∧ (s.latched.mode = .accumulate → s.latched.scalar ≠ 0 →
      ∀ d0 e, d0 ≤ d → (targetRead s o d).2 ≤ e →
        UnitReadsElem s d0 e (s.latched.dst.toNat + o) (targetRead s o d).1) := by
  by_cases h : readsDest s.latched = true
  · rw [targetRead, if_pos h]
    obtain ⟨hle, hreads⟩ := unitElem_reads s (s.latched.dst.toNat + o) d
    exact ⟨hle, fun _ _ => hreads⟩
  · rw [targetRead, if_neg h]
    exact ⟨le_refl _, fun hm h0 => absurd ((readsDest_iff _).2 ⟨hm, h0⟩) h⟩

/-- On loaded tables the value of an element is the result of what the chunk reads for it (40_commands.md R137). -/
theorem elemValue_loaded {s : State} (hl : TablesLoaded s) (o d : Nat) :
    elemValue s o d =
      (latchedResult s (sourceRead s o d).1 (targetRead s o (sourceRead s o d).2).1 (chunkPartial s),
        (targetRead s o (sourceRead s o d).2).2) := by
  have hvalue : elemValue s o d =
      ((targetRead s o (sourceRead s o d).2).1 ^^^ latchedProduct s (sourceRead s o d).1 (chunkPartial s),
        (targetRead s o (sourceRead s o d).2).2) := by
    show ((targetRead s o (sourceRead s o d).2).1 ^^^ (prod s _ _ _ _ _).1, (prod s _ _ _ _ _).2) = _
    rw [prod_loaded hl]
    rfl
  rw [hvalue, latchedResult]
  cases hm : s.latched.mode with
  | assign =>
    have htarget : ∀ c, targetRead s o c = (0, c) := fun c =>
      if_neg fun h => by simp [(readsDest_iff _).1 h] at hm
    rw [htarget]
    simp
  | accumulate => rfl

/-- Each value of an answered chunk is the result of what the chunk reads for its element. -/
theorem chunkValues_reads {s : State} (hl : TablesLoaded s) {j : Nat} (hj : j < chunkLen s / 2) :
    ∃ x y : Elem, (chunkValues s).1[j]? = some (latchedResult s x y (chunkPartial s)) ∧
      (s.latched.scalar ≠ 0 →
        UnitReadsElem s s.draws (chunkValues s).2 (s.latched.src.toNat + (s.k + 2 * j)) x) ∧
      (s.latched.scalar ≠ 0 → s.latched.mode = .accumulate →
        UnitReadsElem s s.draws (chunkValues s).2 (s.latched.dst.toNat + (s.k + 2 * j)) y) := by
  have hlen : j < (chunkOffsets s).length := by simpa [chunkOffsets] using hj
  have ho : (chunkOffsets s)[j] = s.k + 2 * j := by simp [chunkOffsets]
  obtain ⟨d, hd, hend, hget⟩ := mapDraw_get (elemValue_le s) (chunkOffsets s) s.draws j hlen
  rw [ho, elemValue_loaded hl] at hend hget
  obtain ⟨hsource, hx⟩ := sourceRead_reads s (s.k + 2 * j) d
  obtain ⟨htarget, hy⟩ := targetRead_reads s (s.k + 2 * j) (sourceRead s (s.k + 2 * j) d).2
  exact ⟨_, _, hget, fun h0 => hx h0 _ _ hd (le_trans htarget hend),
    fun h0 hm => hy hm h0 _ _ (le_trans hd hsource) hend⟩

/-- A chunk that writes leaves its values, each in the two bytes of its element (20_memory.md R72). -/
theorem readByte_storeChunk_inside {s : State} (hm : s.mem.wf = true) (hw : WritesMemory s.latched) {j : Nat} {v : Elem}
    (hv : (chunkValues s).1[j]? = some v) :
    readByte (storeChunk s).mem (s.latched.dst.toNat + (s.k + 2 * j)) = v.extractLsb' 0 8 ∧
      readByte (storeChunk s).mem (s.latched.dst.toNat + (s.k + 2 * j) + 1) = v.extractLsb' 8 8 := by
  obtain ⟨hj, hv⟩ := List.getElem?_eq_some_iff.1 hv
  have helem : readElem (storeChunk s).mem (s.latched.dst.toNat + (s.k + 2 * j)) = v := by
    rw [storeChunk_mem, if_pos ((writesDest_iff _).2 hw), ← Nat.add_assoc, readElem_writeElems hm _ _ j hj, hv]
  rw [← helem, readElem, extract_append_lo, extract_append_hi]
  exact ⟨rfl, rfl⟩

/-! ## The race rules -/

/-- Settles O58: a store, a load, a chunk, a read of STATUS and the taking of the interrupt, one after the other. -/
theorem racingAccessesAreMarkedAndReadFreeBytes : Obligations.RacingAccessesAreMarkedAndReadFreeBytes := by
  refine ⟨?store, ?load, ?chunk, ?status, ?interrupt⟩
  case store =>
    intro s a bs es hin hoff haw hm freed
    obtain ⟨hfreed, hkept⟩ := readByte_drawSpans_filtered (ps := lateStores s a bs.length) mem_lateStores
      (s := afterStore a bs (withInputs es s)) (wf_writeBytes bs a hm)
    refine ⟨_, (step_cons hin).trans (memStore_lands (s := withInputs es s) hoff haw), drawSpans_unobserved _ _, ?_,
      hfreed, hkept⟩
    rw [drawSpans_raced]
    exact afterStore_raced a bs (withInputs es s)
  case load =>
    intro s a n es hin hoff haw hm freed
    have hdrawn := loadBytes_le (withInputs es s) a n s.draws
    have hdraws := draws_le_drawSpans (lateLoads s a n) (afterLoad a n (withInputs es s))
    obtain ⟨hfreed, hkept⟩ := readByte_drawSpans_filtered (ps := lateLoads s a n) mem_lateLoads
      (s := afterLoad a n (withInputs es s)) hm
    refine ⟨_, _, (step_cons hin).trans (memLoad_answers (s := withInputs es s) hoff haw), drawSpans_unobserved _ _,
      drawSpans_reply _ _, length_loadBytes _ _ _ _, ?_, fun j hj => ?_, fun x hx => ?_, hkept⟩
    · rw [drawSpans_raced]
      exact afterLoad_raced a n (withInputs es s)
    · obtain ⟨hfree, hmem⟩ := loadBytes_get (withInputs es s) a n s.draws hj
      refine ⟨fun hx => ?_, fun hx => hmem (Bool.eq_false_iff.2 fun h => hx ((readsFree_iff _ _).1 h))⟩
      obtain ⟨d, h1, h2, h3⟩ := hfree ((readsFree_iff _ _).2 hx)
      exact ⟨d, h1, lt_of_lt_of_le h2 hdraws, h3⟩
    · obtain ⟨d, h1, h2, h3⟩ := hfreed x hx
      exact ⟨d, le_trans hdrawn h1, h2, h3⟩
  case chunk =>
    intro s hi hb hk hoff hans hl freed
    have g := geometry hi hb
    obtain ⟨hkEven, _⟩ := g.chunk hk
    obtain ⟨hfreed, hkept⟩ := readByte_drawSpans_filtered (ps := lateAccesses s) mem_lateAccesses
      (s := storeChunk s) (wf_storeChunk hi.memory)
    refine ⟨_, _, (unitStep_chunk hk).trans (chunkStep_answered hoff hans), drawSpans_frame _ _, hfreed,
      fun a ha hout => ?_, fun hw o h1 h2 ho => ?_⟩
    · rw [hkept a ha]
      refine readByte_storeChunk_outside s ?_
      rwa [drawSpans_k, storeChunk_k, ← Nat.add_assoc] at hout
    · rw [drawSpans_k, storeChunk_k] at h2
      obtain ⟨j, rfl⟩ : ∃ j, o = s.k + 2 * j := ⟨(o - s.k) / 2, by omega⟩
      obtain ⟨x, y, hget, hx, hy⟩ := chunkValues_reads hl (j := j) (by omega)
      obtain ⟨hlo, hhi⟩ := readByte_storeChunk_inside hi.memory hw hget
      rw [← g.partialAt_eq hk h1 h2] at hlo hhi
      exact ⟨x, y, hx, hy, fun h => (hkept _ h).trans hlo, fun h => (hkept _ h).trans hhi⟩
  case status =>
    intro s es hb hr hin
    refine ⟨_, step_reads hr (portAccess_reg s .status) hin, ?_⟩
    rw [readReg_state (by decide), learn_eq, if_pos ⟨rfl, hb⟩]
    rfl
  case interrupt =>
    intro s es hin hirq
    have htake : takeIrq (withInputs es s) = observeIrq (withInputs es s) := if_pos hirq
    rw [step_cons hin, event, htake, observeIrq]
    simp

end Sys2Proof.Machine
end

section
/-! PROOFS. The encoding: the fields of a word and the word of its fields, the codes of the fields, decoding by the operation, and the round trip (30_encoding.md R101 to R107, R109). -/

namespace Sys2Proof

open Sys2Proof.Machine

/-! ## The fields of a word (30_encoding.md R101, R107) -/

theorem toNat_fieldOp (w : Word) : (fieldOp w).toNat = w.toNat % 16 := by
  simp [fieldOp]

theorem toNat_fieldMode (w : Word) : (fieldMode w).toNat = w.toNat / 16 % 4 := by
  simp [fieldMode, Nat.shiftRight_eq_div_pow]

theorem toNat_fieldEng (w : Word) : (fieldEng w).toNat = w.toNat / 256 % 8 := by
  simp [fieldEng, Nat.shiftRight_eq_div_pow]

theorem toNat_fieldGran (w : Word) : (fieldGran w).toNat = w.toNat / 4096 % 2 := by
  simp [fieldGran, Nat.shiftRight_eq_div_pow]

theorem mulZeroBits_iff (w : Word) :
    mulZeroBits w = true ↔ w.toNat / 64 % 4 = 0 ∧ w.toNat / 2048 % 2 = 0 ∧ w.toNat / 8192 = 0 := by
  have hw := w.isLt
  simp only [mulZeroBits, Bool.and_eq_true, beq_iff_eq, ← BitVec.toNat_inj, BitVec.extractLsb'_toNat,
    BitVec.ofNat_eq_ofNat, BitVec.toNat_ofNat, Nat.shiftRight_eq_div_pow]
  omega

/-! ## The word of its fields (30_encoding.md R101) -/

theorem toNat_append_eq_add {m n : Nat} (x : BitVec m) (y : BitVec n) :
    (x ++ y).toNat = x.toNat * 2 ^ n + y.toNat := by
  rw [BitVec.toNat_append, ← Nat.shiftLeft_add_eq_or_of_lt y.isLt, Nat.shiftLeft_eq]

/-- Each field stands at its place of R101. -/
theorem toNat_encodeFields (f : CmdFields) :
    (encodeFields f).toNat = f.op.toNat + 16 * f.mode.toNat + 256 * f.eng.toNat + 4096 * f.gran.toNat := by
  rw [encodeFields, toNat_append_eq_add]
  simp only [toNat_append_eq_add, BitVec.ofNat_eq_ofNat, BitVec.toNat_ofNat]
  omega

@[simp] theorem fieldOp_encodeFields (f : CmdFields) : fieldOp (encodeFields f) = f.op := by
  apply BitVec.eq_of_toNat_eq
  rw [toNat_fieldOp, toNat_encodeFields]
  omega

@[simp] theorem fieldMode_encodeFields (f : CmdFields) : fieldMode (encodeFields f) = f.mode := by
  apply BitVec.eq_of_toNat_eq
  rw [toNat_fieldMode, toNat_encodeFields]
  omega

@[simp] theorem fieldEng_encodeFields (f : CmdFields) : fieldEng (encodeFields f) = f.eng := by
  apply BitVec.eq_of_toNat_eq
  rw [toNat_fieldEng, toNat_encodeFields]
  omega

@[simp] theorem fieldGran_encodeFields (f : CmdFields) : fieldGran (encodeFields f) = f.gran := by
  apply BitVec.eq_of_toNat_eq
  rw [toNat_fieldGran, toNat_encodeFields]
  omega

@[simp] theorem mulZeroBits_encodeFields (f : CmdFields) : mulZeroBits (encodeFields f) = true := by
  rw [mulZeroBits_iff, toNat_encodeFields]
  omega

/-- A word whose must-be-zero bits are clear is its fields and nothing else. -/
theorem encodeFields_of_mulZeroBits {w : Word} (h : mulZeroBits w = true) :
    encodeFields ⟨fieldOp w, fieldMode w, fieldEng w, fieldGran w⟩ = w := by
  rw [mulZeroBits_iff] at h
  apply BitVec.eq_of_toNat_eq
  rw [toNat_encodeFields, toNat_fieldOp, toNat_fieldMode, toNat_fieldEng, toNat_fieldGran]
  omega

/-! ## The codes of the fields (30_encoding.md R102 to R106) -/

/-- The OP code of an operation with a mode and an engine (30_encoding.md R102); `fields_mulInstr` ties it to the
model. -/
def MulOp.code : MulOp → BitVec 4
  | .mulr => 1
  | .mule => 2

/-- A MODE code names the one mode whose code it is. -/
theorem decodeMode_eq_some_iff (c : BitVec 2) (m : Mode) : decodeMode c = some m ↔ c = m.code := by
  cases m <;> revert c <;> decide

theorem decodeMode_eq_none_iff (c : BitVec 2) : decodeMode c = none ↔ 2 ≤ c.toNat := by
  revert c; decide

theorem decodeEng_eq_some_iff (c : BitVec 3) (e : EngSel) : decodeEng c = some e ↔ c = e.code := by
  rcases e with _ | e
  · revert c; decide
  · cases e <;> revert c <;> decide

theorem decodeEng_eq_none_iff (c : BitVec 3) : decodeEng c = none ↔ 6 ≤ c.toNat := by
  revert c; decide

@[simp] theorem decodeGran_code (g : Gran) : decodeGran g.code = g := by
  cases g <;> rfl

@[simp] theorem code_decodeGran (c : BitVec 1) : (decodeGran c).code = c := by
  revert c; decide

theorem fields_mulInstr (op : MulOp) (m : Mode) (e : EngSel) (g : Gran) :
    (mulInstr op m e g).fields = ⟨op.code, m.code, e.code, g.code⟩ := by
  rcases e with _ | e
  · cases op <;> cases m <;> rfl
  · cases op <;> cases m <;> cases e <;> rfl

theorem encode_mulInstr (op : MulOp) (m : Mode) (e : EngSel) (g : Gran) :
    encode (mulInstr op m e g) = encodeFields ⟨op.code, m.code, e.code, g.code⟩ := by
  rw [encode, fields_mulInstr]

/-! ## Decoding by the operation (30_encoding.md R109) -/

/-- OP is that of NOP, of SEL, of MULR or MULE, or reserved (30_encoding.md R102). -/
theorem fieldOp_cases (w : Word) :
    fieldOp w = 0 ∨ fieldOp w = 3 ∨ (∃ op : MulOp, fieldOp w = op.code) ∨ 4 ≤ (fieldOp w).toNat := by
  have key : ∀ c : BitVec 4, c = 0 ∨ c = 3 ∨ (c = MulOp.mulr.code ∨ c = MulOp.mule.code) ∨ 4 ≤ c.toNat := by
    decide
  rcases key (fieldOp w) with h | h | (h | h) | h
  · exact .inl h
  · exact .inr (.inl h)
  · exact .inr (.inr (.inl ⟨.mulr, h⟩))
  · exact .inr (.inr (.inl ⟨.mule, h⟩))
  · exact .inr (.inr (.inr h))

theorem decode_of_op_nop {w : Word} (h : fieldOp w = 0) :
    decode w = if w = 0 then .ok .nop else .error .badOp := by
  simp [decode, h]

theorem decode_of_op_sel {w : Word} (h : fieldOp w = 3) :
    decode w = if w = 3 then .ok .sel else .error .badOp := by
  simp [decode, h]

theorem decode_of_op_mul {w : Word} {op : MulOp} (h : fieldOp w = op.code) : decode w = decodeMul op w := by
  cases op <;> simp [decode, h, MulOp.code]

theorem decode_of_op_reserved {w : Word} (h : 4 ≤ (fieldOp w).toNat) : decode w = .error .badOp := by
  have hne : ∀ c : BitVec 4, c.toNat < 4 → fieldOp w ≠ c := by
    rintro c hc rfl
    omega
  simp only [decode, hne 0 (by decide), hne 1 (by decide), hne 2 (by decide), hne 3 (by decide), if_false]

/-! ## The checks of MULR and MULE in their order (30_encoding.md R109) -/

section
variable {op : MulOp} {w : Word} {m : Mode} {e : EngSel} {i : Instr}

theorem decodeMul_of_mustBeZero (hz : ¬ mulZeroBits w = true) : decodeMul op w = .error .badOp := by
  simp [decodeMul, hz]

theorem decodeMul_of_badMode (hz : mulZeroBits w = true) (hm : 2 ≤ (fieldMode w).toNat) :
    decodeMul op w = .error .badMode := by
  simp [decodeMul, hz, (decodeMode_eq_none_iff _).2 hm]

theorem decodeMul_of_badEngine (hz : mulZeroBits w = true) (hm : fieldMode w = m.code) (he : 6 ≤ (fieldEng w).toNat) :
    decodeMul op w = .error .badEngine := by
  simp [decodeMul, hz, (decodeMode_eq_some_iff _ m).2 hm, (decodeEng_eq_none_iff _).2 he]

theorem decodeMul_of_codes (hz : mulZeroBits w = true) (hm : fieldMode w = m.code) (he : fieldEng w = e.code) :
    decodeMul op w = .ok (mulInstr op m e (decodeGran (fieldGran w))) := by
  simp [decodeMul, hz, (decodeMode_eq_some_iff _ m).2 hm, (decodeEng_eq_some_iff _ e).2 he]

/-- A word that passes the checks names the mode, the engine and the granularity of its command. -/
theorem codes_of_decodeMul (h : decodeMul op w = .ok i) :
    mulZeroBits w = true ∧ ∃ (m : Mode) (e : EngSel), fieldMode w = m.code ∧ fieldEng w = e.code ∧
      i = mulInstr op m e (decodeGran (fieldGran w)) := by
  by_cases hz : mulZeroBits w = true
  · cases hm : decodeMode (fieldMode w) with
    | none => simp [decodeMul_of_badMode hz ((decodeMode_eq_none_iff _).1 hm)] at h
    | some m =>
      rw [decodeMode_eq_some_iff] at hm
      cases he : decodeEng (fieldEng w) with
      | none => simp [decodeMul_of_badEngine hz hm ((decodeEng_eq_none_iff _).1 he)] at h
      | some e =>
        rw [decodeEng_eq_some_iff] at he
        rw [decodeMul_of_codes hz hm he] at h
        exact ⟨hz, m, e, hm, he, (Except.ok.inj h).symm⟩
  · simp [decodeMul_of_mustBeZero hz] at h

end

/-! ## The round trip (30_encoding.md R101 to R109) -/

theorem decode_encode (i : Instr) : decode (encode i) = .ok i := by
  rcases instr_cases i with rfl | rfl | ⟨op, m, e, g, rfl⟩
  · rfl
  · rfl
  · rw [encode_mulInstr, decode_of_op_mul (op := op) (by simp), decodeMul_of_codes (m := m) (e := e)] <;> simp

theorem encode_of_decode {w : Word} {i : Instr} (h : decode w = .ok i) : encode i = w := by
  rcases fieldOp_cases w with hop | hop | ⟨op, hop⟩ | hop
  · rw [decode_of_op_nop hop] at h
    split at h <;> cases h
    subst w
    rfl
  · rw [decode_of_op_sel hop] at h
    split at h <;> cases h
    subst w
    rfl
  · rw [decode_of_op_mul hop] at h
    obtain ⟨hz, m, e, hm, he, rfl⟩ := codes_of_decodeMul h
    rw [encode_mulInstr, code_decodeGran, ← hop, ← hm, ← he, encodeFields_of_mulZeroBits hz]
  · simp [decode_of_op_reserved hop] at h

theorem encode_injective : Function.Injective encode := by
  intro i j h
  have hj := decode_encode j
  rw [← h, decode_encode i] at hj
  exact Except.ok.inj hj

@[simp] theorem wordOfBytes_bytesOfWord (w : Word) : wordOfBytes (bytesOfWord w) = some w := by
  have hw := w.isLt
  refine congrArg some (BitVec.eq_of_toNat_eq ?_)
  rw [toNat_append_eq_add]
  simp only [toNat_append_eq_add, BitVec.extractLsb'_toNat, Nat.shiftRight_eq_div_pow]
  omega

/-- Settles O1: the fields of a command's word are the command's, and its four bytes make the word again. -/
theorem encodedCommandDecodesToItself : Obligations.EncodedCommandDecodesToItself :=
  fun i => ⟨decode_encode i, by rw [decodeBytes, wordOfBytes_bytesOfWord, Option.map_some, decode_encode]⟩

/-- Settles O2: by the operation; a MULR or MULE word is its fields, which are the codes of its command. -/
theorem decodedWordIsTheCommandsOnlyWord : Obligations.DecodedWordIsTheCommandsOnlyWord :=
  fun _ _ => encode_of_decode

/-! ## The verdict by the fields as numbers (30_encoding.md R109) -/

/-- The operation of an OP field that is 1 or 2 (30_encoding.md R102). -/
theorem fieldOp_eq_code {w : Word} (h : w.toNat % 16 = 1 ∨ w.toNat % 16 = 2) :
    fieldOp w = (if w.toNat % 16 = 1 then MulOp.mulr else .mule).code := by
  apply BitVec.eq_of_toNat_eq
  rw [toNat_fieldOp]
  rcases h with h | h <;> rw [h] <;> rfl

/-- The mode of a legal MODE field (30_encoding.md R103). -/
theorem fieldMode_eq_code {w : Word} (h : w.toNat / 16 % 4 < 2) :
    fieldMode w = (if w.toNat / 16 % 4 = 0 then Mode.assign else .accumulate).code := by
  apply BitVec.eq_of_toNat_eq
  rw [toNat_fieldMode]
  generalize w.toNat / 16 % 4 = n at h
  interval_cases n <;> rfl

/-- The selection of an ENG code below 6 (30_encoding.md R104). -/
def engSelOfCode : Nat → EngSel
  | 0 => .auto
  | 1 => .named .log
  | 2 => .named .shufN
  | 3 => .named .shufW
  | 4 => .named .clmul
  | _ => .named .affine

/-- The selection of a legal ENG field (30_encoding.md R104). -/
theorem fieldEng_eq_code {w : Word} (h : w.toNat / 256 % 8 < 6) :
    fieldEng w = (engSelOfCode (w.toNat / 256 % 8)).code := by
  apply BitVec.eq_of_toNat_eq
  rw [toNat_fieldEng]
  generalize w.toNat / 256 % 8 = n at h
  interval_cases n <;> rfl

theorem decodeGran_fieldGran (w : Word) :
    decodeGran (fieldGran w) = if w.toNat / 4096 % 2 = 0 then .nibble else .byte := by
  simp [decodeGran, ← BitVec.toNat_inj, toNat_fieldGran]

/-- A word with nothing above OP is its OP (30_encoding.md R107). -/
theorem word_eq_iff {w c : Word} (hc : c.toNat < 16) : w = c ↔ w.toNat % 16 = c.toNat ∧ w.toNat / 16 = 0 := by
  rw [← BitVec.toNat_inj]
  omega

/-- Settles O3: by the operation, and for MULR and MULE the checks one after the other. -/
theorem decodeVerdictFollowsTheFieldChecks : Obligations.DecodeVerdictFollowsTheFieldChecks := by
  intro w
  have hop (c : BitVec 4) (h : w.toNat % 16 = c.toNat) : fieldOp w = c :=
    BitVec.eq_of_toNat_eq ((toNat_fieldOp w).trans h)
  refine ⟨fun h => ?_, fun h hne => ?_, fun h h0 => ?_, fun h hne => ?_, fun h h0 => ?_, fun h hz => ?_,
    fun h hz hm => ?_, fun h hz hm he => ?_, fun h hz hm he => ?_⟩
  · exact decode_of_op_reserved (by rwa [toNat_fieldOp])
  · rw [decode_of_op_nop (hop 0 h), if_neg fun hw => hne ((word_eq_iff (by decide)).1 hw).2]
  · rw [decode_of_op_nop (hop 0 h), if_pos ((word_eq_iff (by decide)).2 ⟨h, h0⟩)]
  · rw [decode_of_op_sel (hop 3 h), if_neg fun hw => hne ((word_eq_iff (by decide)).1 hw).2]
  · rw [decode_of_op_sel (hop 3 h), if_pos ((word_eq_iff (by decide)).2 ⟨h, h0⟩)]
  all_goals rw [decode_of_op_mul (fieldOp_eq_code h)]
  · exact decodeMul_of_mustBeZero fun hzero => hz ((mulZeroBits_iff w).1 hzero)
  · exact decodeMul_of_badMode ((mulZeroBits_iff w).2 hz) (by rwa [toNat_fieldMode])
  · exact decodeMul_of_badEngine ((mulZeroBits_iff w).2 hz) (fieldMode_eq_code hm) (by rwa [toNat_fieldEng])
  · have hok := decodeMul_of_codes (op := if w.toNat % 16 = 1 then .mulr else .mule) ((mulZeroBits_iff w).2 hz)
      (fieldMode_eq_code hm) (fieldEng_eq_code he)
    rw [decodeGran_fieldGran] at hok
    exact hok

/-! ## The 50 commands (30_encoding.md R109) -/

theorem mem_allInstrs (i : Instr) : i ∈ allInstrs := by
  rcases instr_cases i with rfl | rfl | ⟨op, m, e, g, rfl⟩
  · decide
  · decide
  · simp only [allInstrs, List.mem_append, List.mem_flatMap]
    refine .inr ⟨op, ?_, m, ?_, e, ?_, ?_⟩
    · cases op <;> decide
    · cases m <;> decide
    · rcases e with _ | e
      · decide
      · cases e <;> decide
    · cases g <;> simp

theorem nodup_allInstrs : allInstrs.Nodup := by decide

/-- Settles O4: the words of all commands, no two of which have the same word; a word that decodes is one of them. -/
theorem exactlyFiftyWordsAreCommands : Obligations.ExactlyFiftyWordsAreCommands := by
  refine ⟨nodup_allInstrs.map encode_injective, rfl, fun w => ?_⟩
  rw [List.mem_map]
  constructor
  · rintro ⟨i, hi⟩
    exact ⟨i, mem_allInstrs i, encode_of_decode hi⟩
  · rintro ⟨i, -, rfl⟩
    exact ⟨i, decode_encode i⟩

/-- Settles O5: the words evaluated. -/
theorem sampleWordsDecodeToTheirCommands : Obligations.SampleWordsDecodeToTheirCommands := by
  unfold Obligations.SampleWordsDecodeToTheirCommands
  decide

end Sys2Proof
end

section
/-! PROOFS. The commands that end at their CMD write: the write itself, NOP, SEL, the dispatcher and MULE on every engine (40_commands.md R130 to R141). -/

namespace Sys2Proof.Machine

open Sys2Proof.Config

/-! ## The CMD write (40_commands.md R130) -/

/-- A CMD write that finds the block idle runs the command that its word decodes to. -/
theorem cmdWrite_of_decode_ok {s : State} {w : Word} {i : Instr} (hb : s.status.busy = false) (hd : decode w = .ok i) :
    cmdWrite w s = exec i s := by
  simp only [cmdWrite, hb, hd, Bool.false_eq_true, if_false]

/-- A CMD write that finds the block idle takes the error of a word that is no command. -/
theorem cmdWrite_of_decode_error {s : State} {w : Word} {e : DecodeError} (hb : s.status.busy = false)
    (hd : decode w = .error e) : cmdWrite w s = .next (raiseError (.ofDecode e) s) := by
  simp only [cmdWrite, hb, hd, Bool.false_eq_true, if_false]

/-- The step of a write to CMD's address is the CMD write. -/
theorem step_writes_cmd {s : State} {w : Word} {es : List Event} (hs : Ready s)
    (hin : s.inputs = .portWrite (regAddr s.params .cmd) .w32 w :: es) :
    step s = cmdWrite w { s with inputs := es, reply := .written } :=
  step_writes hs.2 (portAccess_reg s .cmd) hin

/-- Settles O6: the write reaches CMD, and the word decodes to the command. -/
theorem stepRunsTheDecodedCommand : Obligations.StepRunsTheDecodedCommand :=
  fun _ _ _ _ hs hin hd => (step_writes_cmd hs hin).trans (cmdWrite_of_decode_ok hs.1 hd)

/-- Settles O7: the error taken clears BUSY, which was clear, and its code is the statement's. -/
theorem illegalWordTakesItsError : Obligations.IllegalWordTakesItsError := by
  intro s w e es hs hin hd
  refine ((step_writes_cmd hs hin).trans (cmdWrite_of_decode_error hs.1 hd)).trans ?_
  rw [raiseError, ← hs.1]
  cases e <;> rfl

/-! ## What every command leaves (40_commands.md R130; 60_exceptions.md R300, R302) -/

/-- Every command has a next state, accepted or rejected. -/
theorem exec_answers (i : Instr) (s : State) : ∃ t, exec i s = .next t := by
  rcases instr_cases i with rfl | rfl | ⟨op, m, sel, g, rfl⟩
  · exact ⟨_, rfl⟩
  · exact ⟨_, rfl⟩
  · cases op with
    | mulr =>
      rw [exec_mulr]
      rcases mulrAccept_cases m sel g s with ⟨_, h⟩ | ⟨_, _, _, _, h⟩ | ⟨_, _, _, h⟩ <;> exact ⟨_, h⟩
    | mule =>
      rw [exec_mule]
      rcases mule_cases m sel g s with ⟨_, h⟩ | ⟨_, _, h⟩ <;> exact ⟨_, h⟩

/-- No command writes the registers that the host writes. -/
theorem ExecOutcome.hostRegisters {i : Instr} {s t : State} (h : ExecOutcome i s t) :
    t.ctrl = s.ctrl ∧ t.thresh = s.thresh ∧ t.src = s.src ∧ t.dst = s.dst ∧ t.len = s.len ∧ t.scalar = s.scalar ∧
      t.opnd = s.opnd ∧ t.tblAddr = s.tblAddr := by
  cases h with
  | mule m sel e g _ h =>
    subst h
    have hframe := (muleEnd_ends m e g s).untouched
    exact ⟨hframe.ctrl, hframe.thresh, hframe.src, hframe.dst, hframe.len, hframe.scalar, hframe.opnd, hframe.tblAddr⟩
  | _ => subst_vars; simp

/-- Settles O60: every outcome of a command keeps what the statement names, and the CMD write of its word is the
command. -/
theorem everyCommandEndsItsWriteWithMemoryUnchanged : Obligations.EveryCommandEndsItsWriteWithMemoryUnchanged := by
  intro i s kept
  have keeps (es : List Event) (rp : Reply) {t : State} (h : ExecOutcome i { s with inputs := es, reply := rp } t) :
      kept t := ⟨h.readByte_eq, h.sameBase.logTbl, h.sameBase.expTbl, h.fault, h.hostRegisters⟩
  refine ⟨?_, fun es hs hin => ?_⟩
  · obtain ⟨t, ht⟩ := exec_answers i s
    exact ⟨t, ht, keeps s.inputs s.reply (exec_outcome ht)⟩
  · obtain ⟨t, ht⟩ := exec_answers i { s with inputs := es, reply := .written }
    exact ⟨t, (stepRunsTheDecodedCommand s _ i es hs hin (decode_encode i)).trans ht, keeps es .written (exec_outcome ht)⟩

/-! ## NOP and SEL (40_commands.md R134, R135) -/

/-- Settles O10: NOP is the end without error alone. -/
theorem nopOnlySetsDone : Obligations.NopOnlySetsDone := fun s => ⟨endOk s, rfl, rfl⟩

/-- Settles O11: SEL writes LAST_ENGINE and ends without error. -/
theorem selReportsTheDispatchersChoice : Obligations.SelReportsTheDispatchersChoice := by
  intro s
  refine ⟨endOk (setLastEngine (select s s.len) s), rfl, rfl, rfl, rfl, rfl, rfl, rfl, rfl, ?_⟩
  constructor <;> simp

/-! ## The dispatcher (40_commands.md R131 to R133) -/

/-- The policy with its comparison as one of numbers. -/
theorem select_eq (s : State) (len : Word) : select s len =
    if s.params.hasAffine = true then .affine
    else if s.params.hasShufW = true ∧ s.thresh.toNat < len.toNat ∧ s.ctrl.slowWide = false then .shufW
    else if s.params.hasShufN = true ∧ s.thresh.toNat < len.toNat then .shufN
    else if s.params.hasClmul = true then .clmul
    else .log := by
  simp only [select, BitVec.ult, Bool.and_eq_true, decide_eq_true_eq, Bool.not_eq_true', and_assoc]

/-- Settles O12: the branches of the policy one after the other. -/
theorem selectionFollowsThePriorityOrder : Obligations.SelectionFollowsThePriorityOrder := by
  intro s len p long
  rw [select_eq]
  refine ⟨fun ha => if_pos ha, fun ha hw => ?_, fun ha hw hn => ?_, fun ha hw hn hc => ?_, fun ha hw hn hc => ?_⟩ <;>
    rw [if_neg (by simp [p, ha])]
  · rw [if_pos hw]
  · rw [if_neg hw, if_pos hn]
  · rw [if_neg hw, if_neg hn, if_pos hc]
  · rw [if_neg hw, if_neg hn, if_neg (by simp [p, hc])]

/-- Settles O13: the policy reads the presence of four engines, THRESH and SLOW_WIDE. -/
theorem selectionIsAPresentEngineOfItsInputs : Obligations.SelectionIsAPresentEngineOfItsInputs := by
  refine ⟨present_select, fun s t len hp hthresh hslow => ?_⟩
  have haffine : t.params.hasAffine = s.params.hasAffine := hp .affine
  have hshufW : t.params.hasShufW = s.params.hasShufW := hp .shufW
  have hshufN : t.params.hasShufN = s.params.hasShufN := hp .shufN
  have hclmul : t.params.hasClmul = s.params.hasClmul := hp .clmul
  rw [select_eq, select_eq, haffine, hshufW, hshufN, hclmul, hthresh, hslow]

/-- Settles O14: the engine does not resolve, which is checked before every other operand. -/
theorem namedAbsentEngineIsAnError : Obligations.NamedAbsentEngineIsAnError := by
  intro op m e g s he
  have hres (len : Word) : resolve s (.named e) len = none := by
    rw [resolve_named, if_neg (by simp [he])]
  cases op with
  | mulr =>
    rw [exec_mulr, mulrAccept, hres]
    rfl
  | mule =>
    rw [exec_mule, mule, hres]
    rfl

/-! ## MULE on a named engine (40_commands.md R141) -/

theorem exec_mule_named {e : Engine} {s : State} (he : present s.params e = true) (m : Mode) (g : Gran) :
    exec (mulInstr .mule m (.named e) g) s = .next (muleEnd m e g s) := by
  rw [exec_mule, mule_named he]

/-- A MULE that leaves the engine to the dispatcher runs on its choice for 2 bytes (40_commands.md R133). -/
theorem exec_mule_auto (m : Mode) (g : Gran) (s : State) :
    exec (mulInstr .mule m .auto g) s = .next (muleEnd m (select s 2) g s) := by
  rw [exec_mule, mule, resolve_auto]
  rfl

/-- Settles O19: both commands run on the dispatcher's choice, which is present. -/
theorem muleAutoRunsTheSelectedEngine : Obligations.MuleAutoRunsTheSelectedEngine := by
  intro g s
  have key (m : Mode) : ∃ t r, exec (mulInstr .mule m .auto g) s = .next t ∧
      exec (mulInstr .mule m (.named (select s 2)) g) s = .next t ∧ MuleEnds s t m (select s 2) g r :=
    ⟨_, _, exec_mule_auto m g s, exec_mule_named (present_select s 2) m g, muleEnd_ends m _ g s⟩
  exact ⟨key .assign, key .accumulate⟩

/-! ## The field product (40_commands.md R139; 43_affine.md R225, R226; 44_clmul.md R244) -/

section
variable (m : Mode) (g : Gran)

/-- The product of a MULE is the field product where the tables that it reads are consistent. -/
theorem muleProduct_field {e : Engine} {s : State} (hp : s.params.polyMonic = true)
    (hc : ConsistentWhereRead s e s.scalar) :
    muleProduct m e g s = (gfmul s.params.poly s.opnd s.scalar, (muleReady m e g s).draws) :=
  prod_buildDerived (s := latch m e g (setLastEngine e s)) hp hc s.opnd false _

/-- The scalars 0 and 1, LOG and CLMUL build no derived state. -/
theorem muleReady_nothing {e : Engine} {s : State} (h : s.scalar = 0 ∨ s.scalar = 1 ∨ e = .log ∨ e = .clmul) :
    muleReady m e g s = latch m e g (setLastEngine e s) :=
  buildDerived_nothing h g _

theorem muleReady_clmul (s : State) :
    muleReady m .clmul g s = latch m .clmul g (setLastEngine .clmul s) :=
  muleReady_nothing m g (.inr (.inr (.inr rfl)))

/-- The product of a MULE on CLMUL is the field product, whatever the polynomial is (44_clmul.md R241). -/
theorem muleProduct_clmul (s : State) :
    muleProduct m .clmul g s = (gfmul s.params.poly s.opnd s.scalar, s.draws) := by
  rw [muleProduct, muleReady_clmul]
  by_cases h0 : s.scalar = 0
  · simp [h0]
  by_cases h1 : s.scalar = 1
  · simp [h1]
  · rw [prod_clmul h0 h1]
    rfl

/-- AFFINE builds AM alone (43_affine.md R221). -/
theorem muleReady_affine (s : State) :
    (muleReady m .affine g s).dt = s.dt ∧ (muleReady m .affine g s).draws = s.draws := by
  unfold muleReady buildDerived
  split <;> exact ⟨rfl, rfl⟩

end

/-- Settles O15: CLMUL reads no table and builds nothing. -/
theorem muleClmulGivesTheFieldProduct : Obligations.MuleClmulGivesTheFieldProduct := by
  intro g s he
  have key (m : Mode) : ∃ t, exec (mulInstr .mule m (.named .clmul) g) s = .next t ∧
      MuleEnds s t m .clmul g (muleResult m s.result (gfmul s.params.poly s.opnd s.scalar)) ∧ t.dt = s.dt ∧
      t.am = s.am ∧ t.draws = s.draws := by
    have hends := muleEnd_ends m .clmul g s
    rw [muleProduct_clmul] at hends
    refine ⟨_, exec_mule_named (e := .clmul) he m g, hends, ?_, ?_, ?_⟩
    · simp [muleEnd, muleReady_clmul]
    · simp [muleEnd, muleReady_clmul]
    · rw [muleEnd_draws, muleProduct_clmul]
  exact ⟨key .assign, key .accumulate⟩

/-- Settles O16: AFFINE reads no table and builds AM alone, whose columns give the field product. -/
theorem muleAffineGivesTheFieldProduct : Obligations.MuleAffineGivesTheFieldProduct := by
  intro g s he hp
  have key (m : Mode) : ∃ t, exec (mulInstr .mule m (.named .affine) g) s = .next t ∧
      MuleEnds s t m .affine g (muleResult m s.result (gfmul s.params.poly s.opnd s.scalar)) ∧ t.dt = s.dt ∧
      t.draws = s.draws := by
    have hprod := muleProduct_field m g (e := .affine) hp (by simp [ConsistentWhereRead])
    obtain ⟨hdt, hdraws⟩ := muleReady_affine m g s
    have hends := muleEnd_ends m .affine g s
    rw [hprod] at hends
    refine ⟨_, exec_mule_named (e := .affine) he m g, hends, ?_, ?_⟩
    · simpa [muleEnd] using hdt
    · rw [muleEnd_draws, hprod, hdraws]
  exact ⟨key .assign, key .accumulate⟩

/-- Settles O31: each engine's product is the field product, and the mode says what RESULT takes. -/
theorem muleIsTheSameOnEveryEngine : Obligations.MuleIsTheSameOnEveryEngine := by
  intro s m e g hp hc he
  refine ⟨_, exec_mule_named he m g, ?_⟩
  rw [(muleEnd_ends m e g s).result, muleProduct_field m g hp hc]
  cases m <;> rfl

/-! ## The shuffle engines (42_table_shuffle.md R191 to R193, R197) -/

/-- A field of bits in its place is the element under the mask of that field. -/
theorem ofNat_field_eq_and (x : Elem) (start width : Nat) :
    BitVec.ofNat 16 ((x.extractLsb' start width).toNat <<< start) =
      x &&& BitVec.ofNat 16 ((2 ^ width - 1) <<< start) := by
  refine BitVec.eq_of_getLsbD_eq fun i hi => ?_
  rw [getLsbD_field x start width i hi, BitVec.getLsbD_and, BitVec.getLsbD_ofNat, Nat.testBit_shiftLeft,
    Nat.testBit_two_pow_sub_one, Bool.and_comm]
  by_cases h : start ≤ i
  · have hw : i - start < width ↔ i < start + width := by omega
    simp [hi, h, hw]
  · simp [h]

/-- The entry of the derived table of f at a field of x is f of x under the mask of that field. -/
theorem dtEntry_dtOf_field (f : Elem → Elem) (g : Gran) {k : Nat} (hk : k < (dtShape g).1) (x : Elem) :
    dtEntry (dtOf f g) k (x.extractLsb' ((dtShape g).2.2 * k) (dtShape g).2.2).toNat =
      f (x &&& BitVec.ofNat 16 ((2 ^ (dtShape g).2.2 - 1) <<< ((dtShape g).2.2 * k))) := by
  have hlt : (x.extractLsb' ((dtShape g).2.2 * k) (dtShape g).2.2).toNat < (dtShape g).2.1 := by
    cases g <;> exact BitVec.isLt _
  rw [dtEntry_dtOf f g hk hlt, ofNat_field_eq_and]

theorem fShuf_dtOf_nibble (f : Elem → Elem) (x : Elem) :
    fShuf .nibble (dtOf f .nibble) x =
      f (x &&& 0x000F) ^^^ f (x &&& 0x00F0) ^^^ f (x &&& 0x0F00) ^^^ f (x &&& 0xF000) := by
  have h0 : dtEntry (dtOf f .nibble) 0 (x.extractLsb' 0 4).toNat = f (x &&& 0x000F) :=
    dtEntry_dtOf_field f .nibble (k := 0) (by decide) x
  have h1 : dtEntry (dtOf f .nibble) 1 (x.extractLsb' 4 4).toNat = f (x &&& 0x00F0) :=
    dtEntry_dtOf_field f .nibble (k := 1) (by decide) x
  have h2 : dtEntry (dtOf f .nibble) 2 (x.extractLsb' 8 4).toNat = f (x &&& 0x0F00) :=
    dtEntry_dtOf_field f .nibble (k := 2) (by decide) x
  have h3 : dtEntry (dtOf f .nibble) 3 (x.extractLsb' 12 4).toNat = f (x &&& 0xF000) :=
    dtEntry_dtOf_field f .nibble (k := 3) (by decide) x
  rw [fShuf, h0, h1, h2, h3]

theorem fShuf_dtOf_byte (f : Elem → Elem) (x : Elem) :
    fShuf .byte (dtOf f .byte) x = f (x &&& 0x00FF) ^^^ f (x &&& 0xFF00) := by
  have h0 : dtEntry (dtOf f .byte) 0 (x.extractLsb' 0 8).toNat = f (x &&& 0x00FF) :=
    dtEntry_dtOf_field f .byte (k := 0) (by decide) x
  have h1 : dtEntry (dtOf f .byte) 1 (x.extractLsb' 8 8).toNat = f (x &&& 0xFF00) :=
    dtEntry_dtOf_field f .byte (k := 1) (by decide) x
  rw [fShuf, h0, h1]

section
variable {e : Engine} (he : e = .shufN ∨ e = .shufW) (m : Mode) (g : Gran) (s : State)
include he

/-- The product of a MULE on a shuffle engine is one lookup in the DT built for it, on the full-chunk path. -/
theorem muleProduct_shuffle (h0 : s.scalar ≠ 0) (h1 : s.scalar ≠ 1) :
    muleProduct m e g s =
      (fShuf g (buildDT s g s.scalar s.draws).1 s.opnd, (buildDT s g s.scalar s.draws).2) := by
  rw [muleProduct, prod_shuffle h0 h1 he, muleReady, buildDerived_shuffle h0 h1 he]
  rfl

/-- Both modes form one product. -/
theorem muleProduct_shuffle_mode (m' : Mode) : muleProduct m e g s = muleProduct m' e g s := by
  by_cases h0 : s.scalar = 0
  · simp [muleProduct, muleReady_nothing _ g (e := e) (.inl h0), h0]
  by_cases h1 : s.scalar = 1
  · simp [muleProduct, muleReady_nothing _ g (e := e) (.inr (.inl h1)), h1]
  · rw [muleProduct_shuffle he m g s h0 h1, muleProduct_shuffle he m' g s h0 h1]

/-- A shuffle engine builds DT alone (42_table_shuffle.md R190). -/
theorem muleEnd_shuffle_am : (muleEnd m e g s).am = s.am := by
  show (muleReady m e g s).am = s.am
  unfold muleReady buildDerived
  split
  · rfl
  · rcases he with rfl | rfl <;> rfl

end

/-- Settles O18: on loaded tables DT is the derived table of the table product, whose entries at the fields of the operand
are the partial products. -/
theorem muleShuffleCombinesPartialProducts : Obligations.MuleShuffleCombinesPartialProducts := by
  intro e g s he hpres
  have hacc := muleEnd_ends .accumulate e g s
  rw [muleProduct_shuffle_mode he .accumulate g s .assign] at hacc
  refine ⟨_, _, _, exec_mule_named hpres .assign g, muleEnd_ends .assign e g s, exec_mule_named hpres .accumulate g,
    hacc, muleEnd_shuffle_am he .assign g s, muleEnd_shuffle_am he .accumulate g s, fun h0 => ?_, fun h1 => ?_,
    fun h0 h1 hload => ?_⟩
  · simp [muleProduct, muleResult, h0]
  · simp [muleProduct, muleResult, h1]
  · have hprod (m : Mode) : muleProduct m e g s = (fShuf g (dtOf (tableProduct s · s.scalar) g) s.opnd, s.draws) := by
      rw [muleProduct_shuffle he m g s h0 h1, buildDT_loaded hload]
    rw [muleEnd_draws, muleEnd_draws, hprod, hprod]
    refine ⟨rfl, rfl, ?_, ?_⟩
    · rintro rfl
      exact fShuf_dtOf_nibble _ _
    · rintro rfl
      exact fShuf_dtOf_byte _ _

end Sys2Proof.Machine
end

section
/-! PROOFS. The run of a MULR to its end: with every access answered it ends in one step for each chunk left and one more, and undisturbed it leaves every result (40_commands.md R137, R144, R146; 60_exceptions.md R304; 70_reset_and_hazards.md R351). -/

namespace Sys2Proof.Machine

open Sys2Proof.Config

/-- Settles O38: from the start of its region the command runs undisturbed, with all its chunks left. -/
theorem completedRegionHoldsEveryResult : Obligations.CompletedRegionHoldsEveryResult := by
  intro s hi hb hk hr hev hoff hans hfree hlate
  obtain ⟨t, hrun, ht⟩ := Undisturbed.run
    ⟨hb, hev, hr, geometry hi hb, hi.memory, hk ▸ hoff, hk ▸ hans, hfree, hlate⟩
  refine ⟨t, ?_, ?_, ?_, fun o ho heven => ht.results o (by omega) ho heven,
    fun a ha => ht.outside a (by simpa [hk] using ha)⟩
  · simpa [chunksLeft, chunkCount, hk] using hrun
  · rw [ht.state]
    simp
  · rw [ht.state]
    rfl

/-! ## A command whose accesses are all answered (70_reset_and_hazards.md R351) -/

/-- A running command that no agent interferes with from K on: no event waits, and each access that it has still to make
is off the register window and is answered, with ok or with a bus error. -/
structure Answered (s : State) : Prop where
  inv : Inv s
  busy : s.status.busy = true
  noEvent : s.inputs = []
  offWindow : OffWindow s (CommandAccesses s.latched s.k)
  noneSilent : NoneSilent s (CommandAccesses s.latched s.k)

/-- A command has ended by completing or by a bus error (40_commands.md R144, 60_exceptions.md R304). -/
def CommandEnded (t : State) : Prop :=
  t.status.busy = false ∧
    ((t.status.done = true ∧ t.status.errCode = 0) ∨ (t.status.err = true ∧ t.status.errCode = 8))

theorem commandEnded_complete (s : State) : CommandEnded (settleRace (completeCommand s)) := by
  simp [CommandEnded]

theorem commandEnded_busFault (a : Nat) (s : State) : CommandEnded (settleRace (busFault a s)) := by
  simp [CommandEnded]

/-- A chunk with no unanswered access meets a bus error or is stored. -/
theorem chunkStep_faults_or_stores {s : State} (hoff : OffWindow s (ChunkAccesses s))
    (hsilent : NoneSilent s (ChunkAccesses s)) :
    (∃ a u, chunkStep s = .next (settleRace (busFault a u))) ∨
      chunkStep s = .next (drawSpans (lateAccesses s) (storeChunk s)) := by
  by_cases hread : ∃ a ∈ chunkReads s, elemFaults s false a = true
  · obtain ⟨a, _, _, hstep⟩ := chunkStep_readFault hoff (hsilent false) hread
    exact .inl ⟨a, _, hstep⟩
  have hreads : ∀ a ∈ chunkReads s, elemFaults s false a = false := by simpa using hread
  by_cases hwrite : ∃ a ∈ chunkWrites s, elemFaults s true a = true
  · obtain ⟨a, _, _, hstep⟩ := chunkStep_writeFault hoff hsilent hreads hwrite
    exact .inl ⟨a, _, hstep⟩
  have hwrites : ∀ a ∈ chunkWrites s, elemFaults s true a = false := by simpa using hwrite
  obtain ⟨hreadSilent, hwriteSilent⟩ := hsilent.chunk
  right
  simp only [chunkStep, hoff.chunk, phase_done _ hreads hreadSilent, phase_done _ hwrites hwriteSilent,
    Bool.false_eq_true, if_false]

namespace Answered

variable {s : State} (h : Answered s)
include h

/-- With no event waiting the step is the unit's. -/
theorem step_eq : step s = unitStep s := by
  simp [step_nil h.noEvent, unitMove, h.busy, (geometry h.inv h.busy).noReset]

/-- The step ends the command, or stores a chunk before the end of the region. -/
theorem step_ends_or_stores :
    (∃ t, step s = .next t ∧ CommandEnded t) ∨
      (s.k < s.latched.len.toNat ∧ step s = .next (drawSpans (lateAccesses s) (storeChunk s))) := by
  rw [h.step_eq]
  by_cases hk : s.k = s.latched.len.toNat
  · exact .inl ⟨_, unitStep_complete hk, commandEnded_complete s⟩
  have hlt := h.inv.k_lt h.busy hk
  have hcommand : ∀ wr x, ChunkAccesses s wr x → CommandAccesses s.latched s.k wr x :=
    fun _ _ hx => hx.command (geometry h.inv h.busy) hlt
  rw [unitStep_chunk hlt]
  rcases chunkStep_faults_or_stores (fun wr x hx => h.offWindow wr x (hcommand wr x hx))
    (fun wr x hx => h.noneSilent wr x (hcommand wr x hx)) with ⟨a, u, hstep⟩ | hstep
  · exact .inl ⟨_, hstep, commandEnded_busFault a u⟩
  · exact .inr ⟨hlt, hstep⟩

/-- After a chunk, whatever it raced with, the accesses still to make are answered. -/
theorem afterChunk (hk : s.k < s.latched.len.toNat) (ps : List Span) : Answered (drawSpans ps (storeChunk s)) where
  inv := (h.inv.storeChunk h.busy hk).drawSpans ps
  busy := by simpa using h.busy
  noEvent := by simpa using h.noEvent
  offWindow := fun wr x hx hw =>
    h.offWindow wr x (CommandAccesses.mono (Nat.le_add_right _ _) (by simpa using hx)) (by simpa [InWindow] using hw)
  noneSilent := fun wr x hx => by
    have hanswer := h.noneSilent wr x (CommandAccesses.mono (Nat.le_add_right _ _) (by simpa using hx))
    simpa [byteAnswer] using hanswer

end Answered

theorem chunksLeft_drawSpans (ps : List Span) (s : State) : chunksLeft (drawSpans ps s) = chunksLeft s := by
  simp [chunksLeft]

/-- A command whose accesses are all answered ends within one step for each chunk left and one more. -/
theorem Answered.run {s : State} (h : Answered s) :
    ∃ n ≤ chunksLeft s + 1, ∃ t, Host.Core.run Sys2Proof.core n s = .next t ∧ CommandEnded t := by
  induction hn : chunksLeft s generalizing s with
  | zero =>
    rcases h.step_ends_or_stores with ⟨t, hstep, ht⟩ | ⟨hk, _⟩
    · exact ⟨1, le_refl _, t, run_succ 0 hstep, ht⟩
    · have := (geometry h.inv h.busy).chunksLeft_eq_zero.1 hn
      omega
  | succ c ih =>
    rcases h.step_ends_or_stores with ⟨t, hstep, ht⟩ | ⟨hk, hstep⟩
    · exact ⟨1, by omega, t, run_succ 0 hstep, ht⟩
    · have hleft := (geometry h.inv h.busy).chunksLeft_storeChunk hk
      obtain ⟨n, hle, t, hrun, ht⟩ := ih (h.afterChunk hk (lateAccesses s)) (by rw [chunksLeft_drawSpans]; omega)
      exact ⟨n + 1, by omega, t, (run_succ n hstep).trans hrun, ht⟩

/-- Settles O37: the premises are what the run needs, and the bound is the chunks left and one more. -/
theorem runningCommandEndsInBoundedSteps : Obligations.RunningCommandEndsInBoundedSteps :=
  fun _ hi hb hev hoff hsilent => Answered.run ⟨hi, hb, hev, hoff, hsilent⟩

end Sys2Proof.Machine
end

section
/-! PROOFS. Reset: what it leaves of the destination of a running command, and the port while it is asserted (70_reset_and_hazards.md R340, R341; 93_implementation_defined.md U12). -/

namespace Sys2Proof.Machine

open Sys2Proof.Config

/-! ## A command that reset abandons (70_reset_and_hazards.md R341) -/

/-- Reset draws a free value for each destination byte from K on of a running command with no race. -/
theorem resetEvent_mem_of_not_raced {s : State} (hb : s.status.busy = true) (hr : s.raced = false) :
    (resetEvent s).mem =
      (drawBytes s.mem (s.latched.dst.toNat + s.k) (s.latched.len.toNat - s.k) s.draws).1 := by
  simp [resetEvent, abandonCommand, hb, hr]

/-- Settles O55: the bytes that reset draws are those from DST + K to the end of the destination. -/
theorem resetDuringACommandFreesItsUnfinishedBytes : Obligations.ResetDuringACommandFreesItsUnfinishedBytes := by
  intro s es hi hb hr hin
  have hk := (geometry hi hb).kLe
  have hmem := resetEvent_mem_of_not_raced (s := withInputs es s) hb hr
  refine ⟨_, step_cons hin, rfl, rfl, rfl, rfl, fun j hj => ?_, fun a ha => ?_⟩
  · exact (congrArg (readByte · _) hmem).trans (readByte_drawBytes_inside hi.memory _ _ _ _ hj)
  · have ha' : a < s.latched.dst.toNat + s.k ∨
        s.latched.dst.toNat + s.k + (s.latched.len.toNat - s.k) ≤ a := by omega
    exact (congrArg (readByte · _) hmem).trans (readByte_drawBytes_outside _ _ _ ha')

/-! ## The port while reset is asserted (70_reset_and_hazards.md R340) -/

/-- An access in the window is the block's, to a register or not. -/
theorem portAccess_ne_elsewhere {s : State} {addr : Addr} (hwin : portOffset s addr < 256) (width : AccessWidth) :
    portAccess s addr width ≠ .elsewhere := by
  rw [portAccess, if_neg (Nat.not_le.2 hwin)]
  split <;> exact nofun

section
variable {s : State} {addr : Addr} (hr : s.inReset = true) (hwin : portOffset s addr < 256)
include hr hwin

theorem portWrite_inReset (width : AccessWidth) (w : Word) :
    portWrite addr width w s = .refused .accessDuringReset := by
  unfold portWrite
  cases hp : portAccess s addr width with
  | elsewhere => exact absurd hp (portAccess_ne_elsewhere hwin width)
  | bad => exact if_pos hr
  | reg r => exact if_pos hr

theorem portRead_inReset (width : AccessWidth) : portRead addr width s = .refused .accessDuringReset := by
  unfold portRead
  cases hp : portAccess s addr width with
  | elsewhere => exact absurd hp (portAccess_ne_elsewhere hwin width)
  | bad => exact if_pos hr
  | reg r => exact if_pos hr

end

/-- Settles O56: taking the event off the list moves neither the window nor the reset input. -/
theorem registerAccessDuringResetIsRefused : Obligations.RegisterAccessDuringResetIsRefused := by
  rintro s addr width w es hr hwin (hin | hin)
  · exact (step_cons hin).trans (portWrite_inReset (s := withInputs es s) hr hwin width w)
  · exact (step_cons hin).trans (portRead_inReset (s := withInputs es s) hr hwin width)

end Sys2Proof.Machine
end
